-- ==== Sys2Proof/Word.lean ====
section
/-! DEFINITION. The value types of HLR-CODEC: bytes, 32-bit words (00_scope.md R5 REG_BITS, R7, R8)
and the two directions of a command (30_encoding.md R79). -/

namespace Sys2Proof

/-- A byte is 8 bits (R8). -/
abbrev Byte := BitVec 8

/-- The width of every host-visible register and of the host data bus (R5, REG_BITS = 32). -/
abbrev Word := BitVec 32

/-- The direction of a command (R79): DIR = 0 selects compress, DIR = 1 selects decompress. -/
inductive Dir where
  | compress
  | decompress
  deriving DecidableEq, Repr, Inhabited

end Sys2Proof
end

