-- ==== Sys2Proof/Machine/Work.lean ====
section
/-! DEFINITION. The types of the engine's working structures (10_state.md §4, R37 to R41): the
frequency table, the prefix-tree arena, the code table, the BitPacker, and the position counters of the
codecs. The codec functions of Machine/Huffman.lean build and read values of these types; State holds
one `Work`. -/

namespace Sys2Proof.Machine

/-- FREQ (R37): 256 counts, 32 bits each, indexed by byte value. -/
abbrev FreqTable := List Word

/-- A bit string (R8), first bit first; `true` is the bit 1. -/
abbrev Bits := List Bool

/-- CODE (R39): 256 entries indexed by byte value. An entry is the bit string CBITS, and CLEN is its
length; a byte value that does not occur has the empty string (CLEN = 0). -/
abbrev CodeTable := List Bits

/-- What a node is (R38): a leaf carries the byte value SYM, an internal node the arena indices LEFT and
RIGHT. The fields R38 calls unused in one kind of node are absent from that kind. -/
inductive NodeKind where
  | leaf (sym : Byte)
  | inner (left right : Nat)
  deriving DecidableEq, Repr, Inhabited

/-- One entry of the arena NODE (R38). `weight` is W, 64 bits. `parent` is PARENT, absent while the node
has none (the root). Arena indices are plain numbers; that they fit R38's 9 bits is R110. -/
structure Node where
  weight : BitVec 64
  kind   : NodeKind
  parent : Option Nat
  deriving DecidableEq, Repr, Inhabited

/-- The arena (R38): the entries in use (NCOUNT is their number), the set LIVE of entries not yet merged,
and ROOT, absent when the tree is empty. -/
structure Arena where
  nodes : List Node
  live  : List Nat
  root  : Option Nat
  deriving DecidableEq, Repr, Inhabited

/-- The BitPacker (R39): the output bit counter NB, the byte accumulator and its fill count. -/
structure Packer where
  nb   : Nat
  acc  : Byte
  fill : Nat
  deriving DecidableEq, Repr, Inhabited

/-- The Huffman decoder (R39): the current node CUR and the emitted-byte counter. -/
structure HufWalk where
  cur     : Nat
  emitted : Nat
  deriving DecidableEq, Repr, Inhabited

/-- The LZ encoder (R40): POS, the best match so far (BEST, BOFF), the candidate offset and length, and
the output position. R40 gives the last three no width: DESIGN CHOICE plain numbers (log 26). -/
structure LzSearch where
  pos     : Word
  best    : Byte
  boff    : BitVec 16
  candOff : Nat
  candLen : Nat
  outPos  : Nat
  deriving DecidableEq, Repr, Inhabited

/-- The LZ decoder (R40): the current output length and the copy counter. R40 gives them no width: DESIGN CHOICE
plain numbers (log 26). -/
structure LzReplay where
  outLen : Nat
  copied : Nat
  deriving DecidableEq, Repr, Inhabited

/-- The RLE engine (R41): the input position, the current run value and the current run count. R41 gives the input
position no width: DESIGN CHOICE a plain number (log 26). -/
structure RunScan where
  pos   : Nat
  value : Byte
  count : Byte
  deriving DecidableEq, Repr, Inhabited

/-- All working structures of the engine (R37 to R41). None is host-visible, none is read before the
command that uses it has written it, and none survives a command (R42). -/
structure Work where
  freq   : FreqTable
  arena  : Arena
  code   : CodeTable
  packer : Packer
  walk   : HufWalk
  search : LzSearch
  replay : LzReplay
  scan   : RunScan
  deriving DecidableEq, Repr, Inhabited

end Sys2Proof.Machine
end

