-- ==== Sys2Proof/Config.lean ====
section
/-! DEFINITION. What an instance of HLR-CODEC fixes (00_scope.md R5, R6) and the free values
(93_implementation_defined.md U1 to U6). A free value is a constant with no body: nothing can be proved
about what it is. -/

namespace Sys2Proof

/-- The OPEN parameters of R5. A model takes them as arguments: every State carries its own, so that a
statement over all states is a statement over all parameter values. -/
structure Params where
  /-- IN_CAP: bytes in IN_BUF. -/
  inCap     : Nat
  /-- OUT_CAP: bytes in OUT_BUF. -/
  outCap    : Nat
  /-- BLOCK_BASE: the host-bus address of block offset 0. -/
  blockBase : Nat
  deriving DecidableEq, Repr, Inhabited

namespace Config

/-- WINDOW (R5): the largest LZ back-reference distance the encoder uses. -/
def window : Nat := 4096

/-- MAX_MATCH (R5): the largest LZ match length. -/
def maxMatch : Nat := 255

/-- MIN_MATCH (R5): the shortest LZ match the encoder uses. -/
def minMatch : Nat := 1

/-- MAX_RUN (R5): the largest RLE count. -/
def maxRun : Nat := 255

/-- NODE_COUNT (R5): prefix-tree arena entries. -/
def nodeCount : Nat := 511

/-- The largest value the 4-byte NBITS field can hold (R5 NBITS_BITS = 32, R117). -/
def maxNbits : Nat := 2 ^ 32 - 1

/-- The parameters of the instance that State.reset describes.
DESIGN CHOICE (log 1): R5 leaves them OPEN; R5's bounds hold of these. -/
def resetParams : Params := { inCap := 4096, outCap := 4096, blockBase := 0 }

/-- Free value (log 2; U1, U2): what byte i of IN_BUF holds in reset epoch e until the host writes it. -/
opaque freeInByte : Nat → Nat → Byte

/-- Free value (log 3; U3, U5): what byte i of OUT_BUF reads as, while no command runs, when it is no
defined output byte; e counts the events that make OUT_BUF unspecified. -/
opaque freeOutByte : Nat → Nat → Byte

/-- Free value (log 4; U4): what byte i of OUT_BUF reads as in the n-th read made while a command runs. -/
opaque freeBusyByte : Nat → Nat → Byte

/-- Free value (log 5; U6): what the working structures hold after the n-th event that leaves them
unspecified. -/
opaque freeWork : Nat → Machine.Work

/-- Free value (log 6): what host variable x holds before the host program assigns it. -/
opaque freeHostVar : Nat → Word

end Config

end Sys2Proof
end

