-- ==== Sys2Proof/Syntax.lean ====
section
/-! DEFINITION. The commands of HLR-CODEC (30_encoding.md R81, R92): one constructor per row of
spec/opcode_table.json. -/

namespace Sys2Proof

/-- A command. The six codec commands take no operand besides the buffer state (R80, R92). UNSUP is every
command word whose ALGO no codec has (R189); it keeps the ALGO and DIR that the read-back of REG.CMD shows
(R25). Bits 31:9 of a command word are ignored (R77), so no constructor holds them. -/
inductive Instr where
  | hufC
  | rleC
  | lzC
  | hufD
  | rleD
  | lzD
  | unsup (algo : Byte) (dir : Dir)
  deriving DecidableEq, Repr, Inhabited

end Sys2Proof
end

