-- ==== Sys2Proof/Decode.lean ====
section
/-! DEFINITION. The decoder and the encoder of command words (30_encoding.md R77 to R82; 44_registry.md
R180, R181). -/

namespace Sys2Proof

/-- DIR as the bit of R79. -/
def dirBit : Dir → BitVec 1
  | .compress => 0#1
  | .decompress => 1#1

/-- The direction a DIR bit selects (R79). -/
def dirOfBit (b : BitVec 1) : Dir := if b = 0#1 then .compress else .decompress

/-- `algo = w[7:0]` (R77, R80). -/
def cmdAlgoOf (w : Word) : Byte := w.extractLsb' 0 8

/-- `dir = w[8]` (R77, R80). -/
def cmdDirOf (w : Word) : Dir := dirOfBit (w.extractLsb' 8 1)

/-- The registry's Resolve (R181), with the command in place of its codec function: fixed, stateless and
total (R180). -/
def resolve (algo : Byte) (dir : Dir) : Instr :=
  if algo = 0x00#8 then
    match dir with
    | .compress => .hufC
    | .decompress => .hufD
  else if algo = 0x01#8 then
    match dir with
    | .compress => .rleC
    | .decompress => .rleD
  else if algo = 0x02#8 then
    match dir with
    | .compress => .lzC
    | .decompress => .lzD
  else .unsup algo dir

/-- The command a 32-bit word selects: decoded from bits 8:0 alone (R77, R81, R82). Every word decodes. -/
def decodeWord (w : Word) : Instr := resolve (cmdAlgoOf w) (cmdDirOf w)

/-- The ALGO field of a command (R78). -/
def algoOf : Instr → Byte
  | .hufC => 0x00#8
  | .hufD => 0x00#8
  | .rleC => 0x01#8
  | .rleD => 0x01#8
  | .lzC => 0x02#8
  | .lzD => 0x02#8
  | .unsup algo _ => algo

/-- The DIR field of a command (R79). -/
def dirOf : Instr → Dir
  | .hufC => .compress
  | .rleC => .compress
  | .lzC => .compress
  | .hufD => .decompress
  | .rleD => .decompress
  | .lzD => .decompress
  | .unsup _ dir => dir

/-- A command word from its fields, with the reserved bits 31:9 zero: `zext_32` of DIR and ALGO (R25, R77,
R185). -/
def cmdWord (algo : Byte) (dir : Dir) : Word := 0#23 ++ dirBit dir ++ algo

/-- The command word of a command, with the reserved bits zero: for the six codec commands the match value
of R81, as START writes it (R94). -/
def encode (i : Instr) : Word := cmdWord (algoOf i) (dirOf i)

/-- Why a string of bits is no command word. -/
inductive DecodeReject where
  /-- It is longer than the one 32-bit format (R77). -/
  | tooLong (nbits : Nat)
  /-- The value given does not fit the width given with it. -/
  | valueTooWide (nbits : Nat)
  deriving DecidableEq, Repr

/-- Decoding a string of `nbits` bits of value `w`, bits above `nbits` read as 0. The one format is 32 bits
(R77); a longer string is rejected by name. -/
def decodeBits (nbits w : Nat) : Except DecodeReject Instr :=
  if 32 < nbits then .error (.tooLong nbits)
  else if 2 ^ nbits ≤ w then .error (.valueTooWide nbits)
  else .ok (decodeWord (BitVec.ofNat 32 w))

/-- The instruction the decoder reads from a row's bits, as spec/opcode_table.json numbers them. -/
def decodeTableWord (nbits w : Nat) : Option Instr :=
  match decodeBits nbits w with
  | .ok i => some i
  | .error _ => none

/-- Command mnemonics (R92). -/
def mnemonic : Instr → String
  | .hufC => "HUF.C"
  | .rleC => "RLE.C"
  | .lzC => "LZ.C"
  | .hufD => "HUF.D"
  | .rleD => "RLE.D"
  | .lzD => "LZ.D"
  | .unsup _ _ => "UNSUP"

end Sys2Proof
end

