-- ==== Sys2Proof/HostSyntax.lean ====
section
/-! DEFINITION. Host programs (30_encoding.md R93): the operations the host agent issues. The host is
outside the block (10_state.md R20); its accesses are the inputs of the model. -/

namespace Sys2Proof

/-- A 32-bit value a host operation writes: a constant, or the content of a host variable (R93; P2 and P3 of
95_test_vectors.md write back values they have read). -/
inductive HostVal where
  | imm (v : Word)
  | var (x : Nat)
  deriving DecidableEq, Repr, Inhabited

/-- A host operation (R93). Offsets are block offsets; host variables are numbered. -/
inductive HostOp where
  /-- `WR32 off, v` -/
  | wr32 (off : Word) (v : HostVal)
  /-- `WR8 off, b`: the low byte of the value -/
  | wr8 (off : Word) (b : HostVal)
  /-- `RD32 off -> x` -/
  | rd32 (off : Word) (x : Nat)
  /-- `RD8 off -> x` -/
  | rd8 (off : Word) (x : Nat)
  /-- `POLL off, m, v` -/
  | poll (off : Word) (m v : Word)
  /-- `WAITIRQ` -/
  | waitIrq
  deriving DecidableEq, Repr, Inhabited

end Sys2Proof
end

