-- ==== Sys2Proof/WellFormed.lean ====
section
/-! DEFINITION. Which commands and which parameters the spec admits (00_scope.md R5; 30_encoding.md R78,
R81). -/

namespace Sys2Proof

/-- A command is well formed when it is the reading of some command word: UNSUP holds an ALGO that no codec
has, 0x03 to 0xFF (R78, R189). -/
def Instr.wf : Instr → Bool
  | .hufC => true
  | .rleC => true
  | .lzC => true
  | .hufD => true
  | .rleD => true
  | .lzD => true
  | .unsup algo _ => decide (3 ≤ algo.toNat)

/-- R5's bounds on the OPEN parameters: 1 ≤ IN_CAP ≤ 2^30 and 1028 ≤ OUT_CAP ≤ 2^30. -/
abbrev Params.wf (p : Params) : Prop :=
  1 ≤ p.inCap ∧ p.inCap ≤ 2 ^ 30 ∧ 1028 ≤ p.outCap ∧ p.outCap ≤ 2 ^ 30

end Sys2Proof
end

