-- ==== Sys2Proof/Machine/State.lean ====
section
/-! DEFINITION. The state of the machine (10_state.md): the block's registers, latched command state,
buffers and working structures; the free-value counters of the model; and the host agent, whose accesses are
the block's inputs (R20). -/

namespace Sys2Proof.Machine

/-- A buffer (R35, R36): the bytes that something has written or that the spec defines, as (index, byte) pairs
with strictly rising indices. A byte that is not listed is unspecified: it has no value here (`none`), and the
operations that read a buffer supply a free value for it. -/
abbrev Memory := List Host.Cell

/-- Host variables (R93): (number, value) pairs with strictly rising numbers. -/
abbrev HostVars := List (Nat × Word)

/-- The canonical form of a buffer: indices strictly rising. Nothing is listed without a value, so no entry
equals what an unlisted byte reads as. -/
abbrev Memory.wf (m : Memory) : Prop := m.Pairwise fun x y => x.1 < y.1

/-- The canonical form of the host variables. -/
abbrev HostVars.wf (m : HostVars) : Prop := m.Pairwise fun x y => x.1 < y.1

/-- The engine phase (R32). -/
inductive Phase where
  | idle
  | busy
  deriving DecidableEq, Repr, Inhabited

/-- Which agent moves next. The spec fixes no order between the host's accesses, the end of a running command
and reset (R191, R230, R239), so the state carries one: a statement over all states is one over all orders
(log 7). -/
inductive Turn where
  /-- the host issues its next operation -/
  | host
  /-- the engine ends the running command -/
  | engine
  /-- reset is asserted and released (R230, R232): one event. The spec says nothing of a host access while reset is held
  asserted: DESIGN CHOICE no such interval (log 27) -/
  | reset
  deriving DecidableEq, Repr, Inhabited

/-- The machine. -/
structure State where
  /-- IN_CAP, OUT_CAP, BLOCK_BASE: fixed per instance (R5, R42). -/
  params   : Params
  /-- REG.CMD.ALGO read-back (R25). -/
  cmdAlgo  : Byte
  /-- REG.CMD.DIR read-back (R25). -/
  cmdDir   : Dir
  /-- The engine phase; REG.STATUS.BUSY = 1 exactly when it is busy (R32). -/
  phase    : Phase
  /-- REG.STATUS.DONE (R26). -/
  done     : Bool
  /-- REG.STATUS.ERR, 4 bits (R26, R210). -/
  err      : BitVec 4
  /-- REG.IN_LEN (R27). -/
  inLen    : Word
  /-- REG.OUT_LEN (R28). -/
  outLen   : Word
  /-- REG.IRQ_EN.EN (R29). -/
  irqEn    : Bool
  /-- CUR_ALGO (R31). Between commands it keeps its last value: DESIGN CHOICE (log 28). -/
  curAlgo  : Byte
  /-- CUR_DIR (R31); between commands as CUR_ALGO (log 28). -/
  curDir   : Dir
  /-- CUR_N (R31); between commands as CUR_ALGO (log 28). -/
  curN     : Word
  /-- IN_BUF (R35): the bytes the host has written since reset. -/
  inBuf    : Memory
  /-- OUT_BUF (R36): the defined bytes. -/
  outBuf   : Memory
  /-- FREQ, NODE, CODE, the BitPacker, and the codecs' working state (R37 to R41). -/
  work     : Work
  /-- Model's own: the number of resets so far, which numbers the unspecified contents of IN_BUF. -/
  inEpoch  : Nat
  /-- Model's own: how often OUT_BUF and the working structures have become unspecified. -/
  outEpoch : Nat
  /-- Model's own: how many reads of OUT_BUF were made while a command ran (one draw each, U4). -/
  draws    : Nat
  /-- Host agent: the operations it has still to issue, in order (R72, R93). -/
  prog     : List HostOp
  /-- Host agent: its variables (R93). -/
  vars     : HostVars
  /-- Who moves in the coming steps; when it is empty a running command ends first (R191, weak fairness). -/
  sched    : List Turn
  deriving DecidableEq, Repr, Inhabited

/-- Why a run stops with a fault. -/
inductive Fault where
  /-- BusError (R60, R61, R221): the host issued an access that no window admits, at this block offset. Raised by the
  host's turn (Machine/Bus.lean), by no command. The spec has a model treat it as a fault of the host agent. Safe: the
  block itself is unchanged and would go on; nothing is claimed of what the host does next. -/
  | busError (off : Word)
  deriving DecidableEq, Repr

/-- Why an instruction has no meaning. -/
inductive Refusal where
  /-- Reserved for an arm of `exec` without a meaning. No arm has it: every command of the table has its meaning. Safe:
  nothing can be proved of a step that is refused. -/
  | notModelled (mnemonic : String)
  deriving DecidableEq, Repr

/-- The block and the host right after reset (R43, R230), for given parameters. Every register is 0 and the phase is
IDLE (R43). CUR_ALGO, CUR_DIR, CUR_N and the working structures are unspecified after reset and never read before they
are written (R31, R42): DESIGN CHOICE zeros, and an arena with no entry in use (log 8). The buffers list nothing: every byte is unspecified. -/
def State.resetWith (p : Params) : State where
  params := p
  cmdAlgo := 0x00#8
  cmdDir := .compress
  phase := .idle
  done := false
  err := 0#4
  inLen := 0#32
  outLen := 0#32
  irqEn := false
  curAlgo := 0x00#8
  curDir := .compress
  curN := 0#32
  inBuf := []
  outBuf := []
  work :=
    { freq := List.replicate 256 0#32, arena := { nodes := [], live := [], root := none }, code := List.replicate 256 []
      packer := { nb := 0, acc := 0#8, fill := 0 }
      walk := { cur := 0, emitted := 0 }
      search := { pos := 0#32, best := 0#8, boff := 0#16, candOff := 0, candLen := 0, outPos := 0 }
      replay := { outLen := 0, copied := 0 }
      scan := { pos := 0, value := 0#8, count := 0#8 } }
  inEpoch := 0
  outEpoch := 0
  draws := 0
  prog := []
  vars := []
  sched := []

/-- The machine right after reset. -/
def State.reset : State := State.resetWith Config.resetParams

end Sys2Proof.Machine
end

