-- ==== Sys2Proof/Machine/Flags.lean ====
section
/-! DEFINITION. The status codes, the STATUS word and the interrupt line (10_state.md R26, R33, R34;
60_exceptions.md R210, R218). -/

namespace Sys2Proof.Machine

/-- How a command ends (R210). -/
inductive Status where
  | ok
  | unsupportedAlgorithm
  | malformedPayload
  | inputTooLarge
  | outputOverflow
  deriving DecidableEq, Repr, Inhabited

/-- `code(S)`: the number REG.STATUS.ERR holds (R210). -/
def statusCode : Status → BitVec 4
  | .ok => 0#4
  | .unsupportedAlgorithm => 1#4
  | .malformedPayload => 2#4
  | .inputTooLarge => 3#4
  | .outputOverflow => 4#4

/-- REG.STATUS.BUSY (R32). -/
def busyBit : Phase → BitVec 1
  | .idle => 0#1
  | .busy => 1#1

/-- REG.STATUS as the host reads it (R26): ERR in bits 7:4, DONE in bit 1, BUSY in bit 0, every other bit 0. -/
def statusWord (s : State) : Word :=
  0#24 ++ s.err ++ 0#2 ++ BitVec.ofBool s.done ++ busyBit s.phase

/-- The IRQ line (R34, R218): REG.STATUS.DONE AND REG.IRQ_EN.EN, at every instant. -/
def irqLine (s : State) : Bool := s.done && s.irqEn

end Sys2Proof.Machine
end

