-- ==== Sys2Proof/Machine/Operands.lean ====
section
/-! DEFINITION. The operands of commands: the payload byte orders (00_scope.md R8; 20_memory.md R67) and the input bytes
a command takes from IN_BUF (10_state.md R35, R42; 30_encoding.md R80). -/

namespace Sys2Proof.Machine

/-- The ways a codec function fails (R9). -/
inductive Failure where
  | malformed
  | bitCountOverflow
  deriving DecidableEq, Repr, Inhabited

/-- What a codec function gives: a byte sequence or a failure (R10, R11). -/
abbrev CodecResult := Except Failure (List Byte)

/-- `s[i]` (R8); the codec functions read it only for i < len(s). -/
def byteAt (s : List Byte) (i : Nat) : Byte := s.getD i 0#8

/-- `be16(s, i)` (R8). -/
def be16 (s : List Byte) (i : Nat) : BitVec 16 := byteAt s i ++ byteAt s (i + 1)

/-- `be32(s, i)` (R8). -/
def be32 (s : List Byte) (i : Nat) : Word :=
  byteAt s i ++ byteAt s (i + 1) ++ byteAt s (i + 2) ++ byteAt s (i + 3)

/-- `put_be16(v)` (R8). -/
def putBe16 (v : BitVec 16) : List Byte := [v.extractLsb' 8 8, v.extractLsb' 0 8]

/-- `put_be32(v)` (R8). -/
def putBe32 (v : Word) : List Byte :=
  [v.extractLsb' 24 8, v.extractLsb' 16 8, v.extractLsb' 8 8, v.extractLsb' 0 8]

/-- The entry at a key of a list of (key, value) pairs with strictly rising keys. -/
def cellGet {α : Type} : List (Nat × α) → Nat → Option α
  | [], _ => none
  | (k, v) :: rest, a => if a = k then some v else if a < k then none else cellGet rest a

/-- Setting the entry at a key, which keeps the keys strictly rising. -/
def cellPut {α : Type} : List (Nat × α) → Nat → α → List (Nat × α)
  | [], a, x => [(a, x)]
  | (k, v) :: rest, a, x =>
    if a < k then (a, x) :: (k, v) :: rest
    else if a = k then (a, x) :: rest
    else (k, v) :: cellPut rest a x

/-- `IN[i]` (R35): the byte the host wrote there, or, where nothing has written since reset, the free value of R43 (U1). -/
def inByte (s : State) (i : Nat) : Byte := (cellGet s.inBuf i).getD (Config.freeInByte s.inEpoch i)

/-- The input of the running command: `IN[0:CUR_N]` (R42, R73, R80). A byte nothing has written is a draw (R233; log 2). -/
def cmdInput (s : State) : List Byte := (List.range s.curN.toNat).map (inByte s)

end Sys2Proof.Machine
end

