-- ==== Sys2Proof/Machine/Ops.lean ====
section
/-! DEFINITION. The shared operations of the block: reads of OUT_BUF, the events command start, command end and reset
(44_registry.md R186, R193; 70_reset_and_hazards.md R230), the frame of a codec command (R188, R190), the registers
(10_state.md R24 to R30) and the two host accesses MemRead and MemWrite (20_memory.md R60 to R66). The block takes no traps
(60_exceptions.md R219): command end is its only event of that kind, and there is no return from it (R220). -/

namespace Sys2Proof.Machine

/-! ### Buffers -/

/-- The bytes of `r` at buffer indices k, k + 1, ... -/
def cellsFrom (k : Nat) : List Byte → Memory
  | [] => []
  | b :: rest => (k, b) :: cellsFrom (k + 1) rest

/-- `OUT[i]` as a host read sees it (R36, R64): while no command runs, the defined byte or a free value that stays the same
until OUT_BUF next becomes unspecified (U3, U5); while a command runs, a draw (R237, U4). -/
def outByte (s : State) (i : Nat) : Byte :=
  match s.phase with
  | .idle => (cellGet s.outBuf i).getD (Config.freeOutByte s.outEpoch i)
  | .busy => Config.freeBusyByte s.draws i

/-- A host write of one byte to IN_BUF: stored while no command runs, ignored while one runs (R63, R236). -/
def putInByte (s : State) (i : Nat) (b : Byte) : State :=
  match s.phase with
  | .idle => { s with inBuf := cellPut s.inBuf i b }
  | .busy => s

/-! ### Command start, command end, reset -/

/-- Command start (R186), one event: an accepted CMD write of `w`. -/
def commandStart (w : Word) (s : State) : State :=
  { s with
    curAlgo := cmdAlgoOf w
    curDir := cmdDirOf w
    curN := s.inLen
    cmdAlgo := cmdAlgoOf w
    cmdDir := cmdDirOf w
    phase := .busy
    done := false
    err := 0#4
    outLen := 0#32
    outBuf := []
    outEpoch := s.outEpoch + 1 }

/-- Command end (R193), one event: `complete(S, r)`. The bytes of OUT_BUF that are not output become unspecified, and so do
the working structures (R42, U6). CUR_ALGO, CUR_DIR and CUR_N are unspecified between commands as well (R31, U6), and R193 writes
none of them: DESIGN CHOICE, they keep the values the command latched (log 28). -/
def complete (st : Status) (r : List Byte) (s : State) : State :=
  { s with
    outBuf := if st = .ok then cellsFrom 0 r else []
    outLen := if st = .ok then BitVec.ofNat 32 r.length else 0#32
    err := statusCode st
    phase := .idle
    done := true
    outEpoch := s.outEpoch + 1
    work := Config.freeWork (s.outEpoch + 1) }

/-- Reset (R230, R231): every piece of state takes its value of R43. The parameters are fixed (R42). The free-value counters
go on, so that the new unspecified contents of the buffers and of the working structures are new values. The host agent is
outside the block and keeps its own state. -/
def resetBlock (s : State) : State :=
  { State.resetWith s.params with
    inEpoch := s.inEpoch + 1
    outEpoch := s.outEpoch + 1
    work := Config.freeWork (s.outEpoch + 1)
    draws := s.draws
    prog := s.prog
    vars := s.vars
    sched := s.sched }

/-! ### The frame of a codec command -/

/-- Execute (R188) for a command whose codec function is `f`: the checks in the order that gives the status (R190, R216). -/
def execute (f : List Byte → CodecResult) (s : State) : Status × List Byte :=
  if s.params.inCap < s.curN.toNat then (.inputTooLarge, [])
  else
    match f (cmdInput s) with
    | .error .malformed => (.malformedPayload, [])
    | .error .bitCountOverflow => (.outputOverflow, [])
    | .ok r => if s.params.outCap < r.length then (.outputOverflow, []) else (.ok, r)

/-- A codec command: Execute and then command end with what it gives (R188, R193). -/
def runCodec (f : List Byte → CodecResult) (s : State) : State :=
  complete (execute f s).1 (execute f s).2 s

/-! ### Registers -/

/-- The registers of the REG window (R24), and the offsets that hold none (R30). -/
inductive Reg where
  | cmd
  | status
  | inLen
  | outLen
  | irqEn
  | reserved
  deriving DecidableEq, Repr

/-- The register at an offset of the REG window (R24, R30). -/
def regAt (off : Nat) : Reg :=
  if off = 0x000 then .cmd
  else if off = 0x004 then .status
  else if off = 0x008 then .inLen
  else if off = 0x00C then .outLen
  else if off = 0x010 then .irqEn
  else .reserved

/-- A host read of a register (R25 to R30). -/
def readReg (s : State) : Reg → Word
  | .cmd => cmdWord s.cmdAlgo s.cmdDir
  | .status => statusWord s
  | .inLen => s.inLen
  | .outLen => s.outLen
  | .irqEn => 0#31 ++ BitVec.ofBool s.irqEn
  | .reserved => 0#32

/-- A host write of a register (R25 to R30, R184, R236). -/
def writeReg (s : State) (r : Reg) (v : Word) : State :=
  match r with
  | .cmd =>
    match s.phase with
    | .idle => commandStart v s
    | .busy => s
  | .status => if v.getLsbD 1 then { s with done := false } else s
  | .inLen =>
    match s.phase with
    | .idle => { s with inLen := v }
    | .busy => s
  | .outLen => s
  | .irqEn => { s with irqEn := v.getLsbD 0 }
  | .reserved => s

/-! ### Host accesses -/

/-- The block offset of IN_BUF byte 0 (R62). -/
def inBase : Nat := 0x40000000

/-- The block offset of OUT_BUF byte 0 (R62). -/
def outBase : Nat := 0x80000000

/-- The size of the REG window (R62). -/
def regSize : Nat := 0x1000

/-- What a block offset addresses (R62): a register-window offset, a buffer index, or nothing. -/
inductive Window where
  | reg (off : Nat)
  | inBuf (i : Nat)
  | outBuf (i : Nat)
  | hole
  deriving DecidableEq, Repr

/-- The window that holds a block offset (R62). -/
def windowOf (p : Params) (off : Word) : Window :=
  if off.toNat < regSize then .reg off.toNat
  else if inBase ≤ off.toNat ∧ off.toNat < inBase + p.inCap then .inBuf (off.toNat - inBase)
  else if outBase ≤ off.toNat ∧ off.toNat < outBase + p.outCap then .outBuf (off.toNat - outBase)
  else .hole

/-- Whether the window admits an access of `n` bytes there (R63, R64, R65, R68). Window bases are multiples of 4, so a
buffer index is a multiple of 4 exactly when its offset is. -/
def admits (p : Params) (n : Nat) : Window → Bool
  | .reg off => n == 4 && off % 4 == 0
  | .inBuf i => n == 1 || (n == 4 && i % 4 == 0 && decide (i + 4 ≤ p.inCap))
  | .outBuf i => n == 1 || (n == 4 && i % 4 == 0 && decide (i + 4 ≤ p.outCap))
  | .hole => false

/-- What a host read of OUT_BUF leaves behind: while a command runs, the next such read is a fresh draw (U4). The block's own
state is unchanged (R70). -/
def afterOutRead (s : State) : State :=
  match s.phase with
  | .idle => s
  | .busy => { s with draws := s.draws + 1 }

/-- A 32-bit value from four buffer bytes in little-endian lane order (R66). -/
def lanes (f : Nat → Byte) (i : Nat) : Word := f (i + 3) ++ f (i + 2) ++ f (i + 1) ++ f i

/-- `MemRead(off, 1)` (R60): the byte and the state after it, or none for BusError. -/
def memRead8 (off : Word) (s : State) : Option (Byte × State) :=
  if admits s.params 1 (windowOf s.params off) then
    match windowOf s.params off with
    | .inBuf i => some (inByte s i, s)
    | .outBuf i => some (outByte s i, afterOutRead s)
    | .reg _ => none
    | .hole => none
  else none

/-- `MemRead(off, 4)` (R60): the word and the state after it, or none for BusError. -/
def memRead32 (off : Word) (s : State) : Option (Word × State) :=
  if admits s.params 4 (windowOf s.params off) then
    match windowOf s.params off with
    | .reg o => some (readReg s (regAt o), s)
    | .inBuf i => some (lanes (inByte s) i, s)
    | .outBuf i => some (lanes (outByte s) i, afterOutRead s)
    | .hole => none
  else none

/-- `MemWrite(off, 1, v)` (R61): the state after it, or none for BusError. Writes to OUT_BUF are ignored (R64). -/
def memWrite8 (off : Word) (v : Byte) (s : State) : Option State :=
  if admits s.params 1 (windowOf s.params off) then
    match windowOf s.params off with
    | .inBuf i => some (putInByte s i v)
    | .outBuf _ => some s
    | .reg _ => none
    | .hole => none
  else none

/-- A host write of one word to IN_BUF in little-endian lane order, as one event (R66, R69). -/
def putInWord (s : State) (i : Nat) (v : Word) : State :=
  putInByte
    (putInByte
      (putInByte (putInByte s i (v.extractLsb' 0 8)) (i + 1) (v.extractLsb' 8 8))
      (i + 2) (v.extractLsb' 16 8))
    (i + 3) (v.extractLsb' 24 8)

/-- `MemWrite(off, 4, v)` (R61): the state after it, or none for BusError. -/
def memWrite32 (off : Word) (v : Word) (s : State) : Option State :=
  if admits s.params 4 (windowOf s.params off) then
    match windowOf s.params off with
    | .reg o => some (writeReg s (regAt o) v)
    | .inBuf i => some (putInWord s i v)
    | .outBuf _ => some s
    | .hole => none
  else none

end Sys2Proof.Machine
end

