-- ==== Sys2Proof/Machine/Bus.lean ====
section
/-! DEFINITION. The host port and the host agent (10_state.md R20; 20_memory.md R60 to R62, R72; 30_encoding.md R93, R94):
host-bus addresses, one host operation, and the pseudo-operations' expansions. -/

namespace Sys2Proof.Machine

/-- The host-bus address of a block offset (R5, R62: BLOCK_BASE is the address of offset 0). -/
def busAddr (p : Params) (off : Word) : Nat := p.blockBase + off.toNat

/-- The block offset of a host-bus address. -/
def offsetOf (p : Params) (addr : Nat) : Word := BitVec.ofNat 32 (addr - p.blockBase)

/-- The value of a host variable; before the host program assigns it, a free value (log 6). -/
def hostVar (s : State) (x : Nat) : Word := (cellGet s.vars x).getD (Config.freeHostVar x)

/-- The value a host operation writes. -/
def hostVal (s : State) : HostVal → Word
  | .imm v => v
  | .var x => hostVar s x

/-- The host goes on to the rest of its program. -/
def hostNext (rest : List HostOp) (s : State) : Host.Outcome State Fault Refusal := .next { s with prog := rest }

/-- The host stores a value it has read and goes on. -/
def hostStore (rest : List HostOp) (x : Nat) (v : Word) (s : State) : Host.Outcome State Fault Refusal :=
  .next { s with vars := cellPut s.vars x v, prog := rest }

/-- One host operation (R93), `rest` being the program after it. Each access goes over the host bus, at the bus address of its
block offset; BusError is a fault of the host agent (R221). A POLL whose value does not match, and a WAITIRQ while IRQ = 0, stay
at the head of the program and are tried again at the host's next turn. -/
def hostStep (op : HostOp) (rest : List HostOp) (s : State) : Host.Outcome State Fault Refusal :=
  match op with
  | .wr32 off v =>
    match memWrite32 (offsetOf s.params (busAddr s.params off)) (hostVal s v) s with
    | none => .fault (.busError off)
    | some t => hostNext rest t
  | .wr8 off b =>
    match memWrite8 (offsetOf s.params (busAddr s.params off)) ((hostVal s b).setWidth 8) s with
    | none => .fault (.busError off)
    | some t => hostNext rest t
  | .rd32 off x =>
    match memRead32 (offsetOf s.params (busAddr s.params off)) s with
    | none => .fault (.busError off)
    | some (v, t) => hostStore rest x v t
  | .rd8 off x =>
    match memRead8 (offsetOf s.params (busAddr s.params off)) s with
    | none => .fault (.busError off)
    | some (v, t) => hostStore rest x (v.setWidth 32) t
  | .poll off m v =>
    match memRead32 (offsetOf s.params (busAddr s.params off)) s with
    | none => .fault (.busError off)
    | some (w, t) => if w &&& m = v then hostNext rest t else .next t
  | .waitIrq => if irqLine s then hostNext rest s else .next s

/-- The host's turn (R20, R72): its next operation; with none left, nothing arrives. -/
def hostTurn (s : State) : Host.Outcome State Fault Refusal :=
  match s.prog with
  | [] => .next s
  | op :: rest => hostStep op rest s

/-! ### Offsets and pseudo-operations -/

/-- `REG_CMD` (R93). -/
def regCmdOff : Word := 0x000#32
/-- `REG_STATUS` (R93). -/
def regStatusOff : Word := 0x004#32
/-- `REG_IN_LEN` (R93). -/
def regInLenOff : Word := 0x008#32
/-- `REG_OUT_LEN` (R93). -/
def regOutLenOff : Word := 0x00C#32
/-- `REG_IRQ_EN` (R93). -/
def regIrqEnOff : Word := 0x010#32
/-- `IN_BASE` (R93). -/
def inBaseOff : Word := 0x40000000#32
/-- `OUT_BASE` (R93). -/
def outBaseOff : Word := 0x80000000#32

/-- `START m` (R94). -/
def opStart (i : Instr) : List HostOp := [.wr32 regCmdOff (.imm (encode i))]

/-- `SETLEN n` (R94). -/
def opSetLen (n : Word) : List HostOp := [.wr32 regInLenOff (.imm n)]

/-- `WAITDONE` (R94). -/
def opWaitDone : List HostOp := [.poll regStatusOff 0x2#32 0x2#32]

/-- `CLEARDONE` (R94). -/
def opClearDone : List HostOp := [.wr32 regStatusOff (.imm 0x2#32)]

/-- `LOADIN a, [b0, ..., bk]` (R94). -/
def opLoadIn (a : Nat) : List Byte → List HostOp
  | [] => []
  | b :: rest => .wr8 (inBaseOff + BitVec.ofNat 32 a) (.imm (b.setWidth 32)) :: opLoadIn (a + 1) rest

/-- `READOUT a, k -> y` (R94): y[i] is host variable y + i. -/
def opReadOut (a k y : Nat) : List HostOp :=
  (List.range k).map fun i => .rd8 (outBaseOff + BitVec.ofNat 32 (a + i)) (y + i)

/-- The host sequence of R234 for one command with input `input` and output variables from `y` on, polling, DONE cleared at
the end: wait for BUSY = 0, write the input and its length, start, wait for DONE, read STATUS into variable 0 and OUT_LEN into
variable 1, read `k` output bytes, clear DONE. -/
def opRunCommand (i : Instr) (input : List Byte) (k y : Nat) : List HostOp :=
  [.poll regStatusOff 0x1#32 0x0#32] ++ opLoadIn 0 input ++ opSetLen (BitVec.ofNat 32 input.length) ++ opStart i ++
    opWaitDone ++ [.rd32 regStatusOff 0, .rd32 regOutLenOff 1] ++ opReadOut 0 k y ++ opClearDone

end Sys2Proof.Machine
end

