-- ==== Sys2Proof/Machine/Huffman.lean ====
section
/-! DEFINITION. The Huffman codec (41_huffman.md R100 to R125; 30_encoding.md R83 to R87): the FrequencyTable, the PrefixTree,
the CodeTable and the BitPacker, and the meanings of HUF.C and HUF.D. -/

namespace Sys2Proof.Machine

/-! ### FrequencyTable -/

/-- The count of byte value `v` (R100). -/
def freqAt (freq : FreqTable) (v : Nat) : Word := freq.getD v 0#32

/-- One step of the counting loop of R102. -/
def countByte (freq : FreqTable) (b : Byte) : FreqTable := freq.modify b.toNat (· + 1#32)

/-- BuildFreq (R102). -/
def buildFreq (s : List Byte) : FreqTable := s.foldl countByte (List.replicate 256 0#32)

/-- SerFreq (R103): the frequency block. -/
def serFreq (freq : FreqTable) : List Byte := freq.flatMap putBe32

/-- DeserFreq (R104). -/
def deserFreq (p : List Byte) : FreqTable := (List.range 256).map fun v => be32 p (4 * v)

/-- The sum of the counts, exact (R104, R120). -/
def freqTotal (freq : FreqTable) : Nat := (freq.map BitVec.toNat).sum

/-! ### PrefixTree -/

/-- NODE[i] (R38). -/
def nodeAt (nodes : List Node) (i : Nat) : Node :=
  nodes.getD i { weight := 0#64, kind := .leaf 0#8, parent := none }

/-- The leaves of R107: one per byte value with a nonzero count, in ascending byte-value order. -/
def leafNodes (freq : FreqTable) : List Node :=
  ((List.range 256).filter fun v => freqAt freq v ≠ 0#32).map fun v =>
    { weight := (freqAt freq v).setWidth 64, kind := .leaf (BitVec.ofNat 8 v), parent := none }

/-- Whether node `i` comes before node `j` in the order of R108: least weight, then least arena index. -/
def lighter (nodes : List Node) (i j : Nat) : Bool :=
  decide ((nodeAt nodes i).weight < (nodeAt nodes j).weight) ||
    (decide ((nodeAt nodes i).weight = (nodeAt nodes j).weight) && decide (i < j))

/-- The argmin of R109: the live node that comes first in the order of R108. -/
def lightest (nodes : List Node) : List Nat → Option Nat
  | [] => none
  | i :: rest =>
    match lightest nodes rest with
    | none => some i
    | some j => if lighter nodes i j then some i else some j

/-- Writing PARENT of node `i`. -/
def setParent (p i : Nat) (nodes : List Node) : List Node := nodes.modify i fun n => { n with parent := some p }

/-- The new internal node of R109 over `a` (LEFT) and `b` (RIGHT). -/
def mergeNodes (nodes : List Node) (a b : Nat) : List Node :=
  setParent nodes.length b (setParent nodes.length a nodes) ++
    [{ weight := (nodeAt nodes a).weight + (nodeAt nodes b).weight, kind := .inner a b, parent := none }]

/-- The merging loop of R108 and R109, at most `fuel` merges: the nodes and LIVE at its end. -/
def mergeLoop : Nat → List Node → List Nat → List Node × List Nat
  | 0, nodes, live => (nodes, live)
  | fuel + 1, nodes, live =>
    match lightest nodes live with
    | none => (nodes, live)
    | some a =>
      match lightest nodes (live.erase a) with
      | none => (nodes, live)
      | some b => mergeLoop fuel (mergeNodes nodes a b) ((live.erase a).erase b ++ [nodes.length])

/-- BuildTree (R109). Every merge takes one member off LIVE, so as many merges as leaves are enough. -/
def buildTree (freq : FreqTable) : Arena :=
  let leaves := leafNodes freq
  let m := mergeLoop leaves.length leaves (List.range leaves.length)
  { nodes := m.1, live := m.2, root := m.2.head? }

/-! ### CodeTable -/

/-- The loop of BuildCodes (R114) with its stack, top first, at most `fuel` pops. -/
def codeLoop (nodes : List Node) : Nat → List (Nat × Bits) → CodeTable → CodeTable
  | 0, _, code => code
  | _ + 1, [], code => code
  | fuel + 1, (i, p) :: stack, code =>
    match (nodeAt nodes i).kind with
    | .leaf v => codeLoop nodes fuel stack (code.set v.toNat p)
    | .inner l r => codeLoop nodes fuel ((l, p ++ [false]) :: (r, p ++ [true]) :: stack) code

/-- BuildCodes (R113, R114). Every node is popped once, so as many pops as nodes are enough. -/
def buildCodes (t : Arena) : CodeTable :=
  match t.root with
  | none => List.replicate 256 []
  | some root =>
    match (nodeAt t.nodes root).kind with
    | .leaf v => (List.replicate 256 []).set v.toNat [false]
    | .inner _ _ => codeLoop t.nodes t.nodes.length [(root, [])] (List.replicate 256 [])

/-- `code[v]` (R112); CLEN[v] is its length. -/
def codeOf (code : CodeTable) (v : Byte) : Bits := code.getD v.toNat []

/-! ### BitPacker -/

/-- Bit j of a bit string; 0 past its end, which is the padding of R86. -/
def bitAt (bits : Bits) (j : Nat) : Bool := bits.getD j false

/-- Byte k of the packed bits (R86, R115): bits 8k to 8k + 7, the first in bit position 7. -/
def packByte (bits : Bits) (k : Nat) : Byte :=
  BitVec.ofBool (bitAt bits (8 * k)) ++ BitVec.ofBool (bitAt bits (8 * k + 1)) ++
  BitVec.ofBool (bitAt bits (8 * k + 2)) ++ BitVec.ofBool (bitAt bits (8 * k + 3)) ++
  BitVec.ofBool (bitAt bits (8 * k + 4)) ++ BitVec.ofBool (bitAt bits (8 * k + 5)) ++
  BitVec.ofBool (bitAt bits (8 * k + 6)) ++ BitVec.ofBool (bitAt bits (8 * k + 7))

/-- Pack (R115): ceil(nb/8) bytes. -/
def pack (bits : Bits) : List Byte := (List.range ((bits.length + 7) / 8)).map (packByte bits)

/-- Unpack (R116): the first `nb` bits of a byte sequence. -/
def unpack (b : List Byte) (nb : Nat) : Bits :=
  (List.range nb).map fun j => (byteAt b (j / 8)).getLsbD (7 - j % 8)

/-! ### The codec functions -/

/-- The code bits of an input (R119). -/
def encodeBits (code : CodeTable) (s : List Byte) : Bits := s.flatMap (codeOf code)

/-- HufCompress (R119). -/
def hufCompress (s : List Byte) : CodecResult :=
  let freq := buildFreq s
  let bits := encodeBits (buildCodes (buildTree freq)) s
  if Config.maxNbits < bits.length then .error .bitCountOverflow
  else .ok (serFreq freq ++ putBe32 (BitVec.ofNat 32 bits.length) ++ pack bits)

/-- LEFT of a node (R38); 0 in a leaf, where it is unused. -/
def leftOf (n : Node) : Nat :=
  match n.kind with
  | .leaf _ => 0
  | .inner l _ => l

/-- RIGHT of a node (R38); 0 in a leaf, where it is unused. -/
def rightOf (n : Node) : Nat :=
  match n.kind with
  | .leaf _ => 0
  | .inner _ r => r

/-- The tree walk (R118, R120) from node `cur`: a leaf reached is emitted and the walk goes back to the root; bits that end
inside a code are malformed (M5). -/
def treeWalk (nodes : List Node) (root : Nat) : Nat → Bits → CodecResult
  | cur, [] => if cur = root then .ok [] else .error .malformed
  | cur, b :: rest =>
    let next := if b then rightOf (nodeAt nodes cur) else leftOf (nodeAt nodes cur)
    match (nodeAt nodes next).kind with
    | .leaf v => (treeWalk nodes root root rest).map fun out => v :: out
    | .inner _ _ => treeWalk nodes root next rest

/-- Decoding with a tree that is one leaf (R118, R120): each bit 0 emits its byte value, a bit 1 is malformed (M4). -/
def oneLeafWalk (v : Byte) (bits : Bits) : CodecResult :=
  if bits.any id then .error .malformed else .ok (List.replicate bits.length v)

/-- Decoding the code bits with a tree (R120, M3 to M5). -/
def decodeBitString (t : Arena) (bits : Bits) : CodecResult :=
  match t.root with
  | none => if bits.length ≠ 0 then .error .malformed else .ok []
  | some root =>
    match (nodeAt t.nodes root).kind with
    | .leaf v => oneLeafWalk v bits
    | .inner _ _ => treeWalk t.nodes root root bits

/-- The last check of R120 (M6): the decoded length is the sum of the counts. -/
def checkTotal (total : Nat) (out : List Byte) : CodecResult :=
  if out.length ≠ total then .error .malformed else .ok out

/-- HufDecompress (R120). -/
def hufDecompress (p : List Byte) : CodecResult :=
  if p.length < 1028 then .error .malformed
  else
    let nbits := (be32 p 1024).toNat
    let body := p.drop 1028
    if 8 * body.length < nbits then .error .malformed
    else
      let freq := deserFreq p
      (decodeBitString (buildTree freq) (unpack body nbits)).bind (checkTotal (freqTotal freq))

/-- HUF.C (R119). -/
def execHufC (s : State) : Host.Outcome State Fault Refusal := .next (runCodec hufCompress s)

/-- HUF.D (R120). -/
def execHufD (s : State) : Host.Outcome State Fault Refusal := .next (runCodec hufDecompress s)

end Sys2Proof.Machine
end

