-- ==== Sys2Proof/Machine/Lz.lean ====
section
/-! DEFINITION. The LZ codec (42_lz.md R140 to R153; 30_encoding.md R88, R89) and the meanings of LZ.C and LZ.D. -/

namespace Sys2Proof.Machine

/-- A token (R140) with the widths of its record (R88). -/
structure Token where
  offset  : BitVec 16
  length  : Byte
  literal : Byte
  deriving DecidableEq, Repr

/-- The length of the longest common prefix of two byte sequences, at most `maxlen`. -/
def commonPrefix : Nat → List Byte → List Byte → Nat
  | 0, _, _ => 0
  | _ + 1, [], _ => 0
  | _ + 1, _, [] => 0
  | maxlen + 1, a :: as, b :: bs => if a = b then commonPrefix maxlen as bs + 1 else 0

/-- The candidate length of offset `off` at position `pos` (R143). Both sides are read from the input, so a match may run into
the bytes being encoded. -/
def matchLength (s : List Byte) (maxlen pos off : Nat) : Nat :=
  commonPrefix maxlen (s.drop (pos - off)) (s.drop pos)

/-- The candidate loop of R147 over offsets 1 to `n`, ascending: the greatest length found and the offset it was first found
at. The comparison is strict, so the smallest offset wins ties (R144). -/
def bestMatch (s : List Byte) (maxlen pos : Nat) : Nat → Nat × Nat
  | 0 => (0, 0)
  | n + 1 =>
    let m := bestMatch s maxlen pos n
    let len := matchLength s maxlen pos (n + 1)
    if m.1 < len then (len, n + 1) else m

/-- The match used at position `pos` (length, offset) for given WINDOW and MIN_MATCH (R141, R142, R144, R145): (0, 0) for a
pure literal. -/
def chooseMatch (window minMatch : Nat) (s : List Byte) (pos : Nat) : Nat × Nat :=
  let m := bestMatch s (min Config.maxMatch (s.length - pos - 1)) pos (min window pos)
  if m.1 < minMatch then (0, 0) else m

/-- The token loop of R147 from position `pos` on, at most `fuel` tokens. -/
def lzScan (window minMatch : Nat) (s : List Byte) : Nat → Nat → List Token
  | 0, _ => []
  | fuel + 1, pos =>
    if pos < s.length then
      let m := chooseMatch window minMatch s pos
      { offset := BitVec.ofNat 16 m.2, length := BitVec.ofNat 8 m.1, literal := byteAt s (pos + m.1) } ::
        lzScan window minMatch s fuel (pos + m.1 + 1)
    else []

/-- The tokens of an input (R147) for given WINDOW and MIN_MATCH (R6). Every token takes at least one byte, so len(s) tokens
are enough. -/
def lzTokens (window minMatch : Nat) (s : List Byte) : List Token := lzScan window minMatch s s.length 0

/-- The record of a token (R88). -/
def tokenRecord (t : Token) : List Byte := putBe16 t.offset ++ [t.length, t.literal]

/-- LzCompress (R147), with WINDOW and MIN_MATCH of R5. -/
def lzCompress (s : List Byte) : List Byte := (lzTokens Config.window Config.minMatch s).flatMap tokenRecord

/-- The tokens of a payload (R88): one for each whole 4-byte record. -/
def parseTokens : List Byte → List Token
  | o1 :: o0 :: len :: lit :: rest => { offset := o1 ++ o0, length := len, literal := lit } :: parseTokens rest
  | _ => []

/-- The self-referential copy (R149): `n` bytes, one at a time, each from `off` bytes before the current end of the output. -/
def copyBack (off : Nat) : Nat → List Byte → List Byte
  | 0, out => out
  | n + 1, out => copyBack off n (out ++ [byteAt out (out.length - off)])

/-- The token loop of R150, with the output so far (R151). -/
def replayTokens : List Token → List Byte → CodecResult
  | [], out => .ok out
  | t :: rest, out =>
    if t.length ≠ 0#8 ∧ (t.offset = 0#16 ∨ out.length < t.offset.toNat) then .error .malformed
    else replayTokens rest (copyBack t.offset.toNat t.length.toNat out ++ [t.literal])

/-- LzDecompress (R150): case L1, then the tokens with case L2. -/
def lzDecompress (p : List Byte) : CodecResult :=
  if p.length % 4 ≠ 0 then .error .malformed else replayTokens (parseTokens p) []

/-- LZ.C (R147). -/
def execLzC (s : State) : Host.Outcome State Fault Refusal := .next (runCodec (fun p => .ok (lzCompress p)) s)

/-- LZ.D (R150). -/
def execLzD (s : State) : Host.Outcome State Fault Refusal := .next (runCodec lzDecompress s)

end Sys2Proof.Machine
end

