-- ==== Sys2Proof/Machine/Registry.lean ====
section
/-! DEFINITION. The meaning of a command whose algorithm identifier no codec has (44_registry.md R189). -/

namespace Sys2Proof.Machine

/-- UNSUP (R189): the command ends with UnsupportedAlgorithm; IN_BUF and CUR_N are not examined. -/
def execUnsup (s : State) : Host.Outcome State Fault Refusal := .next (complete .unsupportedAlgorithm [] s)

end Sys2Proof.Machine
end

