-- ==== Sys2Proof/Machine/Rle.lean ====
section
/-! DEFINITION. The run-length codec (43_rle.md R165 to R170) and the meanings of RLE.C and RLE.D. -/

namespace Sys2Proof.Machine

/-- How many bytes at the front of `s` equal `v`, counting at most `cap` (the inner loop of R166). -/
def runLength (v : Byte) : Nat → List Byte → Nat
  | 0, _ => 0
  | _ + 1, [] => 0
  | cap + 1, b :: rest => if b = v then runLength v cap rest + 1 else 0

/-- The outer loop of R166 on the input from its current position on, at most `fuel` records: one record, count first, for the
run at the front, which takes at most MAX_RUN bytes. -/
def rleScan : Nat → List Byte → List Byte
  | 0, _ => []
  | _ + 1, [] => []
  | fuel + 1, v :: rest =>
    let c := runLength v Config.maxRun (v :: rest)
    BitVec.ofNat 8 c :: v :: rleScan fuel ((v :: rest).drop c)

/-- RleCompress (R166). Every record takes at least one byte, so len(s) records are enough. -/
def rleCompress (s : List Byte) : List Byte := rleScan s.length s

/-- The record loop of R168. -/
def rleExpand : List Byte → CodecResult
  | [] => .ok []
  | [_] => .error .malformed
  | c :: v :: rest =>
    if c = 0#8 then .error .malformed
    else (rleExpand rest).map fun out => List.replicate c.toNat v ++ out

/-- RleDecompress (R168): case E1, then the records with case E2. -/
def rleDecompress (p : List Byte) : CodecResult :=
  if p.length % 2 ≠ 0 then .error .malformed else rleExpand p

/-- RLE.C (R166). -/
def execRleC (s : State) : Host.Outcome State Fault Refusal := .next (runCodec (fun p => .ok (rleCompress p)) s)

/-- RLE.D (R168). -/
def execRleD (s : State) : Host.Outcome State Fault Refusal := .next (runCodec rleDecompress s)

end Sys2Proof.Machine
end

