-- ==== Sys2Proof/Machine/Dispatch.lean ====
section
/-! DEFINITION. exec: what each command does, from the state its command start left to the state after its command end. -/

namespace Sys2Proof.Machine

def exec (i : Instr) (s : State) : Host.Outcome State Fault Refusal :=
  match i with
  | .hufC => Sys2Proof.Machine.execHufC s
  | .rleC => Sys2Proof.Machine.execRleC s
  | .lzC => Sys2Proof.Machine.execLzC s
  | .hufD => Sys2Proof.Machine.execHufD s
  | .rleD => Sys2Proof.Machine.execRleD s
  | .lzD => Sys2Proof.Machine.execLzD s
  | .unsup _ _ => Sys2Proof.Machine.execUnsup s

end Sys2Proof.Machine
end

