-- ==== Sys2Proof/Machine/Engine.lean ====
section
/-! DEFINITION. The turns of the agents: the engine (10_state.md R21), the host (R20) and reset (70_reset_and_hazards.md R230). -/

namespace Sys2Proof.Machine

/-- The engine's turn (R21, R188): a running command is the one its latched ALGO and DIR select, and runs to its end as one
step (R191); the engine does nothing while no command runs. -/
def engineTurn (s : State) : Host.Outcome State Fault Refusal :=
  match s.phase with
  | .idle => .next s
  | .busy => exec (resolve s.curAlgo s.curDir) s

/-- One agent's turn. Reset is one event: R230 speaks of asserting it and R232 of what holds after its release, and the spec is
silent on a host access while it is held asserted. DESIGN CHOICE: no turn falls into that interval (log 27). -/
def takeTurn (t : Turn) (s : State) : Host.Outcome State Fault Refusal :=
  match t with
  | .host => hostTurn s
  | .engine => engineTurn s
  | .reset => .next (resetBlock s)

/-- Who moves next: the head of the schedule; when the schedule is empty, a running command ends first (R191: a running command
eventually ends), and otherwise the host moves. -/
def nextTurn (s : State) : Turn :=
  match s.sched with
  | t :: _ => t
  | [] =>
    match s.phase with
    | .busy => .engine
    | .idle => .host

/-- The state with its next turn taken off the schedule. -/
def afterSched (s : State) : State := { s with sched := s.sched.tail }

/-- `s` with a command word accepted by REG.CMD and the engine to move next: the state in which `step` runs the command of the
low `nbits` bits of `w`. -/
def loadCommand (s : State) (nbits w : Nat) : State :=
  commandStart (BitVec.ofNat 32 (w % 2 ^ nbits)) { s with sched := .engine :: s.sched }

end Sys2Proof.Machine
end

