-- ==== Sys2Proof/Machine/Step.lean ====
section
/-! DEFINITION. One step of the machine: the turn of the agent that moves next. -/

namespace Sys2Proof.Machine

/-- One step. -/
def step (s : State) : Host.Outcome State Fault Refusal := takeTurn (nextTurn s) (afterSched s)

/-- `s` with the instruction of a row's bits where step takes its next instruction from. The machine fetches nothing (10_state.md
R23): a command comes to run by an accepted write of its word to REG.CMD (44_registry.md R186), which latches it for the engine.
So this is the state after that write, with the engine's turn next (log 9). -/
def State.withFetchWord (s : State) (nbits w : Nat) : State := loadCommand s nbits w

end Sys2Proof.Machine
end

