-- ==== Sys2Proof/Safety.lean ====
section
/-! DEFINITION. The terms claims use: the codec function of a command, what it means that a command ends with a status and an
output, the invariant of the machine, and when a host program makes no access that the block answers with BusError. -/

namespace Sys2Proof.Machine

/-- The codec function Resolve gives for a command (R181); none for UNSUPPORTED. -/
def codecOf : Instr → Option (List Byte → CodecResult)
  | .hufC => some hufCompress
  | .hufD => some hufDecompress
  | .rleC => some fun p => .ok (rleCompress p)
  | .rleD => some rleDecompress
  | .lzC => some fun p => .ok (lzCompress p)
  | .lzD => some lzDecompress
  | .unsup _ _ => none

/-- `t` shows what a command that ended with status `st` and output `r` leaves (R193, R36): the engine is IDLE, DONE = 1, ERR
holds the status; with status OK, OUT_LEN is the length of the output and the host reads the output in OUT_BUF; with any other
status OUT_LEN = 0. Every byte of OUT_BUF at or above OUT_LEN is unspecified. -/
structure CommandEnds (t : State) (st : Status) (r : List Byte) : Prop where
  phase   : t.phase = .idle
  done    : t.done = true
  err     : t.err = statusCode st
  outLen  : t.outLen.toNat = if st = .ok then r.length else 0
  out     : st = .ok → ∀ i (h : i < r.length), outByte t i = r[i]
  outFree : ∀ i, t.outLen.toNat ≤ i → outByte t i = Config.freeOutByte t.outEpoch i

/-- Everything of the state that a command leaves alone (R217): the parameters, REG.CMD, REG.IN_LEN, REG.IRQ_EN, the latched
command, every byte of IN_BUF, and the host agent. That the latched command (CUR_ALGO, CUR_DIR, CUR_N) is the same after command
end is the model's choice (log 28). -/
structure SameInput (s t : State) : Prop where
  params  : t.params = s.params
  cmdAlgo : t.cmdAlgo = s.cmdAlgo
  cmdDir  : t.cmdDir = s.cmdDir
  inLen   : t.inLen = s.inLen
  irqEn   : t.irqEn = s.irqEn
  curAlgo : t.curAlgo = s.curAlgo
  curDir  : t.curDir = s.curDir
  curN    : t.curN = s.curN
  inBuf   : t.inBuf = s.inBuf
  inByte  : ∀ i, inByte t i = inByte s i
  draws   : t.draws = s.draws
  prog    : t.prog = s.prog
  vars    : t.vars = s.vars
  sched   : t.sched = s.sched

/-- The invariant of the machine. -/
structure State.Inv (s : State) : Prop where
  /-- R5: the parameters are in their bounds. -/
  params    : s.params.wf
  /-- R26, R28, R36: while a command runs, DONE, ERR and OUT_LEN are 0 and no byte of OUT_BUF is defined. -/
  busyClear : s.phase = .busy → s.done = false ∧ s.err = 0#4 ∧ s.outLen = 0#32 ∧ s.outBuf = []
  /-- R27, R31, R236: while a command runs, its latched operands are what REG.CMD and REG.IN_LEN read. -/
  busyLatch : s.phase = .busy → s.curAlgo = s.cmdAlgo ∧ s.curDir = s.cmdDir ∧ s.curN = s.inLen
  /-- R210: the codes 5 to 15 are never written. -/
  errCode   : s.err.toNat ≤ 4
  /-- R192, R215: an error leaves no output. -/
  errNoOut  : s.err ≠ 0#4 → s.outLen = 0#32
  /-- R35: IN_BUF is in canonical form and within IN_CAP. -/
  inWf      : Memory.wf s.inBuf
  inBound   : ∀ c ∈ s.inBuf, c.1 < s.params.inCap
  /-- R36, R193: the defined bytes of OUT_BUF are exactly those below OUT_LEN (so OUT_BUF is in canonical form). -/
  outKeys   : s.outBuf.map (·.1) = List.range s.outLen.toNat
  /-- R190: no output is longer than OUT_CAP. -/
  outBound  : s.outLen.toNat ≤ s.params.outCap
  /-- The host variables are in canonical form. -/
  varsWf    : HostVars.wf s.vars

/-- Whether the block admits the access of a host operation (R60 to R65). -/
def opAdmitted (p : Params) : HostOp → Bool
  | .wr32 off _ => admits p 4 (windowOf p off)
  | .wr8 off _ => admits p 1 (windowOf p off)
  | .rd32 off _ => admits p 4 (windowOf p off)
  | .rd8 off _ => admits p 1 (windowOf p off)
  | .poll off _ _ => admits p 4 (windowOf p off)
  | .waitIrq => true

/-- Every access of the host program still to come is one the block admits. -/
abbrev State.progAdmitted (s : State) : Prop := ∀ op ∈ s.prog, opAdmitted s.params op = true

/-- A run of `n` steps that meets no fault: a safe run. -/
def SafeRun (n : Nat) (s : State) : Prop := ∃ t, Host.Core.run Sys2Proof.core n s = .next t

end Sys2Proof.Machine
end

