-- ==== Sys2Proof/Certificates/Slice0/Obligations.lean ====
section
/-! DEFINITION. The statements for the provers, each from numbered rules of spec/ (OBLIGATIONS.json names the rules). -/

open Sys2Proof Sys2Proof.Machine

/-! ### Command words (30_encoding.md) -/

/-- R81: every 32-bit word decodes to exactly one row of the command map, matched on `w AND 0x1FF`, UNSUP last. -/
def Obligations.CommandMapDecodesLowNineBits : Prop :=
  ∀ w : Word,
    (w &&& 0x1FF#32 = 0x000#32 → decodeWord w = .hufC) ∧
    (w &&& 0x1FF#32 = 0x001#32 → decodeWord w = .rleC) ∧
    (w &&& 0x1FF#32 = 0x002#32 → decodeWord w = .lzC) ∧
    (w &&& 0x1FF#32 = 0x100#32 → decodeWord w = .hufD) ∧
    (w &&& 0x1FF#32 = 0x101#32 → decodeWord w = .rleD) ∧
    (w &&& 0x1FF#32 = 0x102#32 → decodeWord w = .lzD) ∧
    (3 ≤ (w &&& 0xFF#32).toNat →
      decodeWord w = .unsup (w.extractLsb' 0 8) (if w.getLsbD 8 then .decompress else .compress))

/-- The encoder and the decoder agree: the word of a well-formed command, given to the table's decoder, is that command. -/
def Obligations.DecodeOfEncodeIsIdentity : Prop :=
  ∀ i : Instr, i.wf = true → decodeWord (encode i) = i ∧ decodeTableWord 32 (encode i).toNat = some i

/-- R77, R82: decoding and encoding again keeps bits 8:0 and clears the ignored bits 31:9; what is decoded is well formed. -/
def Obligations.EncodeOfDecodeClearsReservedBits : Prop :=
  ∀ w : Word, encode (decodeWord w) = w &&& 0x1FF#32 ∧ (decodeWord w).wf = true

/-- The command words of 95_test_vectors.md V-C1 to V-C9 decode as they say (a sanity check). -/
def Obligations.VectorWordsDecode : Prop :=
  decodeTableWord 32 0x00000000 = some .hufC ∧ decodeTableWord 32 0x00000001 = some .rleC ∧
  decodeTableWord 32 0x00000002 = some .lzC ∧ decodeTableWord 32 0x00000100 = some .hufD ∧
  decodeTableWord 32 0x00000101 = some .rleD ∧ decodeTableWord 32 0x00000102 = some .lzD ∧
  decodeTableWord 32 0xFFFFFE02 = some .lzC ∧ decodeTableWord 32 0x00000003 = some (.unsup 0x03#8 .compress) ∧
  decodeTableWord 32 0x000001FF = some (.unsup 0xFF#8 .decompress)

/-! ### Steps, command start, reset -/

/-- A step runs the decoded instruction: when a command runs and the engine moves next, step is exec of the command that the
latched ALGO and DIR decode to, which is well formed. The same of a command word placed by withFetchWord. -/
def Obligations.StepRunsTheLatchedCommand : Prop :=
  (∀ s : State, s.phase = .busy → nextTurn s = .engine →
    step s = exec (decodeWord (cmdWord s.curAlgo s.curDir)) (afterSched s) ∧
    (decodeWord (cmdWord s.curAlgo s.curDir)).wf = true) ∧
  (∀ (s : State) (w : Nat), w < 2 ^ 32 →
    step (s.withFetchWord 32 w) = exec (decodeWord (BitVec.ofNat 32 w)) (commandStart (BitVec.ofNat 32 w) s))

/-- The host's turn issues the next operation of its program (R72), and nothing arrives when there is none. The engine does
nothing while no command runs (R21). What each operation of R93 does: an admitted write takes effect and the host goes on; an
admitted read goes to the host variable it names; POLL and WAITIRQ go on when they are satisfied and otherwise stay (log 11). -/
def Obligations.HostAndIdleTurns : Prop :=
  ∀ s : State,
    (nextTurn s = .host → ∀ op rest, s.prog = op :: rest → step s = hostStep op rest (afterSched s)) ∧
    (nextTurn s = .host → s.prog = [] → step s = .next (afterSched s)) ∧
    (nextTurn s = .engine → s.phase = .idle → step s = .next (afterSched s)) ∧
    ∀ (rest : List HostOp) (off m w : Word) (v : HostVal) (x : Nat) (t : State),
      (memWrite32 off (hostVal s v) s = some t → hostStep (.wr32 off v) rest s = .next { t with prog := rest }) ∧
      (memWrite8 off ((hostVal s v).setWidth 8) s = some t → hostStep (.wr8 off v) rest s = .next { t with prog := rest }) ∧
      (∀ r, memRead32 off s = some (r, t) →
        (∃ u, hostStep (.rd32 off x) rest s = .next u ∧ u = { t with vars := u.vars, prog := rest } ∧
          (HostVars.wf s.vars → ∀ y, hostVar u y = if y = x then r else hostVar s y)) ∧
        hostStep (.poll off m w) rest s = .next (if r &&& m = w then { t with prog := rest } else t)) ∧
      (∀ r, memRead8 off s = some (r, t) →
        ∃ u, hostStep (.rd8 off x) rest s = .next u ∧ u = { t with vars := u.vars, prog := rest } ∧
          (HostVars.wf s.vars → ∀ y, hostVar u y = if y = x then r.setWidth 32 else hostVar s y)) ∧
      hostStep .waitIrq rest s = .next (if irqLine s then { s with prog := rest } else s)

/-- R184 to R186: a CMD write while BUSY = 0 is accepted, whatever DONE is: it latches ALGO, DIR and IN_LEN, reads back as
`zext_32(w[8:0])`, sets BUSY, clears DONE, ERR and OUT_LEN, drops IRQ, makes OUT_BUF unspecified, leaves the rest alone, and the
engine then runs the command of `w`. A CMD write while BUSY = 1 is ignored. (Unspecified bytes of OUT_BUF: the free value of log 4.) -/
def Obligations.CmdWriteStartsOrIsIgnored : Prop :=
  ∀ (s : State) (w : Word),
    (s.phase = .idle → ∃ t, memWrite32 0x000#32 w s = some t ∧
      t.curAlgo = w.extractLsb' 0 8 ∧ t.curDir = (if w.getLsbD 8 then .decompress else .compress) ∧ t.curN = s.inLen ∧
      memRead32 0x000#32 t = some (w &&& 0x1FF#32, t) ∧
      t.phase = .busy ∧ t.done = false ∧ t.err = 0#4 ∧ t.outLen = 0#32 ∧ irqLine t = false ∧
      (∀ i, outByte t i = Config.freeBusyByte t.draws i) ∧ t.outBuf = [] ∧
      t.inLen = s.inLen ∧ t.irqEn = s.irqEn ∧ t.params = s.params ∧ (∀ i, inByte t i = inByte s i) ∧
      engineTurn t = exec (decodeWord w) t) ∧
    (s.phase = .busy → memWrite32 0x000#32 w s = some s)

/-- R230, R231, R42, R43: reset at any time, also during a command, makes every register 0, the phase IDLE and IRQ 0, and every byte
of IN_BUF and OUT_BUF and the working structures unspecified; the parameters stay. (The model's own choices: the unspecified bytes
are free values, logs 2, 3 and 5; a reset turn leaves the parameters alone, log 12; reset is one event, with no interval in which
it is held, log 27.) -/
def Obligations.ResetTurnClearsTheBlock : Prop :=
  ∀ s : State, nextTurn s = .reset → ∃ t, step s = .next t ∧
    (∀ r : Reg, readReg t r = 0#32) ∧ t.phase = .idle ∧ t.done = false ∧ t.err = 0#4 ∧ irqLine t = false ∧
    t.params = s.params ∧
    (∀ i, inByte t i = Config.freeInByte (s.inEpoch + 1) i) ∧ (∀ i, outByte t i = Config.freeOutByte (s.outEpoch + 1) i) ∧
    t.work = Config.freeWork (s.outEpoch + 1)

/-- R43: the machine right after reset: every register reads 0, the engine is IDLE, IRQ = 0, no buffer byte has a value. -/
def Obligations.ResetStateValues : Prop :=
  (∀ r : Reg, readReg State.reset r = 0#32) ∧ State.reset.phase = .idle ∧ irqLine State.reset = false ∧
  (∀ i, cellGet State.reset.inBuf i = none) ∧ (∀ i, cellGet State.reset.outBuf i = none)

/-! ### Registers (10_state.md) -/

/-- R24 to R29: each register's offset reads its fields; a register read changes nothing, also while a command runs. -/
def Obligations.RegisterOffsetsRead : Prop :=
  ∀ s : State,
    memRead32 0x000#32 s = some (0#23 ++ (if s.cmdDir = .decompress then 1#1 else 0#1) ++ s.cmdAlgo, s) ∧
    memRead32 0x004#32 s = some (statusWord s, s) ∧
    memRead32 0x008#32 s = some (s.inLen, s) ∧
    memRead32 0x00C#32 s = some (s.outLen, s) ∧
    memRead32 0x010#32 s = some (if s.irqEn then 1#32 else 0#32, s)

/-- R26: STATUS reads BUSY in bit 0, DONE in bit 1, ERR in bits 7:4 and 0 in every other bit; writing it clears DONE when bit 1
is written as 1 and changes nothing else. -/
def Obligations.StatusFieldsAndWriteOneToClear : Prop :=
  ∀ s : State,
    ((statusWord s).getLsbD 0 = decide (s.phase = .busy) ∧ (statusWord s).getLsbD 1 = s.done ∧
      (statusWord s).extractLsb' 4 4 = s.err ∧ statusWord s &&& 0xFFFFFF0C#32 = 0#32) ∧
    ∀ v : Word, memWrite32 0x004#32 v s = some { s with done := s.done && !v.getLsbD 1 }

/-- R27: IN_LEN stores every 32-bit value as written while no command runs and ignores writes while one runs, reads back, and is
the number of input bytes the next command takes; a value above IN_CAP makes the next command end with InputTooLarge (when its
ALGO has a codec: R211 goes first). -/
def Obligations.InLenStoresAsWritten : Prop :=
  State.reset.inLen = 0#32 ∧
  ∀ (s : State) (v : Word),
    memRead32 0x008#32 s = some (s.inLen, s) ∧ (∀ w, (commandStart w s).curN = s.inLen) ∧
    (s.phase = .idle → memWrite32 0x008#32 v s = some { s with inLen := v }) ∧
    (s.phase = .busy → memWrite32 0x008#32 v s = some s) ∧
    (s.params.inCap < s.inLen.toNat → ∀ w, (codecOf (decodeWord w)).isSome →
      ∃ t, engineTurn (commandStart w s) = .next t ∧ t.err = 3#4)

/-- R28: OUT_LEN ignores writes; a command start sets it to 0; a command that ends OK sets it to the length of its output, which
is what its codec function gives for its input, and any other leaves it 0; it reads 0 while a command runs. A codec command whose
input is within IN_CAP and whose codec function gives an output within OUT_CAP ends OK. -/
def Obligations.OutLenIsReadOnly : Prop :=
  State.reset.outLen = 0#32 ∧
  ∀ s : State, s.Inv →
    (∀ v, memWrite32 0x00C#32 v s = some s) ∧ memRead32 0x00C#32 s = some (s.outLen, s) ∧
    (∀ w, (commandStart w s).outLen = 0#32) ∧
    (s.phase = .busy → memRead32 0x00C#32 s = some (0#32, s)) ∧
    ∀ i, ∃ t, exec i s = .next t ∧ (∃ st r, CommandEnds t st r) ∧
      (t.err = 0#4 → ∃ f r, codecOf i = some f ∧ f (cmdInput s) = .ok r ∧ t.outLen.toNat = r.length) ∧
      (t.err ≠ 0#4 → t.outLen = 0#32) ∧
      ∀ f r, codecOf i = some f → s.curN.toNat ≤ s.params.inCap → f (cmdInput s) = .ok r → r.length ≤ s.params.outCap →
        t.err = 0#4 ∧ t.outLen.toNat = r.length

/-- R29: IRQ_EN keeps bit 0 alone, whether or not a command runs, and reads it back with the other bits 0. -/
def Obligations.IrqEnKeepsBitZero : Prop :=
  State.reset.irqEn = false ∧
  ∀ (s : State) (v : Word), ∃ t, memWrite32 0x010#32 v s = some t ∧ t = { s with irqEn := v.getLsbD 0 } ∧
    memRead32 0x010#32 t = some (v &&& 1#32, t)

/-- R30: the register-window offsets that hold no register read 0 and ignore writes, when aligned. -/
def Obligations.ReservedRegisterOffsets : Prop :=
  ∀ (s : State) (off : Word), 0x014 ≤ off.toNat → off.toNat ≤ 0xFFF → off.toNat % 4 = 0 →
    memRead32 off s = some (0#32, s) ∧ ∀ v, memWrite32 off v s = some s

/-- R34: the IRQ line is STATUS.DONE AND IRQ_EN.EN, as the host reads the two registers, in every state. -/
def Obligations.IrqLineFollowsRegisters : Prop :=
  ∀ s : State, irqLine s = ((readReg s .status).getLsbD 1 && (readReg s .irqEn).getLsbD 0)

/-! ### Host accesses (20_memory.md) -/

/-- R62: the three windows hold the registers, IN_BUF and OUT_BUF; every other offset answers BusError to every access. -/
def Obligations.WindowMapAndHoles : Prop :=
  ∀ s : State, s.params.wf →
    (∀ i, i < s.params.inCap → windowOf s.params (BitVec.ofNat 32 (0x40000000 + i)) = .inBuf i) ∧
    (∀ i, i < s.params.outCap → windowOf s.params (BitVec.ofNat 32 (0x80000000 + i)) = .outBuf i) ∧
    (∀ off : Word, off.toNat < 0x1000 → windowOf s.params off = .reg off.toNat) ∧
    (∀ off : Word, 0x1000 ≤ off.toNat →
      ¬ (0x40000000 ≤ off.toNat ∧ off.toNat < 0x40000000 + s.params.inCap) →
      ¬ (0x80000000 ≤ off.toNat ∧ off.toNat < 0x80000000 + s.params.outCap) →
      memRead8 off s = none ∧ memRead32 off s = none ∧ (∀ b, memWrite8 off b s = none) ∧ ∀ v, memWrite32 off v s = none)

/-- R63, R68: IN_BUF. A byte access is admitted everywhere in the window, a word access exactly at multiples of 4 with all four
bytes inside; a read gives the stored bytes, also while a command runs; a write stores its bytes and no others while no command
runs, and is ignored without an error while one runs. (A byte never written reads as the free value of log 2.) -/
def Obligations.InWindowAccesses : Prop :=
  ∀ (s : State) (i : Nat), s.params.wf → Memory.wf s.inBuf → i < s.params.inCap →
    memRead8 (BitVec.ofNat 32 (0x40000000 + i)) s = some (inByte s i, s) ∧
    ((memRead32 (BitVec.ofNat 32 (0x40000000 + i)) s).isSome ↔ i % 4 = 0 ∧ i + 3 < s.params.inCap) ∧
    (∀ v, (memWrite32 (BitVec.ofNat 32 (0x40000000 + i)) v s).isSome ↔ i % 4 = 0 ∧ i + 3 < s.params.inCap) ∧
    (s.phase = .busy → (∀ b, memWrite8 (BitVec.ofNat 32 (0x40000000 + i)) b s = some s) ∧
      ∀ v, i % 4 = 0 → i + 3 < s.params.inCap → memWrite32 (BitVec.ofNat 32 (0x40000000 + i)) v s = some s) ∧
    (s.phase = .idle → ∀ b, ∃ t, memWrite8 (BitVec.ofNat 32 (0x40000000 + i)) b s = some t ∧
      t = { s with inBuf := t.inBuf } ∧ Memory.wf t.inBuf ∧
      ∀ j, inByte t j = if j = i then b else inByte s j)

/-- R64: OUT_BUF. Reads are admitted as in IN_BUF and give the stored or free byte while no command runs and a draw while one
runs; every admitted write is ignored without an error, every other write is BusError. -/
def Obligations.OutWindowAccesses : Prop :=
  ∀ (s : State) (i : Nat), s.params.wf → i < s.params.outCap →
    (∃ t, memRead8 (BitVec.ofNat 32 (0x80000000 + i)) s = some (outByte s i, t)) ∧
    (s.phase = .idle → outByte s i = (cellGet s.outBuf i).getD (Config.freeOutByte s.outEpoch i)) ∧
    (s.phase = .busy → outByte s i = Config.freeBusyByte s.draws i) ∧
    ((memRead32 (BitVec.ofNat 32 (0x80000000 + i)) s).isSome ↔ i % 4 = 0 ∧ i + 3 < s.params.outCap) ∧
    (∀ b, memWrite8 (BitVec.ofNat 32 (0x80000000 + i)) b s = some s) ∧
    (∀ v, memWrite32 (BitVec.ofNat 32 (0x80000000 + i)) v s =
      if i % 4 = 0 ∧ i + 3 < s.params.outCap then some s else none)

/-- R65: the REG window admits word accesses at multiples of 4 and nothing else; an admitted access acts on the register there. -/
def Obligations.RegWindowAccesses : Prop :=
  ∀ (s : State) (off : Word), off.toNat < 0x1000 →
    memRead8 off s = none ∧ (∀ b, memWrite8 off b s = none) ∧
    (off.toNat % 4 = 0 → memRead32 off s = some (readReg s (regAt off.toNat), s) ∧
      ∀ v, memWrite32 off v s = some (writeReg s (regAt off.toNat) v)) ∧
    (off.toNat % 4 ≠ 0 → memRead32 off s = none ∧ ∀ v, memWrite32 off v s = none)

/-- R66: word accesses to the buffers move bytes in little-endian lane order: reads of both buffers, and writes of IN_BUF, which
store the four lanes and no other byte. -/
def Obligations.LittleEndianLanes : Prop :=
  ∀ (s : State) (a : Nat), s.params.wf → Memory.wf s.inBuf → a % 4 = 0 →
    (a + 3 < s.params.inCap → ∃ v, memRead32 (BitVec.ofNat 32 (0x40000000 + a)) s = some (v, s) ∧
      v.toNat = (inByte s a).toNat + (inByte s (a + 1)).toNat * 2 ^ 8 + (inByte s (a + 2)).toNat * 2 ^ 16 +
        (inByte s (a + 3)).toNat * 2 ^ 24) ∧
    (a + 3 < s.params.outCap → ∃ v t, memRead32 (BitVec.ofNat 32 (0x80000000 + a)) s = some (v, t) ∧
      v.toNat = (outByte s a).toNat + (outByte s (a + 1)).toNat * 2 ^ 8 + (outByte s (a + 2)).toNat * 2 ^ 16 +
        (outByte s (a + 3)).toNat * 2 ^ 24) ∧
    (a + 3 < s.params.inCap → s.phase = .idle → ∀ v : Word, ∃ t,
      memWrite32 (BitVec.ofNat 32 (0x40000000 + a)) v s = some t ∧ t = { s with inBuf := t.inBuf } ∧
      ∀ j, inByte t j =
        if j = a then v.extractLsb' 0 8 else if j = a + 1 then v.extractLsb' 8 8
        else if j = a + 2 then v.extractLsb' 16 8 else if j = a + 3 then v.extractLsb' 24 8 else inByte s j)

/-- R70: a host read has no side effect on the block: all it can change is the model's own count of draws, and only by a read of
OUT_BUF while a command runs. Repeated while no command runs, it gives the same value. -/
def Obligations.ReadsHaveNoSideEffect : Prop :=
  ∀ (s t : State) (off : Word),
    (∀ v, memRead32 off s = some (v, t) → t = { s with draws := t.draws } ∧
      ((∀ i, windowOf s.params off ≠ .outBuf i) → t = s) ∧
      (s.phase = .idle → t = s ∧ memRead32 off t = some (v, s))) ∧
    (∀ v, memRead8 off s = some (v, t) → t = { s with draws := t.draws } ∧
      ((∀ i, windowOf s.params off ≠ .outBuf i) → t = s) ∧
      (s.phase = .idle → t = s ∧ memRead8 off t = some (v, s)))

/-- R221: an access that no window admits is a fault of the host agent, for every host operation; an admitted one is none. -/
def Obligations.BusErrorExactlyWhenNotAdmitted : Prop :=
  ∀ (s : State) (op : HostOp) (rest : List HostOp),
    (opAdmitted s.params op = true ↔ ∃ t, hostStep op rest s = .next t) ∧
    (opAdmitted s.params op = false ↔ ∃ off, hostStep op rest s = .fault (.busError off))

/-! ### Commands: completion, result, frame (44_registry.md, 60_exceptions.md) -/

/-- UNSUP (R189): a word whose ALGO is 0x03 to 0xFF decodes to it, and it ends with UnsupportedAlgorithm and no output in every
state, IN_LEN above IN_CAP included: ERR = 1, DONE = 1, BUSY = 0, OUT_LEN = 0. The frame is R217's, but for the latched command,
which keeps its value by the model's choice (log 28). -/
def Obligations.UnsupportedAlgorithmCompletes : Prop :=
  (∀ w : Word, 3 ≤ (w.extractLsb' 0 8).toNat → ∃ a d, decodeWord w = .unsup a d) ∧
  ∀ (a : Byte) (d : Dir) (s : State), ∃ t, exec (.unsup a d) s = .next t ∧
    CommandEnds t .unsupportedAlgorithm [] ∧ statusWord t = 0x12#32 ∧ SameInput s t

/-- HUF.C (R119, R188): it completes in every state, with InputTooLarge, with OutputOverflow (the bit count or the frame does not
fit), or with OK and the frame of IN[0:CUR_N]: the counts of the input, the bit count, and the packed codes.
That the latched command keeps its value is the model's choice (log 28). -/
def Obligations.HufCompressCompletes : Prop :=
  ∀ s : State, s.params.wf →
    let input := cmdInput s
    let bits := encodeBits (buildCodes (buildTree (buildFreq input))) input
    let frame := (buildFreq input).flatMap putBe32 ++ putBe32 (BitVec.ofNat 32 bits.length) ++ pack bits
    ∃ t, exec .hufC s = .next t ∧ SameInput s t ∧
      if s.params.inCap < s.curN.toNat then CommandEnds t .inputTooLarge []
      else if 2 ^ 32 ≤ bits.length ∨ s.params.outCap < 1028 + (bits.length + 7) / 8 then CommandEnds t .outputOverflow []
      else CommandEnds t .ok frame

/-- HUF.D (R120, R188): it completes in every state, with the first status that applies, or with OK and the decoded bytes.
That the latched command keeps its value is the model's choice (log 28). -/
def Obligations.HufDecompressCompletes : Prop :=
  ∀ s : State, s.params.wf → ∃ t, exec .hufD s = .next t ∧ SameInput s t ∧
    (s.params.inCap < s.curN.toNat → CommandEnds t .inputTooLarge []) ∧
    (s.curN.toNat ≤ s.params.inCap → hufDecompress (cmdInput s) = .error .malformed → CommandEnds t .malformedPayload []) ∧
    (s.curN.toNat ≤ s.params.inCap → ∀ r, hufDecompress (cmdInput s) = .ok r →
      (s.params.outCap < r.length → CommandEnds t .outputOverflow []) ∧ (r.length ≤ s.params.outCap → CommandEnds t .ok r))

/-- RLE.C (R166, R188): it completes in every state, with the first status that applies, or with OK and the run records.
That the latched command keeps its value is the model's choice (log 28). -/
def Obligations.RleCompressCompletes : Prop :=
  ∀ s : State, s.params.wf → ∃ t, exec .rleC s = .next t ∧ SameInput s t ∧
    (s.params.inCap < s.curN.toNat → CommandEnds t .inputTooLarge []) ∧
    (s.curN.toNat ≤ s.params.inCap → s.params.outCap < (rleCompress (cmdInput s)).length → CommandEnds t .outputOverflow []) ∧
    (s.curN.toNat ≤ s.params.inCap → (rleCompress (cmdInput s)).length ≤ s.params.outCap →
      CommandEnds t .ok (rleCompress (cmdInput s)))

/-- RLE.D (R168, R188): it completes in every state, with the first status that applies, or with OK and the expanded bytes.
That the latched command keeps its value is the model's choice (log 28). -/
def Obligations.RleDecompressCompletes : Prop :=
  ∀ s : State, s.params.wf → ∃ t, exec .rleD s = .next t ∧ SameInput s t ∧
    (s.params.inCap < s.curN.toNat → CommandEnds t .inputTooLarge []) ∧
    (s.curN.toNat ≤ s.params.inCap → rleDecompress (cmdInput s) = .error .malformed → CommandEnds t .malformedPayload []) ∧
    (s.curN.toNat ≤ s.params.inCap → ∀ r, rleDecompress (cmdInput s) = .ok r →
      (s.params.outCap < r.length → CommandEnds t .outputOverflow []) ∧ (r.length ≤ s.params.outCap → CommandEnds t .ok r))

/-- LZ.C (R147, R188): it completes in every state, with the first status that applies, or with OK and the token records.
That the latched command keeps its value is the model's choice (log 28). -/
def Obligations.LzCompressCompletes : Prop :=
  ∀ s : State, s.params.wf → ∃ t, exec .lzC s = .next t ∧ SameInput s t ∧
    (s.params.inCap < s.curN.toNat → CommandEnds t .inputTooLarge []) ∧
    (s.curN.toNat ≤ s.params.inCap → s.params.outCap < (lzCompress (cmdInput s)).length → CommandEnds t .outputOverflow []) ∧
    (s.curN.toNat ≤ s.params.inCap → (lzCompress (cmdInput s)).length ≤ s.params.outCap →
      CommandEnds t .ok (lzCompress (cmdInput s)))

/-- LZ.D (R150, R188): it completes in every state, with the first status that applies, or with OK and the replayed bytes.
That the latched command keeps its value is the model's choice (log 28). -/
def Obligations.LzDecompressCompletes : Prop :=
  ∀ s : State, s.params.wf → ∃ t, exec .lzD s = .next t ∧ SameInput s t ∧
    (s.params.inCap < s.curN.toNat → CommandEnds t .inputTooLarge []) ∧
    (s.curN.toNat ≤ s.params.inCap → lzDecompress (cmdInput s) = .error .malformed → CommandEnds t .malformedPayload []) ∧
    (s.curN.toNat ≤ s.params.inCap → ∀ r, lzDecompress (cmdInput s) = .ok r →
      (s.params.outCap < r.length → CommandEnds t .outputOverflow []) ∧ (r.length ≤ s.params.outCap → CommandEnds t .ok r))

/-- R216, R211, R213, R214: the status is the first that applies of UnsupportedAlgorithm, InputTooLarge, MalformedPayload,
OutputOverflow; MalformedPayload is a decompress command's alone; and no other code is ever written (R210). -/
def Obligations.StatusPriority : Prop :=
  ∀ (i : Instr) (s : State), ∃ t, exec i s = .next t ∧ t.phase = .idle ∧ t.done = true ∧
    (codecOf i = none → t.err = 1#4) ∧
    (∀ f, codecOf i = some f →
      (s.params.inCap < s.curN.toNat → t.err = 3#4) ∧
      (s.curN.toNat ≤ s.params.inCap → f (cmdInput s) = .error .malformed → t.err = 2#4 ∧ dirOf i = .decompress) ∧
      (s.curN.toNat ≤ s.params.inCap → f (cmdInput s) = .error .bitCountOverflow → t.err = 4#4 ∧ i = .hufC) ∧
      (s.curN.toNat ≤ s.params.inCap → ∀ r, f (cmdInput s) = .ok r → s.params.outCap < r.length → t.err = 4#4) ∧
      (s.curN.toNat ≤ s.params.inCap → ∀ r, f (cmdInput s) = .ok r → r.length ≤ s.params.outCap → t.err = 0#4))

/-- R217, R35: the frame of all seven commands. Whatever the status, a command changes only what command end writes: every byte
of IN_BUF, IN_LEN, IRQ_EN and REG.CMD are unchanged, and so is the host. After an error, no byte of OUT_BUF is defined (each
reads as the free value of log 3). That the latched command is unchanged too is the model's choice: U6 lists it as unspecified
between commands (log 28). -/
def Obligations.CommandsChangeOnlyCommandEndState : Prop :=
  ∀ (i : Instr) (s t : State), exec i s = .next t → SameInput s t ∧ t.inEpoch = s.inEpoch ∧
    (t.err ≠ 0#4 → t.outLen = 0#32 ∧ ∀ k, outByte t k = Config.freeOutByte t.outEpoch k)

/-- R42, R196: the result of a command depends on the command, CUR_N, IN[0:CUR_N], IN_CAP and OUT_CAP alone: two states that agree
on those, whatever else they hold, end with equal status, OUT_LEN and defined OUT_BUF bytes. -/
def Obligations.CommandResultDependsOnInputAlone : Prop :=
  ∀ (i : Instr) (s s' t t' : State),
    s.params.inCap = s'.params.inCap → s.params.outCap = s'.params.outCap → s.curN = s'.curN →
    (∀ k, k < s.curN.toNat → inByte s k = inByte s' k) →
    exec i s = .next t → exec i s' = .next t' →
    t.err = t'.err ∧ t.outLen = t'.outLen ∧ t.outBuf = t'.outBuf ∧ ∀ k, k < t.outLen.toNat → outByte t k = outByte t' k

/-- R197, R121: an empty input. HUF.C ends OK with 1028 zero bytes, whose decoding is empty; RLE.C, LZ.C, RLE.D and LZ.D end OK
with no output; HUF.D ends with MalformedPayload. -/
def Obligations.EmptyInputIsNoError : Prop :=
  ∀ s : State, s.params.wf → s.curN = 0#32 →
    (∃ t, exec .hufC s = .next t ∧ CommandEnds t .ok (List.replicate 1028 0#8)) ∧
    (∀ i, i = .rleC ∨ i = .lzC ∨ i = .rleD ∨ i = .lzD → ∃ t, exec i s = .next t ∧ CommandEnds t .ok []) ∧
    (∃ t, exec .hufD s = .next t ∧ CommandEnds t .malformedPayload []) ∧
    hufCompress [] = .ok (List.replicate 1028 0#8) ∧ hufDecompress (List.replicate 1028 0#8) = .ok []

/-- R195: round trip at command level. A compress command that ends OK, its output copied into IN_BUF, IN_LEN set to its length,
and the decompress command of the same ALGO started: if it ends OK, its output is the first command's input; and it ends OK
whenever the output fits IN_BUF and the input fits OUT_BUF. -/
def Obligations.CommandRoundTrip : Prop :=
  ∀ (c d : Instr) (s t u : State),
    (c = .hufC ∧ d = .hufD ∨ c = .rleC ∧ d = .rleD ∨ c = .lzC ∧ d = .lzD) → s.params.wf → u.params = s.params →
    exec c s = .next t → t.err = 0#4 →
    u.curN = t.outLen → (∀ k, k < t.outLen.toNat → inByte u k = outByte t k) →
    ∃ v, exec d u = .next v ∧
      (v.err = 0#4 → v.outLen = s.curN ∧ ∀ k, k < s.curN.toNat → outByte v k = inByte s k) ∧
      (t.outLen.toNat ≤ s.params.inCap → s.curN.toNat ≤ s.params.outCap → v.err = 0#4)

/-! ### Whole-machine rules -/

/-- The invariant holds right after reset. (The parameters of the reset state are the model's choice, log 1.) -/
def Obligations.ResetMeetsInvariant : Prop := State.reset.Inv

/-- Every step keeps the invariant: parameters in bounds (R5), BUSY and DONE never both 1 (R26), ERR and OUT_LEN 0 while a command
runs (R26, R28), the latched operands fixed while it runs (R73), ERR never above 4 (R210), the buffers in canonical form and within
their capacities (R35, R36), and exactly the bytes below OUT_LEN defined (R193). -/
def Obligations.StepKeepsInvariant : Prop :=
  ∀ s t : State, s.Inv → step s = .next t → t.Inv

/-- A host program whose accesses are all admitted never faults, whatever the order of turns: from every state a step gives a next
state, with the same parameters, whose program's accesses are still all admitted; and every run of it is safe. -/
def Obligations.AdmittedProgramsNeverFault : Prop :=
  (∀ s : State, s.progAdmitted → ∃ t, step s = .next t ∧ t.params = s.params ∧ t.progAdmitted) ∧
  ∀ (s : State) (n : Nat), s.progAdmitted → SafeRun n s

/-- R33: DONE changes only at a command start, a command end, a write of 1 to STATUS bit 1, or reset. -/
def Obligations.OnlyFourEventsChangeDone : Prop :=
  ∀ s t : State, step s = .next t → t.done ≠ s.done →
    nextTurn s = .reset ∨ (nextTurn s = .engine ∧ s.phase = .busy) ∨
    (nextTurn s = .host ∧ ∃ off v rest, s.prog = .wr32 off v :: rest ∧
      ((off = 0x000#32 ∧ s.phase = .idle) ∨ (off = 0x004#32 ∧ (hostVal s v).getLsbD 1 = true)))

/-- R73, R236: while a command runs, no turn but reset changes its input: a step from a busy state leaves every byte of IN_BUF,
IN_LEN and the latched command as they are. (Of the step that ends the command, the latched command's part is the model's choice,
log 28.) -/
def Obligations.InputFixedWhileBusy : Prop :=
  ∀ s t : State, s.phase = .busy → nextTurn s ≠ .reset → step s = .next t →
    (∀ i, inByte t i = inByte s i) ∧ t.inLen = s.inLen ∧ t.curAlgo = s.curAlgo ∧ t.curDir = s.curDir ∧ t.curN = s.curN ∧
    t.cmdAlgo = s.cmdAlgo ∧ t.cmdDir = s.cmdDir

/-- R194: while no command runs, OUT_LEN and OUT[0:OUT_LEN] stay as they are until the next accepted CMD write (after which the
engine is busy) or reset; clearing DONE does not change them. The same of ERR (R26, R33: nothing else writes it) and of the bytes
of OUT_BUF that are not defined output: that such a byte stays is the model's reading of R70, log 3 (DEDUCED). -/
def Obligations.OutputStaysUntilNextCommand : Prop :=
  ∀ s t : State, s.phase = .idle → step s = .next t →
    nextTurn s = .reset ∨ t.phase = .busy ∨
    (t.outLen = s.outLen ∧ t.err = s.err ∧ ∀ i, outByte t i = outByte s i)

/-- R191: a running command eventually ends: while no reset comes and the host's accesses are admitted, the command has ended, with
DONE = 1, after at most one step more than the schedule has turns. -/
def Obligations.RunningCommandEnds : Prop :=
  ∀ s : State, s.phase = .busy → (∀ t ∈ s.sched, t ≠ .reset) → s.progAdmitted →
    ∃ k t, k ≤ s.sched.length + 1 ∧ Host.Core.run Sys2Proof.core k s = .next t ∧ t.phase = .idle ∧ t.done = true

/-! ### Run-length codec (43_rle.md) -/

/-- R169: RLE round trip, and the record counts of a compressed input are 1 to 255 in a payload of even length, at most twice the
input. -/
def Obligations.RleRoundTrip : Prop :=
  ∀ s : List Byte, rleDecompress (rleCompress s) = .ok s ∧ (rleCompress s).length % 2 = 0 ∧
    (rleCompress s).length ≤ 2 * s.length ∧ ∀ r, 2 * r + 1 < (rleCompress s).length → byteAt (rleCompress s) (2 * r) ≠ 0#8

/-- R167: a maximal run of c bytes becomes floor(c/255) records [255, v] and then, when c mod 255 is not 0, one record
[c mod 255, v]; what follows the run is compressed on its own. -/
def Obligations.RleSplitsLongRuns : Prop :=
  ∀ (c : Nat) (v : Byte) (rest : List Byte), rest.head? ≠ some v →
    rleCompress (List.replicate c v ++ rest) =
      (List.replicate (c / 255) [255#8, v]).flatten ++ (if c % 255 = 0 then [] else [BitVec.ofNat 8 (c % 255), v]) ++
        rleCompress rest

/-- R168, R212 (E1, E2): RLE decompression fails exactly on an odd length or a record with count 0, and then as malformed. What it
gives otherwise, record by record, for every payload: nothing for the empty one, and for a record with a count that is not 0 that
many copies of the value, before what the rest gives. -/
def Obligations.RleMalformedExactly : Prop :=
  ∀ p : List Byte,
    (rleDecompress p = .error .malformed ↔ p.length % 2 = 1 ∨ ∃ r, 2 * r + 1 < p.length ∧ byteAt p (2 * r) = 0#8) ∧
    rleDecompress p ≠ .error .bitCountOverflow ∧ rleDecompress [] = .ok [] ∧
    ∀ c v : Byte, c ≠ 0#8 →
      (∀ out, rleDecompress p = .ok out → rleDecompress (c :: v :: p) = .ok (List.replicate c.toNat v ++ out)) ∧
      (rleDecompress p = .error .malformed → rleDecompress (c :: v :: p) = .error .malformed)

/-! ### LZ codec (42_lz.md) -/

/-- R152: LZ round trip for every input. -/
def Obligations.LzRoundTrip : Prop :=
  ∀ s : List Byte, lzDecompress (lzCompress s) = .ok s

/-- R143: the candidate length is the largest L ≤ maxlen for which the L bytes at pos - off and at pos agree. -/
def Obligations.LzCandidateLengthIsLargest : Prop :=
  ∀ (s : List Byte) (maxlen pos off : Nat), 1 ≤ off → off ≤ pos → pos + maxlen < s.length →
    matchLength s maxlen pos off ≤ maxlen ∧
    (∀ j, j < matchLength s maxlen pos off → byteAt s (pos - off + j) = byteAt s (pos + j)) ∧
    (matchLength s maxlen pos off < maxlen →
      byteAt s (pos - off + matchLength s maxlen pos off) ≠ byteAt s (pos + matchLength s maxlen pos off))

/-- R141, R142, R144 to R147, R88: at every position the encoder takes a candidate of the greatest length among offsets 1 to
min(WINDOW, pos), the smallest such offset, and (0, 0) when no candidate matches a byte; it writes the record of that offset
(big-endian) and length with the input byte after the match as literal, and goes on after that byte; LZ.C's output is the records
from position 0 on, to the end of the input. (`fuel` and `fuel'` are any bounds that are large enough.) -/
def Obligations.LzTakesNearestLongestMatch : Prop :=
  ∀ (s : List Byte) (pos : Nat), pos < s.length →
    let m := chooseMatch Config.window Config.minMatch s pos
    let len := fun off => matchLength s (min 255 (s.length - pos - 1)) pos off
    (∀ off, 1 ≤ off → off ≤ min 4096 pos → len off ≤ m.1) ∧
    (m.1 = 0 → m.2 = 0) ∧
    (0 < m.1 → 1 ≤ m.2 ∧ m.2 ≤ min 4096 pos ∧ len m.2 = m.1 ∧ ∀ off, 1 ≤ off → off < m.2 → len off < m.1) ∧
    let records := fun fuel p => (lzScan Config.window Config.minMatch s fuel p).flatMap tokenRecord
    (∀ fuel fuel', s.length ≤ fuel + pos → s.length ≤ fuel' + (pos + m.1 + 1) →
      records fuel pos = [BitVec.ofNat 8 (m.2 / 256), BitVec.ofNat 8 m.2, BitVec.ofNat 8 m.1, byteAt s (pos + m.1)] ++
        records fuel' (pos + m.1 + 1)) ∧
    (∀ fuel p, s.length ≤ p → records fuel p = []) ∧ lzCompress s = records s.length 0

/-- R89: every record the encoder writes is a pure literal (0, 0) or has 1 ≤ OFFSET ≤ 4096 and 1 ≤ LENGTH ≤ 255; R147: there are
between ⌈n/256⌉ and n records of 4 bytes. -/
def Obligations.LzTokensInRange : Prop :=
  ∀ s : List Byte, let ts := lzTokens Config.window Config.minMatch s
    (∀ t ∈ ts, (t.offset = 0#16 ∧ t.length = 0#8) ∨
      (1 ≤ t.offset.toNat ∧ t.offset.toNat ≤ 4096 ∧ 1 ≤ t.length.toNat ∧ t.length.toNat ≤ 255)) ∧
    ts.length ≤ s.length ∧ s.length ≤ 256 * ts.length ∧ (lzCompress s).length = 4 * ts.length

/-- R149: the copy appends L bytes one at a time: byte e + j of the result is its byte e - d + j, e being the length before. -/
def Obligations.LzCopyIsByteByByte : Prop :=
  ∀ (d n : Nat) (out : List Byte), 1 ≤ d → d ≤ out.length →
    ∃ x, copyBack d n out = out ++ x ∧ x.length = n ∧
      ∀ j, j < n → byteAt (out ++ x) (out.length + j) = byteAt (out ++ x) (out.length - d + j)

/-- R150, R151: LZ decompression, record by record. The empty payload gives the empty output; a length that is no multiple of 4 is
malformed; a further record appends its literal when its length is 0, whatever its offset; is malformed when its length is not 0
and its offset is 0 or greater than the output so far; and otherwise copies and appends its literal, the offset compared with no
window. A payload whose front part is malformed is malformed. -/
def Obligations.LzReplaysRecordByRecord : Prop :=
  lzDecompress [] = .ok [] ∧
  (∀ p : List Byte, p.length % 4 ≠ 0 → lzDecompress p = .error .malformed) ∧
  ∀ (q : List Byte) (o1 o0 len lit : Byte), q.length % 4 = 0 →
    (lzDecompress q = .error .malformed → lzDecompress (q ++ [o1, o0, len, lit]) = .error .malformed) ∧
    ∀ out, lzDecompress q = .ok out → lzDecompress (q ++ [o1, o0, len, lit]) =
      if len = 0#8 then .ok (out ++ [lit])
      else if o1.toNat * 256 + o0.toNat = 0 ∨ out.length < o1.toNat * 256 + o0.toNat then .error .malformed
      else .ok (copyBack (o1.toNat * 256 + o0.toNat) len.toNat out ++ [lit])

/-! ### Huffman codec (41_huffman.md) -/

/-- R100, R102, R105: a count is the number of occurrences of its byte value, and the counts sum to the input length, for every
input whose length fits 32 bits. -/
def Obligations.FreqCountsOccurrences : Prop :=
  ∀ s : List Byte, s.length < 2 ^ 32 →
    (∀ v : Byte, (freqAt (buildFreq s) v.toNat).toNat = s.count v) ∧ freqTotal (buildFreq s) = s.length ∧
    (buildFreq s).length = 256

/-- R108, R109: while a node is live there is a live node with the least pair (weight, arena index). The builder starts from the
leaves, all live; while two or more nodes are live it takes that node `a` off, then the least one `b` of those left, and makes a
live node with LEFT `a`, RIGHT `b` and the sum of their weights, the parent of both, which leaves the other nodes as they are and
changes no kind and no weight; with one live node left it stops, and that node is the root. -/
def Obligations.MergeTakesLeastWeightThenIndex : Prop :=
  (∀ (nodes : List Node) (live : List Nat),
    (live ≠ [] → ∃ a, lightest nodes live = some a) ∧
    (∀ a, lightest nodes live = some a → a ∈ live ∧ ∀ b ∈ live, b ≠ a →
      (nodeAt nodes a).weight.toNat < (nodeAt nodes b).weight.toNat ∨
      ((nodeAt nodes a).weight.toNat = (nodeAt nodes b).weight.toNat ∧ a < b)) ∧
    (∀ fuel a b, lightest nodes live = some a → lightest nodes (live.erase a) = some b →
      mergeLoop (fuel + 1) nodes live =
        mergeLoop fuel (mergeNodes nodes a b) ((live.erase a).erase b ++ [nodes.length])) ∧
    (∀ fuel, live.length ≤ 1 → mergeLoop fuel nodes live = (nodes, live)) ∧
    ∀ a b, a < nodes.length → b < nodes.length →
      (mergeNodes nodes a b).length = nodes.length + 1 ∧
      nodeAt (mergeNodes nodes a b) nodes.length =
        { weight := (nodeAt nodes a).weight + (nodeAt nodes b).weight, kind := .inner a b, parent := none } ∧
      (nodeAt (mergeNodes nodes a b) a).parent = some nodes.length ∧
      (nodeAt (mergeNodes nodes a b) b).parent = some nodes.length ∧
      ∀ i, i < nodes.length → (nodeAt (mergeNodes nodes a b) i).kind = (nodeAt nodes i).kind ∧
        (nodeAt (mergeNodes nodes a b) i).weight = (nodeAt nodes i).weight ∧
        (i ≠ a → i ≠ b → nodeAt (mergeNodes nodes a b) i = nodeAt nodes i)) ∧
  ∀ freq : FreqTable, freq.length = 256 →
    let k := (leafNodes freq).length
    let t := buildTree freq
    mergeLoop k (leafNodes freq) (List.range k) = (t.nodes, t.live) ∧ t.root = t.live.head? ∧ t.live.length = min k 1

/-- R106, R107, R110: a table with k ≥ 1 nonzero counts gives a tree of 2k - 1 nodes with root 2k - 2, at most NODE_COUNT = 511;
its first k nodes are the leaves of the present byte values in ascending order with their counts as weights; every later node has
two children of smaller index and the exact sum of their weights, which stays below 2^40. -/
def Obligations.TreeShapeAndWeights : Prop :=
  ∀ freq : FreqTable, freq.length = 256 →
    let present := (List.range 256).filter fun v => freqAt freq v ≠ 0#32
    let k := present.length
    let t := buildTree freq
    (k = 0 → t.root = none) ∧
    (1 ≤ k → t.nodes.length = 2 * k - 1 ∧ t.root = some (2 * k - 2) ∧ t.nodes.length ≤ 511 ∧
      (∀ j (h : j < k), (nodeAt t.nodes j).kind = .leaf (BitVec.ofNat 8 present[j]) ∧
        (nodeAt t.nodes j).weight.toNat = (freqAt freq present[j]).toNat) ∧
      ∀ j, k ≤ j → j < 2 * k - 1 → ∃ a b, (nodeAt t.nodes j).kind = .inner a b ∧ a < j ∧ b < j ∧ a ≠ b ∧
        (nodeAt t.nodes j).weight.toNat = (nodeAt t.nodes a).weight.toNat + (nodeAt t.nodes b).weight.toNat ∧
        (nodeAt t.nodes j).weight.toNat < 2 ^ 40)

/-- R112, R113: the code of a present byte value is the path to its leaf from the root, a bit 0 going LEFT and a bit 1 going RIGHT,
of 1 to max(1, k - 1) bits (the one-symbol code is "0"), and decodes to that byte value alone;
an absent byte value has none; and no code is a prefix of another. -/
def Obligations.CodesArePathsAndPrefixFree : Prop :=
  ∀ freq : FreqTable, freq.length = 256 →
    let k := ((List.range 256).filter fun v => freqAt freq v ≠ 0#32).length
    let t := buildTree freq
    let code := codeOf (buildCodes t)
    (∀ v, freqAt freq v.toNat = 0#32 → code v = []) ∧
    (∀ v, freqAt freq v.toNat ≠ 0#32 → 1 ≤ (code v).length ∧ (code v).length ≤ max 1 (k - 1) ∧
      decodeBitString t (code v) = .ok [v]) ∧
    (k = 1 → ∀ v, freqAt freq v.toNat ≠ 0#32 → code v = [false]) ∧
    (2 ≤ k → ∀ v, freqAt freq v.toNat ≠ 0#32 → ∃ root, t.root = some root ∧
      (nodeAt t.nodes ((code v).foldl (fun i b => if b then rightOf (nodeAt t.nodes i) else leftOf (nodeAt t.nodes i)) root)).kind =
        .leaf v) ∧
    (∀ u v, freqAt freq u.toNat ≠ 0#32 → freqAt freq v.toNat ≠ 0#32 → u ≠ v → ¬ code u <+: code v)

/-- R115, R116: bit j of the sequence is at bit position 7 - (j mod 8) of packed byte floor(j/8), there are ⌈nb/8⌉ bytes, the
unused low bits of the last are 0; unpacking reads bit j there, and gives packed bits back whatever bytes follow. -/
def Obligations.PackPlacesBitsMsbFirst : Prop :=
  ∀ bits : Bits, (pack bits).length = (bits.length + 7) / 8 ∧
    (∀ j, j < 8 * (pack bits).length →
      (byteAt (pack bits) (j / 8)).getLsbD (7 - j % 8) = if h : j < bits.length then bits[j] else false) ∧
    (∀ (b : List Byte) (nb : Nat), (unpack b nb).length = nb ∧
      ∀ j, j < nb → bitAt (unpack b nb) j = (byteAt b (j / 8)).getLsbD (7 - j % 8)) ∧
    ∀ rest, unpack (pack bits ++ rest) bits.length = bits

/-- R67, R84, R85, R87, R117, R119: a frame HufCompress gives is 1028 + ⌈NBITS/8⌉ bytes: the counts and NBITS, four bytes each and
big-endian, and then the packed codes of the input bytes; NBITS is the sum of count times code length, and HufCompress fails exactly
when that sum is above 2^32 - 1. -/
def Obligations.HufFrameLayout : Prop :=
  ∀ s : List Byte, s.length < 2 ^ 32 →
    let code := buildCodes (buildTree (buildFreq s))
    let nbits := ((List.range 256).map fun v =>
      (freqAt (buildFreq s) v).toNat * (codeOf code (BitVec.ofNat 8 v)).length).sum
    (2 ^ 32 ≤ nbits → hufCompress s = .error .bitCountOverflow) ∧
    (nbits < 2 ^ 32 → ∃ r, hufCompress s = .ok r ∧ r.length = 1028 + (nbits + 7) / 8 ∧
      (∀ v, v < 256 → be32 r (4 * v) = freqAt (buildFreq s) v) ∧ (be32 r 1024).toNat = nbits ∧
      r.drop 1028 = pack (encodeBits code s)) ∧
    ∀ (b : List Byte) (i : Nat), (be32 b i).toNat =
      (byteAt b i).toNat * 2 ^ 24 + (byteAt b (i + 1)).toNat * 2 ^ 16 + (byteAt b (i + 2)).toNat * 2 ^ 8 + (byteAt b (i + 3)).toNat

/-- R124: Huffman round trip, for every input that HufCompress does not fail on (of a length that fits 32 bits, R105). -/
def Obligations.HufRoundTrip : Prop :=
  ∀ s r : List Byte, s.length < 2 ^ 32 → hufCompress s = .ok r → hufDecompress r = .ok s

/-- R120 (M1 to M4, M6), R123: a payload shorter than 1028 bytes, with fewer code bits than NBITS, with bits for an empty table,
with a bit 1 for a one-value table, is malformed; whatever decodes has as many bytes as the counts say; and bytes after the code
bytes change nothing. -/
def Obligations.HufDecoderChecks : Prop :=
  ∀ p : List Byte,
    (p.length < 1028 → hufDecompress p = .error .malformed) ∧
    (8 * (p.length - 1028) < (be32 p 1024).toNat → hufDecompress p = .error .malformed) ∧
    ((∀ v, v < 256 → be32 p (4 * v) = 0#32) → be32 p 1024 ≠ 0#32 → hufDecompress p = .error .malformed) ∧
    ((∃ v, v < 256 ∧ be32 p (4 * v) ≠ 0#32 ∧ ∀ u, u < 256 → u ≠ v → be32 p (4 * u) = 0#32) →
      (∃ j, j < (be32 p 1024).toNat ∧ (byteAt p (1028 + j / 8)).getLsbD (7 - j % 8) = true) →
      hufDecompress p = .error .malformed) ∧
    (∀ out, hufDecompress p = .ok out → out.length = ((List.range 256).map fun v => (be32 p (4 * v)).toNat).sum) ∧
    (∀ extra, 1028 ≤ p.length → (be32 p 1024).toNat ≤ 8 * (p.length - 1028) → hufDecompress (p ++ extra) = hufDecompress p)

/-- R118, R120 (M3 to M6): a payload with enough code bytes, whatever its counts, decodes to `out` exactly when its first
NBITS bits are the codes of the bytes of `out`, each a byte value with a nonzero count, and `out` has as many bytes as the counts
say; every other such payload is malformed. The counts are the payload's first 256 four-byte entries. -/
def Obligations.HufDecodesExactlyCodeSequences : Prop :=
  ∀ p : List Byte, 1028 ≤ p.length → (be32 p 1024).toNat ≤ 8 * (p.length - 1028) →
    let bits := unpack (p.drop 1028) (be32 p 1024).toNat
    let code := buildCodes (buildTree (deserFreq p))
    (∀ v, v < 256 → freqAt (deserFreq p) v = be32 p (4 * v)) ∧
    (∀ out, hufDecompress p = .ok out ↔
      (∀ v ∈ out, be32 p (4 * v.toNat) ≠ 0#32) ∧ encodeBits code out = bits ∧
        out.length = ((List.range 256).map fun v => (be32 p (4 * v)).toNat).sum) ∧
    ((¬ ∃ out, hufDecompress p = .ok out) → hufDecompress p = .error .malformed)
end

