-- ==== Sys2Proof/Laws/Cells.lean ====
section
/-! SUPPORT. Lists of (key, value) pairs: what a read after a write gives, and that writes keep the canonical form. -/

namespace Sys2Proof.Machine

variable {α : Type}

theorem cellGet_cellPut (m : List (Nat × α)) (a b : Nat) (x : α) (hm : m.Pairwise fun p q => p.1 < q.1) :
    cellGet (cellPut m a x) b = if b = a then some x else cellGet m b := by
  induction m with
  | nil => simp only [cellPut, cellGet]; split <;> simp
  | cons c rest ih =>
    obtain ⟨k, v⟩ := c
    obtain ⟨hk, hrest⟩ := List.pairwise_cons.mp hm
    simp only [cellPut]
    split
    · rename_i hak
      simp only [cellGet]
      by_cases h1 : b = a
      · simp [h1]
      · by_cases h2 : b < a
        · have : b ≠ k := by omega
          have : b < k := by omega
          simp [*]
        · simp [h1, h2]
    · split
      · rename_i h1 h2
        subst h2
        simp only [cellGet]
        by_cases h3 : b = a
        · simp [h3]
        · simp [h3]
      · rename_i h1 h2
        simp only [cellGet, ih hrest]
        by_cases h3 : b = k
        · have : b ≠ a := by omega
          simp [h3]; omega
        · by_cases h4 : b < k
          · have : b ≠ a := by omega
            simp [h3, h4, this]
          · simp [h3, h4]

theorem cellPut_keys_mem (m : List (Nat × α)) (a : Nat) (x : α) (p : Nat × α) (hp : p ∈ cellPut m a x) :
    p = (a, x) ∨ p ∈ m := by
  induction m with
  | nil => simpa [cellPut] using hp
  | cons c rest ih =>
    obtain ⟨k, v⟩ := c
    simp only [cellPut] at hp
    split at hp
    · simpa using hp
    · split at hp
      · rcases List.mem_cons.mp hp with h | h
        · exact .inl h
        · exact .inr (List.mem_cons_of_mem _ h)
      · rcases List.mem_cons.mp hp with h | h
        · exact .inr (h ▸ List.mem_cons_self)
        · exact (ih h).imp id (List.mem_cons_of_mem _)

theorem cellPut_pairwise (m : List (Nat × α)) (a : Nat) (x : α) (hm : m.Pairwise fun p q => p.1 < q.1) :
    (cellPut m a x).Pairwise fun p q => p.1 < q.1 := by
  induction m with
  | nil => simp [cellPut]
  | cons c rest ih =>
    obtain ⟨k, v⟩ := c
    obtain ⟨hk, hrest⟩ := List.pairwise_cons.mp hm
    simp only [cellPut]
    split
    · rename_i hak
      refine List.pairwise_cons.mpr ⟨?_, hm⟩
      intro p hp
      rcases List.mem_cons.mp hp with h | h
      · simpa [h] using hak
      · exact lt_trans hak (hk p h)
    · split
      · rename_i h1 h2
        subst h2
        exact List.pairwise_cons.mpr ⟨hk, hrest⟩
      · rename_i h1 h2
        refine List.pairwise_cons.mpr ⟨?_, ih hrest⟩
        intro p hp
        rcases cellPut_keys_mem rest a x p hp with h | h
        · subst h; simp; omega
        · exact hk p h

/-- Writing a byte keeps a buffer in canonical form. -/
theorem Memory.wf_cellPut (m : Memory) (i : Nat) (b : Byte) (hm : Memory.wf m) : Memory.wf (cellPut m i b) :=
  cellPut_pairwise m i b hm

/-- The buffers right after reset are in canonical form: nothing is listed. -/
theorem reset_buffers_wf : Memory.wf State.reset.inBuf ∧ Memory.wf State.reset.outBuf := by decide

/-- A host write of a byte keeps IN_BUF in canonical form. -/
theorem putInByte_wf (s : State) (i : Nat) (b : Byte) (hm : Memory.wf s.inBuf) : Memory.wf (putInByte s i b).inBuf := by
  unfold putInByte
  split
  · exact Memory.wf_cellPut _ _ _ hm
  · exact hm

/-- A host write of a word keeps IN_BUF in canonical form. -/
theorem putInWord_wf (s : State) (i : Nat) (v : Word) (hm : Memory.wf s.inBuf) : Memory.wf (putInWord s i v).inBuf :=
  putInByte_wf _ _ _ (putInByte_wf _ _ _ (putInByte_wf _ _ _ (putInByte_wf _ _ _ hm)))

theorem cellsFrom_keys (k : Nat) (r : List Byte) : (cellsFrom k r).map (·.1) = List.range' k r.length := by
  induction r generalizing k with
  | nil => rfl
  | cons b rest ih => simp [cellsFrom, ih, List.range'_succ]

theorem cellsFrom_zero_keys (r : List Byte) : (cellsFrom 0 r).map (·.1) = List.range r.length := by
  rw [cellsFrom_keys, List.range_eq_range']

theorem wf_of_keys (m : Memory) (n : Nat) (h : m.map (·.1) = List.range n) : Memory.wf m := by
  have : (m.map (·.1)).Pairwise (· < ·) := h ▸ List.pairwise_lt_range
  exact List.pairwise_map.mp this

/-- The output bytes written at command end form a canonical buffer. -/
theorem Memory.wf_cellsFrom (r : List Byte) : Memory.wf (cellsFrom 0 r) :=
  wf_of_keys _ _ (cellsFrom_zero_keys r)

theorem cellGet_cellsFrom (k : Nat) (r : List Byte) (i : Nat) :
    cellGet (cellsFrom k r) i = if k ≤ i then r[i - k]? else none := by
  induction r generalizing k with
  | nil => simp [cellsFrom, cellGet]
  | cons b rest ih =>
    simp only [cellsFrom, cellGet, ih]
    by_cases h1 : i = k
    · simp [h1]
    · by_cases h2 : i < k
      · have : ¬ k ≤ i := by omega
        simp [h1, h2, this]
      · have h3 : k ≤ i := by omega
        have h4 : i - k = (i - (k + 1)) + 1 := by omega
        have h5 : k + 1 ≤ i := by omega
        simp [h1, h2, h3, h4, h5]

/-- What a byte of the output reads as after command end. -/
theorem cellGet_cellsFrom_zero (r : List Byte) (i : Nat) : cellGet (cellsFrom 0 r) i = r[i]? := by
  simp [cellGet_cellsFrom]

theorem cellGet_eq_none_of_keys (m : Memory) (n i : Nat) (h : m.map (·.1) = List.range n) (hi : n ≤ i) :
    cellGet m i = none := by
  have hlt : ∀ p ∈ m, p.1 < i := by
    intro p hp
    have : p.1 ∈ m.map (·.1) := List.mem_map_of_mem hp
    rw [h, List.mem_range] at this
    omega
  clear h hi
  induction m with
  | nil => rfl
  | cons c rest ih =>
    obtain ⟨k, v⟩ := c
    have h1 : k < i := hlt (k, v) List.mem_cons_self
    have h2 : ¬ i = k := by omega
    have h3 : ¬ i < k := by omega
    simp only [cellGet, if_neg h2, if_neg h3]
    exact ih fun p hp => hlt p (List.mem_cons_of_mem _ hp)

end Sys2Proof.Machine
end

