-- ==== Sys2Proof/Laws/Decode.lean ====
section
/-! SUPPORT. Command words and their fields: what decoding an assembled word gives, and what assembling decoded fields gives. -/

namespace Sys2Proof

/-- The bits of an assembled command word (R77): ALGO, then DIR, then zeros. -/
theorem cmdWord_bit (a : Byte) (d : Dir) (i : Nat) :
    (cmdWord a d).getLsbD i = if i < 8 then a.getLsbD i else if i = 8 then decide (d = .decompress) else false := by
  show (0#23 ++ dirBit d ++ a : BitVec (23 + 1 + 8)).getLsbD i = _
  rw [BitVec.getLsbD_append, BitVec.getLsbD_append]
  by_cases h1 : i < 8
  · simp [h1]
  · by_cases h2 : i = 8
    · subst h2; cases d <;> simp [dirBit]
    · have h3 : ¬ i - 8 < 1 := by omega
      simp only [h1, h2, h3, if_false, BitVec.getLsbD_zero]

/-- ALGO of an assembled command word. -/
theorem cmdAlgoOf_cmdWord (a : Byte) (d : Dir) : cmdAlgoOf (cmdWord a d) = a := by
  apply BitVec.eq_of_getLsbD_eq
  intro i hi
  rw [cmdAlgoOf, BitVec.getLsbD_extractLsb', Nat.zero_add, cmdWord_bit, if_pos hi]
  simp [hi]

/-- DIR as the host writes it: bit 8 of the word (R79). -/
theorem cmdDirOf_eq (w : Word) : cmdDirOf w = if w.getLsbD 8 then .decompress else .compress := by
  have h : w.extractLsb' 8 1 = BitVec.ofBool (w.getLsbD 8) := by
    apply BitVec.eq_of_getLsbD_eq
    intro i hi
    obtain rfl : i = 0 := by omega
    simp
  rw [cmdDirOf, h]
  cases w.getLsbD 8 <;> rfl

/-- DIR of an assembled command word. -/
theorem cmdDirOf_cmdWord (a : Byte) (d : Dir) : cmdDirOf (cmdWord a d) = d := by
  rw [cmdDirOf_eq, cmdWord_bit]
  cases d <;> simp

/-- Assembling the fields of a word gives its low nine bits. -/
theorem cmdWord_fields (w : Word) : cmdWord (cmdAlgoOf w) (cmdDirOf w) = w &&& 0x1FF#32 := by
  apply BitVec.eq_of_getLsbD_eq
  intro i hi
  have hm : ∀ i, i < 32 → (0x1FF#32).getLsbD i = decide (i < 9) := by decide
  rw [BitVec.getLsbD_and, hm i hi, cmdWord_bit, cmdDirOf_eq, cmdAlgoOf, BitVec.getLsbD_extractLsb', Nat.zero_add]
  by_cases h1 : i < 8
  · have h2 : i < 9 := by omega
    simp [h1, h2]
  · by_cases h2 : i = 8
    · subst h2; cases w.getLsbD 8 <;> simp
    · have h3 : ¬ i < 9 := by omega
      simp [h1, h2, h3]

/-- The registry gives back the command whose fields it is asked for (R181). -/
theorem resolve_fields (i : Instr) (h : i.wf = true) : resolve (algoOf i) (dirOf i) = i := by
  cases i with
  | unsup a d =>
    simp only [Instr.wf, decide_eq_true_eq] at h
    have : ∀ b : Byte, b.toNat < 3 → a ≠ b := fun b hb e => by subst e; omega
    simp [resolve, algoOf, dirOf, this 0#8 (by decide), this 1#8 (by decide), this 2#8 (by decide)]
  | _ => rfl

/-- The command the registry gives has the fields it was asked for, and is well formed (R181). -/
theorem fields_resolve (a : Byte) (d : Dir) :
    algoOf (resolve a d) = a ∧ dirOf (resolve a d) = d ∧ (resolve a d).wf = true := by
  unfold resolve
  split
  · subst_vars; cases d <;> simp [algoOf, dirOf, Instr.wf]
  · split
    · subst_vars; cases d <;> simp [algoOf, dirOf, Instr.wf]
    · split
      · subst_vars; cases d <;> simp [algoOf, dirOf, Instr.wf]
      · rename_i h0 h1 h2
        refine ⟨rfl, rfl, ?_⟩
        simp only [Instr.wf, decide_eq_true_eq]
        by_contra hc
        have : a.toNat = 0 ∨ a.toNat = 1 ∨ a.toNat = 2 := by omega
        rcases this with h | h | h
        · exact h0 (BitVec.eq_of_toNat_eq h)
        · exact h1 (BitVec.eq_of_toNat_eq h)
        · exact h2 (BitVec.eq_of_toNat_eq h)

end Sys2Proof
end

