-- ==== Sys2Proof/Laws/State.lean ====
section
/-! SUPPORT. What each update of State does to each field: one lemma per field per update, so that no proof unfolds a record
update. -/

namespace Sys2Proof.Machine

/-! ### commandStart -/

@[simp] theorem commandStart_params (w : Word) (s : State) : (commandStart w s).params = s.params := rfl
@[simp] theorem commandStart_cmdAlgo (w : Word) (s : State) : (commandStart w s).cmdAlgo = cmdAlgoOf w := rfl
@[simp] theorem commandStart_cmdDir (w : Word) (s : State) : (commandStart w s).cmdDir = cmdDirOf w := rfl
@[simp] theorem commandStart_phase (w : Word) (s : State) : (commandStart w s).phase = .busy := rfl
@[simp] theorem commandStart_done (w : Word) (s : State) : (commandStart w s).done = false := rfl
@[simp] theorem commandStart_err (w : Word) (s : State) : (commandStart w s).err = 0#4 := rfl
@[simp] theorem commandStart_inLen (w : Word) (s : State) : (commandStart w s).inLen = s.inLen := rfl
@[simp] theorem commandStart_outLen (w : Word) (s : State) : (commandStart w s).outLen = 0#32 := rfl
@[simp] theorem commandStart_irqEn (w : Word) (s : State) : (commandStart w s).irqEn = s.irqEn := rfl
@[simp] theorem commandStart_curAlgo (w : Word) (s : State) : (commandStart w s).curAlgo = cmdAlgoOf w := rfl
@[simp] theorem commandStart_curDir (w : Word) (s : State) : (commandStart w s).curDir = cmdDirOf w := rfl
@[simp] theorem commandStart_curN (w : Word) (s : State) : (commandStart w s).curN = s.inLen := rfl
@[simp] theorem commandStart_inBuf (w : Word) (s : State) : (commandStart w s).inBuf = s.inBuf := rfl
@[simp] theorem commandStart_outBuf (w : Word) (s : State) : (commandStart w s).outBuf = [] := rfl
@[simp] theorem commandStart_work (w : Word) (s : State) : (commandStart w s).work = s.work := rfl
@[simp] theorem commandStart_inEpoch (w : Word) (s : State) : (commandStart w s).inEpoch = s.inEpoch := rfl
@[simp] theorem commandStart_outEpoch (w : Word) (s : State) : (commandStart w s).outEpoch = s.outEpoch + 1 := rfl
@[simp] theorem commandStart_draws (w : Word) (s : State) : (commandStart w s).draws = s.draws := rfl
@[simp] theorem commandStart_prog (w : Word) (s : State) : (commandStart w s).prog = s.prog := rfl
@[simp] theorem commandStart_vars (w : Word) (s : State) : (commandStart w s).vars = s.vars := rfl
@[simp] theorem commandStart_sched (w : Word) (s : State) : (commandStart w s).sched = s.sched := rfl

/-! ### complete -/

@[simp] theorem complete_params (st : Status) (r : List Byte) (s : State) : (complete st r s).params = s.params := rfl
@[simp] theorem complete_cmdAlgo (st : Status) (r : List Byte) (s : State) : (complete st r s).cmdAlgo = s.cmdAlgo := rfl
@[simp] theorem complete_cmdDir (st : Status) (r : List Byte) (s : State) : (complete st r s).cmdDir = s.cmdDir := rfl
@[simp] theorem complete_phase (st : Status) (r : List Byte) (s : State) : (complete st r s).phase = .idle := rfl
@[simp] theorem complete_done (st : Status) (r : List Byte) (s : State) : (complete st r s).done = true := rfl
@[simp] theorem complete_err (st : Status) (r : List Byte) (s : State) : (complete st r s).err = statusCode st := rfl
@[simp] theorem complete_inLen (st : Status) (r : List Byte) (s : State) : (complete st r s).inLen = s.inLen := rfl
@[simp] theorem complete_outLen (st : Status) (r : List Byte) (s : State) : (complete st r s).outLen = if st = .ok then BitVec.ofNat 32 r.length else 0#32 := rfl
@[simp] theorem complete_irqEn (st : Status) (r : List Byte) (s : State) : (complete st r s).irqEn = s.irqEn := rfl
@[simp] theorem complete_curAlgo (st : Status) (r : List Byte) (s : State) : (complete st r s).curAlgo = s.curAlgo := rfl
@[simp] theorem complete_curDir (st : Status) (r : List Byte) (s : State) : (complete st r s).curDir = s.curDir := rfl
@[simp] theorem complete_curN (st : Status) (r : List Byte) (s : State) : (complete st r s).curN = s.curN := rfl
@[simp] theorem complete_inBuf (st : Status) (r : List Byte) (s : State) : (complete st r s).inBuf = s.inBuf := rfl
@[simp] theorem complete_outBuf (st : Status) (r : List Byte) (s : State) : (complete st r s).outBuf = if st = .ok then cellsFrom 0 r else [] := rfl
@[simp] theorem complete_work (st : Status) (r : List Byte) (s : State) : (complete st r s).work = Config.freeWork (s.outEpoch + 1) := rfl
@[simp] theorem complete_inEpoch (st : Status) (r : List Byte) (s : State) : (complete st r s).inEpoch = s.inEpoch := rfl
@[simp] theorem complete_outEpoch (st : Status) (r : List Byte) (s : State) : (complete st r s).outEpoch = s.outEpoch + 1 := rfl
@[simp] theorem complete_draws (st : Status) (r : List Byte) (s : State) : (complete st r s).draws = s.draws := rfl
@[simp] theorem complete_prog (st : Status) (r : List Byte) (s : State) : (complete st r s).prog = s.prog := rfl
@[simp] theorem complete_vars (st : Status) (r : List Byte) (s : State) : (complete st r s).vars = s.vars := rfl
@[simp] theorem complete_sched (st : Status) (r : List Byte) (s : State) : (complete st r s).sched = s.sched := rfl

/-! ### resetBlock -/

@[simp] theorem resetBlock_params (s : State) : (resetBlock s).params = s.params := rfl
@[simp] theorem resetBlock_cmdAlgo (s : State) : (resetBlock s).cmdAlgo = 0x00#8 := rfl
@[simp] theorem resetBlock_cmdDir (s : State) : (resetBlock s).cmdDir = .compress := rfl
@[simp] theorem resetBlock_phase (s : State) : (resetBlock s).phase = .idle := rfl
@[simp] theorem resetBlock_done (s : State) : (resetBlock s).done = false := rfl
@[simp] theorem resetBlock_err (s : State) : (resetBlock s).err = 0#4 := rfl
@[simp] theorem resetBlock_inLen (s : State) : (resetBlock s).inLen = 0#32 := rfl
@[simp] theorem resetBlock_outLen (s : State) : (resetBlock s).outLen = 0#32 := rfl
@[simp] theorem resetBlock_irqEn (s : State) : (resetBlock s).irqEn = false := rfl
@[simp] theorem resetBlock_curAlgo (s : State) : (resetBlock s).curAlgo = 0x00#8 := rfl
@[simp] theorem resetBlock_curDir (s : State) : (resetBlock s).curDir = .compress := rfl
@[simp] theorem resetBlock_curN (s : State) : (resetBlock s).curN = 0#32 := rfl
@[simp] theorem resetBlock_inBuf (s : State) : (resetBlock s).inBuf = [] := rfl
@[simp] theorem resetBlock_outBuf (s : State) : (resetBlock s).outBuf = [] := rfl
@[simp] theorem resetBlock_work (s : State) : (resetBlock s).work = Config.freeWork (s.outEpoch + 1) := rfl
@[simp] theorem resetBlock_inEpoch (s : State) : (resetBlock s).inEpoch = s.inEpoch + 1 := rfl
@[simp] theorem resetBlock_outEpoch (s : State) : (resetBlock s).outEpoch = s.outEpoch + 1 := rfl
@[simp] theorem resetBlock_draws (s : State) : (resetBlock s).draws = s.draws := rfl
@[simp] theorem resetBlock_prog (s : State) : (resetBlock s).prog = s.prog := rfl
@[simp] theorem resetBlock_vars (s : State) : (resetBlock s).vars = s.vars := rfl
@[simp] theorem resetBlock_sched (s : State) : (resetBlock s).sched = s.sched := rfl

/-! ### afterSched -/

@[simp] theorem afterSched_params (s : State) : (afterSched s).params = s.params := rfl
@[simp] theorem afterSched_cmdAlgo (s : State) : (afterSched s).cmdAlgo = s.cmdAlgo := rfl
@[simp] theorem afterSched_cmdDir (s : State) : (afterSched s).cmdDir = s.cmdDir := rfl
@[simp] theorem afterSched_phase (s : State) : (afterSched s).phase = s.phase := rfl
@[simp] theorem afterSched_done (s : State) : (afterSched s).done = s.done := rfl
@[simp] theorem afterSched_err (s : State) : (afterSched s).err = s.err := rfl
@[simp] theorem afterSched_inLen (s : State) : (afterSched s).inLen = s.inLen := rfl
@[simp] theorem afterSched_outLen (s : State) : (afterSched s).outLen = s.outLen := rfl
@[simp] theorem afterSched_irqEn (s : State) : (afterSched s).irqEn = s.irqEn := rfl
@[simp] theorem afterSched_curAlgo (s : State) : (afterSched s).curAlgo = s.curAlgo := rfl
@[simp] theorem afterSched_curDir (s : State) : (afterSched s).curDir = s.curDir := rfl
@[simp] theorem afterSched_curN (s : State) : (afterSched s).curN = s.curN := rfl
@[simp] theorem afterSched_inBuf (s : State) : (afterSched s).inBuf = s.inBuf := rfl
@[simp] theorem afterSched_outBuf (s : State) : (afterSched s).outBuf = s.outBuf := rfl
@[simp] theorem afterSched_work (s : State) : (afterSched s).work = s.work := rfl
@[simp] theorem afterSched_inEpoch (s : State) : (afterSched s).inEpoch = s.inEpoch := rfl
@[simp] theorem afterSched_outEpoch (s : State) : (afterSched s).outEpoch = s.outEpoch := rfl
@[simp] theorem afterSched_draws (s : State) : (afterSched s).draws = s.draws := rfl
@[simp] theorem afterSched_prog (s : State) : (afterSched s).prog = s.prog := rfl
@[simp] theorem afterSched_vars (s : State) : (afterSched s).vars = s.vars := rfl
@[simp] theorem afterSched_sched (s : State) : (afterSched s).sched = s.sched.tail := rfl

/-! ### putInByte and afterOutRead: the fields they leave alone -/

@[simp] theorem putInByte_params (s : State) (i : Nat) (b : Byte) : (putInByte s i b).params = s.params := by
  unfold putInByte; split <;> rfl
@[simp] theorem putInByte_cmdAlgo (s : State) (i : Nat) (b : Byte) : (putInByte s i b).cmdAlgo = s.cmdAlgo := by
  unfold putInByte; split <;> rfl
@[simp] theorem putInByte_cmdDir (s : State) (i : Nat) (b : Byte) : (putInByte s i b).cmdDir = s.cmdDir := by
  unfold putInByte; split <;> rfl
@[simp] theorem putInByte_phase (s : State) (i : Nat) (b : Byte) : (putInByte s i b).phase = s.phase := by
  unfold putInByte; split <;> rfl
@[simp] theorem putInByte_done (s : State) (i : Nat) (b : Byte) : (putInByte s i b).done = s.done := by
  unfold putInByte; split <;> rfl
@[simp] theorem putInByte_err (s : State) (i : Nat) (b : Byte) : (putInByte s i b).err = s.err := by
  unfold putInByte; split <;> rfl
@[simp] theorem putInByte_inLen (s : State) (i : Nat) (b : Byte) : (putInByte s i b).inLen = s.inLen := by
  unfold putInByte; split <;> rfl
@[simp] theorem putInByte_outLen (s : State) (i : Nat) (b : Byte) : (putInByte s i b).outLen = s.outLen := by
  unfold putInByte; split <;> rfl
@[simp] theorem putInByte_irqEn (s : State) (i : Nat) (b : Byte) : (putInByte s i b).irqEn = s.irqEn := by
  unfold putInByte; split <;> rfl
@[simp] theorem putInByte_curAlgo (s : State) (i : Nat) (b : Byte) : (putInByte s i b).curAlgo = s.curAlgo := by
  unfold putInByte; split <;> rfl
@[simp] theorem putInByte_curDir (s : State) (i : Nat) (b : Byte) : (putInByte s i b).curDir = s.curDir := by
  unfold putInByte; split <;> rfl
@[simp] theorem putInByte_curN (s : State) (i : Nat) (b : Byte) : (putInByte s i b).curN = s.curN := by
  unfold putInByte; split <;> rfl
@[simp] theorem putInByte_outBuf (s : State) (i : Nat) (b : Byte) : (putInByte s i b).outBuf = s.outBuf := by
  unfold putInByte; split <;> rfl
@[simp] theorem putInByte_work (s : State) (i : Nat) (b : Byte) : (putInByte s i b).work = s.work := by
  unfold putInByte; split <;> rfl
@[simp] theorem putInByte_inEpoch (s : State) (i : Nat) (b : Byte) : (putInByte s i b).inEpoch = s.inEpoch := by
  unfold putInByte; split <;> rfl
@[simp] theorem putInByte_outEpoch (s : State) (i : Nat) (b : Byte) : (putInByte s i b).outEpoch = s.outEpoch := by
  unfold putInByte; split <;> rfl
@[simp] theorem putInByte_draws (s : State) (i : Nat) (b : Byte) : (putInByte s i b).draws = s.draws := by
  unfold putInByte; split <;> rfl
@[simp] theorem putInByte_prog (s : State) (i : Nat) (b : Byte) : (putInByte s i b).prog = s.prog := by
  unfold putInByte; split <;> rfl
@[simp] theorem putInByte_vars (s : State) (i : Nat) (b : Byte) : (putInByte s i b).vars = s.vars := by
  unfold putInByte; split <;> rfl
@[simp] theorem putInByte_sched (s : State) (i : Nat) (b : Byte) : (putInByte s i b).sched = s.sched := by
  unfold putInByte; split <;> rfl
@[simp] theorem afterOutRead_params (s : State) : (afterOutRead s).params = s.params := by
  unfold afterOutRead; split <;> rfl
@[simp] theorem afterOutRead_cmdAlgo (s : State) : (afterOutRead s).cmdAlgo = s.cmdAlgo := by
  unfold afterOutRead; split <;> rfl
@[simp] theorem afterOutRead_cmdDir (s : State) : (afterOutRead s).cmdDir = s.cmdDir := by
  unfold afterOutRead; split <;> rfl
@[simp] theorem afterOutRead_phase (s : State) : (afterOutRead s).phase = s.phase := by
  unfold afterOutRead; split <;> rfl
@[simp] theorem afterOutRead_done (s : State) : (afterOutRead s).done = s.done := by
  unfold afterOutRead; split <;> rfl
@[simp] theorem afterOutRead_err (s : State) : (afterOutRead s).err = s.err := by
  unfold afterOutRead; split <;> rfl
@[simp] theorem afterOutRead_inLen (s : State) : (afterOutRead s).inLen = s.inLen := by
  unfold afterOutRead; split <;> rfl
@[simp] theorem afterOutRead_outLen (s : State) : (afterOutRead s).outLen = s.outLen := by
  unfold afterOutRead; split <;> rfl
@[simp] theorem afterOutRead_irqEn (s : State) : (afterOutRead s).irqEn = s.irqEn := by
  unfold afterOutRead; split <;> rfl
@[simp] theorem afterOutRead_curAlgo (s : State) : (afterOutRead s).curAlgo = s.curAlgo := by
  unfold afterOutRead; split <;> rfl
@[simp] theorem afterOutRead_curDir (s : State) : (afterOutRead s).curDir = s.curDir := by
  unfold afterOutRead; split <;> rfl
@[simp] theorem afterOutRead_curN (s : State) : (afterOutRead s).curN = s.curN := by
  unfold afterOutRead; split <;> rfl
@[simp] theorem afterOutRead_inBuf (s : State) : (afterOutRead s).inBuf = s.inBuf := by
  unfold afterOutRead; split <;> rfl
@[simp] theorem afterOutRead_outBuf (s : State) : (afterOutRead s).outBuf = s.outBuf := by
  unfold afterOutRead; split <;> rfl
@[simp] theorem afterOutRead_work (s : State) : (afterOutRead s).work = s.work := by
  unfold afterOutRead; split <;> rfl
@[simp] theorem afterOutRead_inEpoch (s : State) : (afterOutRead s).inEpoch = s.inEpoch := by
  unfold afterOutRead; split <;> rfl
@[simp] theorem afterOutRead_outEpoch (s : State) : (afterOutRead s).outEpoch = s.outEpoch := by
  unfold afterOutRead; split <;> rfl
@[simp] theorem afterOutRead_prog (s : State) : (afterOutRead s).prog = s.prog := by
  unfold afterOutRead; split <;> rfl
@[simp] theorem afterOutRead_vars (s : State) : (afterOutRead s).vars = s.vars := by
  unfold afterOutRead; split <;> rfl
@[simp] theorem afterOutRead_sched (s : State) : (afterOutRead s).sched = s.sched := by
  unfold afterOutRead; split <;> rfl

@[simp] theorem putInWord_params (s : State) (i : Nat) (v : Word) : (putInWord s i v).params = s.params := by
  simp only [putInWord, putInByte_params]
@[simp] theorem putInWord_cmdAlgo (s : State) (i : Nat) (v : Word) : (putInWord s i v).cmdAlgo = s.cmdAlgo := by
  simp only [putInWord, putInByte_cmdAlgo]
@[simp] theorem putInWord_cmdDir (s : State) (i : Nat) (v : Word) : (putInWord s i v).cmdDir = s.cmdDir := by
  simp only [putInWord, putInByte_cmdDir]
@[simp] theorem putInWord_phase (s : State) (i : Nat) (v : Word) : (putInWord s i v).phase = s.phase := by
  simp only [putInWord, putInByte_phase]
@[simp] theorem putInWord_done (s : State) (i : Nat) (v : Word) : (putInWord s i v).done = s.done := by
  simp only [putInWord, putInByte_done]
@[simp] theorem putInWord_err (s : State) (i : Nat) (v : Word) : (putInWord s i v).err = s.err := by
  simp only [putInWord, putInByte_err]
@[simp] theorem putInWord_inLen (s : State) (i : Nat) (v : Word) : (putInWord s i v).inLen = s.inLen := by
  simp only [putInWord, putInByte_inLen]
@[simp] theorem putInWord_outLen (s : State) (i : Nat) (v : Word) : (putInWord s i v).outLen = s.outLen := by
  simp only [putInWord, putInByte_outLen]
@[simp] theorem putInWord_irqEn (s : State) (i : Nat) (v : Word) : (putInWord s i v).irqEn = s.irqEn := by
  simp only [putInWord, putInByte_irqEn]
@[simp] theorem putInWord_curAlgo (s : State) (i : Nat) (v : Word) : (putInWord s i v).curAlgo = s.curAlgo := by
  simp only [putInWord, putInByte_curAlgo]
@[simp] theorem putInWord_curDir (s : State) (i : Nat) (v : Word) : (putInWord s i v).curDir = s.curDir := by
  simp only [putInWord, putInByte_curDir]
@[simp] theorem putInWord_curN (s : State) (i : Nat) (v : Word) : (putInWord s i v).curN = s.curN := by
  simp only [putInWord, putInByte_curN]
@[simp] theorem putInWord_outBuf (s : State) (i : Nat) (v : Word) : (putInWord s i v).outBuf = s.outBuf := by
  simp only [putInWord, putInByte_outBuf]
@[simp] theorem putInWord_work (s : State) (i : Nat) (v : Word) : (putInWord s i v).work = s.work := by
  simp only [putInWord, putInByte_work]
@[simp] theorem putInWord_inEpoch (s : State) (i : Nat) (v : Word) : (putInWord s i v).inEpoch = s.inEpoch := by
  simp only [putInWord, putInByte_inEpoch]
@[simp] theorem putInWord_outEpoch (s : State) (i : Nat) (v : Word) : (putInWord s i v).outEpoch = s.outEpoch := by
  simp only [putInWord, putInByte_outEpoch]
@[simp] theorem putInWord_draws (s : State) (i : Nat) (v : Word) : (putInWord s i v).draws = s.draws := by
  simp only [putInWord, putInByte_draws]
@[simp] theorem putInWord_prog (s : State) (i : Nat) (v : Word) : (putInWord s i v).prog = s.prog := by
  simp only [putInWord, putInByte_prog]
@[simp] theorem putInWord_vars (s : State) (i : Nat) (v : Word) : (putInWord s i v).vars = s.vars := by
  simp only [putInWord, putInByte_vars]
@[simp] theorem putInWord_sched (s : State) (i : Nat) (v : Word) : (putInWord s i v).sched = s.sched := by
  simp only [putInWord, putInByte_sched]

end Sys2Proof.Machine
end

