-- ==== Sys2Proof/Laws/Exec.lean ====
section
/-! SUPPORT. What a command can do, said once: command end with a status and an output, the output within OUT_CAP. -/

namespace Sys2Proof.Machine

/-- Execute gives an output only with status OK, and only one that fits OUT_BUF (R188, R190, R192). -/
theorem execute_bound (f : List Byte → CodecResult) (s : State) :
    ((execute f s).1 = .ok → (execute f s).2.length ≤ s.params.outCap) ∧
      ((execute f s).1 ≠ .ok → (execute f s).2 = []) := by
  unfold execute
  split
  · simp
  · split
    · simp
    · simp
    · split
      · simp
      · rename_i h; simp; omega

/-- The one shape of every command's meaning: command end with some status and output. -/
theorem exec_eq_complete (i : Instr) (s : State) :
    ∃ st r, exec i s = .next (complete st r s) ∧ (st = .ok → r.length ≤ s.params.outCap) ∧ (st ≠ .ok → r = []) := by
  cases i with
  | unsup a d => exact ⟨.unsupportedAlgorithm, [], rfl, by simp, by simp⟩
  | hufC => exact ⟨_, _, rfl, execute_bound hufCompress s⟩
  | hufD => exact ⟨_, _, rfl, execute_bound hufDecompress s⟩
  | rleC => exact ⟨_, _, rfl, execute_bound (fun p => .ok (rleCompress p)) s⟩
  | rleD => exact ⟨_, _, rfl, execute_bound rleDecompress s⟩
  | lzC => exact ⟨_, _, rfl, execute_bound (fun p => .ok (lzCompress p)) s⟩
  | lzD => exact ⟨_, _, rfl, execute_bound lzDecompress s⟩

/-- What command end shows (R193). -/
theorem complete_ends (st : Status) (r : List Byte) (s : State) (h : st = .ok → r.length < 2 ^ 32) :
    CommandEnds (complete st r s) st r where
  phase := rfl
  done := rfl
  err := rfl
  outLen := by
    rw [complete_outLen]
    split
    · rename_i e; rw [BitVec.toNat_ofNat]; have := h e; omega
    · rfl
  out := by
    intro e i hi
    show (cellGet (complete st r s).outBuf i).getD _ = _
    rw [complete_outBuf, if_pos e, cellGet_cellsFrom_zero, List.getElem?_eq_getElem hi, Option.getD_some]
  outFree := by
    intro i hi
    show (cellGet (complete st r s).outBuf i).getD _ = _
    rw [complete_outLen] at hi
    rw [complete_outBuf]
    split at hi
    · rename_i e
      rw [BitVec.toNat_ofNat, Nat.mod_eq_of_lt (h e)] at hi
      rw [if_pos e, cellGet_cellsFrom_zero, List.getElem?_eq_none hi, Option.getD_none]
    · rename_i e
      rw [if_neg e]; rfl

/-- What command end leaves alone (R217). -/
theorem complete_sameInput (st : Status) (r : List Byte) (s : State) : SameInput s (complete st r s) :=
  ⟨rfl, rfl, rfl, rfl, rfl, rfl, rfl, rfl, rfl, fun _ => rfl, rfl, rfl, rfl, rfl⟩

/-- What a codec command does, by what its checks and its codec function give (R188, R190). -/
theorem runCodec_spec (f : List Byte → CodecResult) (s : State) (hp : s.params.wf) :
    (s.params.inCap < s.curN.toNat → CommandEnds (runCodec f s) .inputTooLarge []) ∧
    (s.curN.toNat ≤ s.params.inCap → f (cmdInput s) = .error .malformed →
      CommandEnds (runCodec f s) .malformedPayload []) ∧
    (s.curN.toNat ≤ s.params.inCap → f (cmdInput s) = .error .bitCountOverflow →
      CommandEnds (runCodec f s) .outputOverflow []) ∧
    (s.curN.toNat ≤ s.params.inCap → ∀ r, f (cmdInput s) = .ok r →
      (s.params.outCap < r.length → CommandEnds (runCodec f s) .outputOverflow []) ∧
      (r.length ≤ s.params.outCap → CommandEnds (runCodec f s) .ok r)) := by
  have hends : ∀ st r, execute f s = (st, r) → CommandEnds (runCodec f s) st r := by
    intro st r e
    have hb : st = .ok → r.length ≤ s.params.outCap := by
      have := (execute_bound f s).1
      rw [e] at this
      exact this
    rw [runCodec, e]
    exact complete_ends st r s fun h => by have := hb h; have := hp.2.2.2; omega
  refine ⟨fun h => ?_, fun h e => ?_, fun h e => ?_, fun h r e => ⟨fun g => ?_, fun g => ?_⟩⟩ <;> apply hends <;> unfold execute
  · exact if_pos h
  · rw [if_neg (Nat.not_lt.mpr h), e]
  · rw [if_neg (Nat.not_lt.mpr h), e]
  · rw [if_neg (Nat.not_lt.mpr h), e]; exact if_pos g
  · rw [if_neg (Nat.not_lt.mpr h), e]; exact if_neg (Nat.not_lt.mpr g)

/-- Execute reads the operands of a command and the capacities, nothing else (R42). -/
theorem execute_congr (f : List Byte → CodecResult) (s s' : State) (h1 : s.params.inCap = s'.params.inCap)
    (h2 : s.params.outCap = s'.params.outCap) (h3 : s.curN = s'.curN) (h4 : cmdInput s = cmdInput s') :
    execute f s = execute f s' := by
  unfold execute
  rw [h1, h2, h3, h4]

end Sys2Proof.Machine
end

