-- ==== Sys2Proof/Laws/Host.lean ====
section
/-! SUPPORT. What a host operation can do, said once. -/

namespace Sys2Proof.Machine

/-- The bus address of a block offset leads back to the offset (R62). -/
@[simp] theorem offsetOf_busAddr (p : Params) (off : Word) : offsetOf p (busAddr p off) = off := by
  simp [offsetOf, busAddr]

/-- The window of an offset of the REG window (R62). -/
theorem windowOf_reg (p : Params) (off : Word) (h : off.toNat < 0x1000) : windowOf p off = .reg off.toNat := by
  unfold windowOf
  exact if_pos h

/-- The window of an offset of IN_BUF (R62). -/
theorem windowOf_inBuf (p : Params) (off : Word) (i : Nat) (h : off.toNat = 0x40000000 + i) (hi : i < p.inCap) :
    windowOf p off = .inBuf i := by
  have h1 : ¬ off.toNat < regSize := by unfold regSize; omega
  have h2 : inBase ≤ off.toNat ∧ off.toNat < inBase + p.inCap := by unfold inBase; omega
  rw [windowOf, if_neg h1, if_pos h2]
  exact congrArg Window.inBuf (by unfold inBase; omega)

/-- The window of an offset of OUT_BUF (R62), for an IN_CAP that keeps IN_BUF below it. -/
theorem windowOf_outBuf (p : Params) (off : Word) (i : Nat) (hp : p.inCap ≤ 2 ^ 30) (h : off.toNat = 0x80000000 + i)
    (hi : i < p.outCap) : windowOf p off = .outBuf i := by
  have h1 : ¬ off.toNat < regSize := by unfold regSize; omega
  have h2 : ¬ (inBase ≤ off.toNat ∧ off.toNat < inBase + p.inCap) := by unfold inBase; omega
  have h3 : outBase ≤ off.toNat ∧ off.toNat < outBase + p.outCap := by unfold outBase; omega
  rw [windowOf, if_neg h1, if_neg h2, if_pos h3]
  exact congrArg Window.outBuf (by unfold outBase; omega)

/-- An offset outside the three windows holds nothing (R62). -/
theorem windowOf_hole (p : Params) (off : Word) (h1 : ¬ off.toNat < regSize)
    (h2 : ¬ (inBase ≤ off.toNat ∧ off.toNat < inBase + p.inCap))
    (h3 : ¬ (outBase ≤ off.toNat ∧ off.toNat < outBase + p.outCap)) : windowOf p off = .hole := by
  rw [windowOf, if_neg h1, if_neg h2, if_neg h3]

/-- A word read of the REG window at a multiple of 4 (R65). -/
theorem memRead32_reg (off : Word) (s : State) (h1 : off.toNat < 0x1000) (h2 : off.toNat % 4 = 0) :
    memRead32 off s = some (readReg s (regAt off.toNat), s) := by
  simp [memRead32, windowOf_reg _ _ h1, admits, h2]

/-- A word write of the REG window at a multiple of 4 (R65). -/
theorem memWrite32_reg (off v : Word) (s : State) (h1 : off.toNat < 0x1000) (h2 : off.toNat % 4 = 0) :
    memWrite32 off v s = some (writeReg s (regAt off.toNat) v) := by
  simp [memWrite32, windowOf_reg _ _ h1, admits, h2]

/-- What a byte of IN_BUF reads as after a host write while no command runs (R63). -/
theorem inByte_putInByte (s : State) (i : Nat) (b : Byte) (hm : Memory.wf s.inBuf) (hp : s.phase = .idle) (j : Nat) :
    inByte (putInByte s i b) j = if j = i then b else inByte s j := by
  simp only [putInByte, hp, inByte]
  rw [cellGet_cellPut _ _ _ _ hm]
  split <;> rfl

/-- A host write of a byte of IN_BUF changes nothing but IN_BUF. -/
theorem putInByte_frame (s : State) (i : Nat) (b : Byte) : putInByte s i b = { s with inBuf := (putInByte s i b).inBuf } := by
  unfold putInByte
  split <;> rfl

/-- The value of four lanes (R66). -/
theorem lanes_toNat (f : Nat → Byte) (i : Nat) : (lanes f i).toNat =
    (f i).toNat + (f (i + 1)).toNat * 2 ^ 8 + (f (i + 2)).toNat * 2 ^ 16 + (f (i + 3)).toNat * 2 ^ 24 := by
  show (f (i + 3) ++ f (i + 2) ++ f (i + 1) ++ f i).toNat = _
  simp only [BitVec.toNat_append]
  have h0 := (f i).isLt
  have h1 := (f (i + 1)).isLt
  have h2 := (f (i + 2)).isLt
  have h3 := (f (i + 3)).isLt
  rw [← Nat.shiftLeft_add_eq_or_of_lt h0, ← Nat.shiftLeft_add_eq_or_of_lt h1, ← Nat.shiftLeft_add_eq_or_of_lt h2]
  simp only [Nat.shiftLeft_eq]
  omega

/-- A 4-byte read: what it can leave behind, and that it is answered exactly when it is admitted. -/
theorem memRead32_isSome (off : Word) (s : State) :
    (memRead32 off s).isSome = admits s.params 4 (windowOf s.params off) := by
  unfold memRead32
  split
  · rename_i h
    split <;> simp_all [admits]
  · rename_i h; simpa using h

theorem memRead8_isSome (off : Word) (s : State) :
    (memRead8 off s).isSome = admits s.params 1 (windowOf s.params off) := by
  unfold memRead8
  split
  · rename_i h
    split <;> simp_all [admits]
  · rename_i h; simpa using h

theorem memWrite32_isSome (off v : Word) (s : State) :
    (memWrite32 off v s).isSome = admits s.params 4 (windowOf s.params off) := by
  unfold memWrite32
  split
  · rename_i h
    split <;> simp_all [admits]
  · rename_i h; simpa using h

theorem memWrite8_isSome (off : Word) (v : Byte) (s : State) :
    (memWrite8 off v s).isSome = admits s.params 1 (windowOf s.params off) := by
  unfold memWrite8
  split
  · rename_i h
    split <;> simp_all [admits]
  · rename_i h; simpa using h

theorem memRead32_cases {off : Word} {s t : State} {v : Word} (h : memRead32 off s = some (v, t)) :
    t = s ∨ t = afterOutRead s := by
  unfold memRead32 at h
  split at h
  · split at h
    all_goals first | (simp at h; simp [← h.2]) | simp at h
  · simp at h

theorem memRead8_cases {off : Word} {s t : State} {v : Byte} (h : memRead8 off s = some (v, t)) :
    t = s ∨ t = afterOutRead s := by
  unfold memRead8 at h
  split at h
  · split at h
    all_goals first | (simp at h; simp [← h.2]) | simp at h
  · simp at h

theorem memWrite32_cases {off v : Word} {s t : State} (h : memWrite32 off v s = some t) :
    t = s ∨ (∃ i, i + 4 ≤ s.params.inCap ∧ t = putInWord s i v) ∨ ∃ r, t = writeReg s r v := by
  unfold memWrite32 at h
  split at h
  · rename_i ha
    split at h
    · simp at h; exact .inr (.inr ⟨_, h.symm⟩)
    · rename_i i hw
      rw [hw] at ha
      simp [admits] at ha
      simp at h; exact .inr (.inl ⟨i, ha.2, h.symm⟩)
    · simp at h; exact .inl h.symm
    · simp at h
  · simp at h

theorem memWrite8_cases {off : Word} {v : Byte} {s t : State} (h : memWrite8 off v s = some t) :
    t = s ∨ ∃ i, i < s.params.inCap ∧ t = putInByte s i v := by
  unfold memWrite8 at h
  split at h
  · split at h
    · rename_i i hw
      unfold windowOf at hw
      split at hw
      · simp at hw
      · split at hw
        · rename_i h1 h2
          simp at hw; simp at h; exact .inr ⟨i, by omega, h.symm⟩
        · split at hw <;> simp at hw
    · simp at h; exact .inl h.symm
    · simp at h
    · simp at h
  · simp at h

/-- The block's part of one host operation. -/
inductive HostEffect (s : State) : State → Prop where
  | none : HostEffect s s
  | outRead : HostEffect s (afterOutRead s)
  | inByte (i : Nat) (b : Byte) (hi : i < s.params.inCap) : HostEffect s (putInByte s i b)
  | inWord (i : Nat) (v : Word) (hi : i + 4 ≤ s.params.inCap) : HostEffect s (putInWord s i v)
  | reg (r : Reg) (v : Word) : HostEffect s (writeReg s r v)

/-- Everything a host operation can do: one effect on the block, and then the host stays (a POLL or WAITIRQ not satisfied), goes
on, or stores what it has read and goes on. -/
theorem hostStep_cases {op : HostOp} {rest : List HostOp} {s t : State} (h : hostStep op rest s = .next t) :
    ∃ u, HostEffect s u ∧
      (t = u ∨ t = { u with prog := rest } ∨ ∃ x v, t = { u with vars := cellPut u.vars x v, prog := rest }) := by
  cases op with
  | wr32 off v =>
    simp only [hostStep, offsetOf_busAddr] at h
    split at h
    · simp at h
    · rename_i u hu
      simp only [hostNext, Host.Outcome.next.injEq] at h
      rcases memWrite32_cases hu with e | ⟨i, hi, e⟩ | ⟨r, e⟩
      · exact ⟨u, e ▸ .none, .inr (.inl h.symm)⟩
      · exact ⟨u, e ▸ .inWord i _ hi, .inr (.inl h.symm)⟩
      · exact ⟨u, e ▸ .reg r _, .inr (.inl h.symm)⟩
  | wr8 off v =>
    simp only [hostStep, offsetOf_busAddr] at h
    split at h
    · simp at h
    · rename_i u hu
      simp only [hostNext, Host.Outcome.next.injEq] at h
      rcases memWrite8_cases hu with e | ⟨i, hi, e⟩
      · exact ⟨u, e ▸ .none, .inr (.inl h.symm)⟩
      · exact ⟨u, e ▸ .inByte i _ hi, .inr (.inl h.symm)⟩
  | rd32 off x =>
    simp only [hostStep, offsetOf_busAddr] at h
    split at h
    · simp at h
    · rename_i v u hu
      simp only [hostStore, Host.Outcome.next.injEq] at h
      rcases memRead32_cases hu with e | e
      · exact ⟨u, e ▸ .none, .inr (.inr ⟨x, v, h.symm⟩)⟩
      · exact ⟨u, e ▸ .outRead, .inr (.inr ⟨x, v, h.symm⟩)⟩
  | rd8 off x =>
    simp only [hostStep, offsetOf_busAddr] at h
    split at h
    · simp at h
    · rename_i v u hu
      simp only [hostStore, Host.Outcome.next.injEq] at h
      rcases memRead8_cases hu with e | e
      · exact ⟨u, e ▸ .none, .inr (.inr ⟨x, _, h.symm⟩)⟩
      · exact ⟨u, e ▸ .outRead, .inr (.inr ⟨x, _, h.symm⟩)⟩
  | poll off m v =>
    simp only [hostStep, offsetOf_busAddr] at h
    split at h
    · simp at h
    · rename_i w u hu
      have hu' : HostEffect s u := by
        rcases memRead32_cases hu with e | e
        · exact e ▸ .none
        · exact e ▸ .outRead
      split at h
      · simp only [hostNext, Host.Outcome.next.injEq] at h
        exact ⟨u, hu', .inr (.inl h.symm)⟩
      · simp only [Host.Outcome.next.injEq] at h
        exact ⟨u, hu', .inl h.symm⟩
  | waitIrq =>
    simp only [hostStep] at h
    split at h
    · simp only [hostNext, Host.Outcome.next.injEq] at h
      exact ⟨s, .none, .inr (.inl h.symm)⟩
    · simp only [Host.Outcome.next.injEq] at h
      exact ⟨s, .none, .inl h.symm⟩

/-- A host operation is answered exactly when its access is admitted; otherwise it is a bus error. -/
theorem hostStep_admitted (op : HostOp) (rest : List HostOp) (s : State) (h : opAdmitted s.params op = true) :
    ∃ t, hostStep op rest s = .next t := by
  cases op with
  | wr32 off v =>
    obtain ⟨t, ht⟩ := Option.isSome_iff_exists.mp ((memWrite32_isSome off (hostVal s v) s).trans h)
    simp [hostStep, ht, hostNext]
  | wr8 off v =>
    obtain ⟨t, ht⟩ := Option.isSome_iff_exists.mp ((memWrite8_isSome off ((hostVal s v).setWidth 8) s).trans h)
    simp [hostStep, ht, hostNext]
  | rd32 off x =>
    obtain ⟨⟨v, t⟩, ht⟩ := Option.isSome_iff_exists.mp ((memRead32_isSome off s).trans h)
    simp [hostStep, ht, hostStore]
  | rd8 off x =>
    obtain ⟨⟨v, t⟩, ht⟩ := Option.isSome_iff_exists.mp ((memRead8_isSome off s).trans h)
    simp [hostStep, ht, hostStore]
  | poll off m v =>
    obtain ⟨⟨w, t⟩, ht⟩ := Option.isSome_iff_exists.mp ((memRead32_isSome off s).trans h)
    simp only [hostStep, offsetOf_busAddr, ht]
    split <;> simp [hostNext]
  | waitIrq => simp only [hostStep]; split <;> simp [hostNext]

/-- The host's own part of the state, the parameters and the schedule are no part of an effect on the block. -/
theorem HostEffect.host_frame {s u : State} (h : HostEffect s u) :
    u.params = s.params ∧ u.prog = s.prog ∧ u.vars = s.vars ∧ u.sched = s.sched := by
  cases h with
  | none => exact ⟨rfl, rfl, rfl, rfl⟩
  | outRead => unfold afterOutRead; split <;> exact ⟨rfl, rfl, rfl, rfl⟩
  | inByte i b hi => rw [putInByte_frame]; exact ⟨rfl, rfl, rfl, rfl⟩
  | inWord i v hi =>
    unfold putInWord
    rw [putInByte_frame, putInByte_frame, putInByte_frame, putInByte_frame]
    exact ⟨rfl, rfl, rfl, rfl⟩
  | reg r v => cases r <;> simp only [writeReg] <;> (try split) <;> simp

end Sys2Proof.Machine
end

