-- ==== Sys2Proof/Laws/Huffman.lean ====
section
/-! SUPPORT. Lemmas about the Huffman codec (41_huffman.md): the frequency table, the trees an arena holds, the code table,
the tree walk, and the packed bits. -/

namespace Sys2Proof.Machine

/-! ### FrequencyTable -/

theorem length_countByte (f : FreqTable) (b : Byte) : (countByte f b).length = f.length := by
  simp [countByte]

theorem length_foldl_countByte (s : List Byte) (f : FreqTable) : (s.foldl countByte f).length = f.length := by
  induction s generalizing f with
  | nil => rfl
  | cons b s ih => rw [List.foldl_cons, ih, length_countByte]

theorem length_buildFreq (s : List Byte) : (buildFreq s).length = 256 := by
  rw [buildFreq, length_foldl_countByte, List.length_replicate]

theorem freqAt_countByte (f : FreqTable) (b v : Byte) (hf : f.length = 256) :
    freqAt (countByte f b) v.toNat = freqAt f v.toNat + if v = b then 1#32 else 0#32 := by
  have hv : v.toNat < f.length := by rw [hf]; exact v.isLt
  have hv' : v.toNat < (countByte f b).length := by rw [length_countByte]; exact hv
  simp only [freqAt, List.getD_eq_getElem?_getD, List.getElem?_eq_getElem hv, List.getElem?_eq_getElem hv', Option.getD_some]
  simp only [countByte, List.getElem_modify]
  by_cases h : v = b
  · subst h; simp
  · have : b.toNat ≠ v.toNat := fun e => h (BitVec.eq_of_toNat_eq e.symm)
    simp [h, this]

theorem freqAt_foldl_countByte (s : List Byte) (f : FreqTable) (v : Byte) (hf : f.length = 256) :
    freqAt (s.foldl countByte f) v.toNat = freqAt f v.toNat + BitVec.ofNat 32 (s.count v) := by
  induction s generalizing f with
  | nil => simp
  | cons b s ih =>
    rw [List.foldl_cons, ih _ (by rw [length_countByte, hf]), freqAt_countByte f b v hf, List.count_cons]
    apply BitVec.eq_of_toNat_eq
    by_cases h : v = b
    · subst h
      simp only [if_true, BitVec.toNat_add, BitVec.toNat_ofNat, beq_self_eq_true]
      omega
    · have h' : ¬ b = v := fun e => h e.symm
      simp [h, h', BitVec.toNat_add]

/-- A count is the number of occurrences, in 32 bits (R100, R102). -/
theorem freqAt_buildFreq (s : List Byte) (v : Byte) :
    freqAt (buildFreq s) v.toNat = BitVec.ofNat 32 (s.count v) := by
  have h0 : freqAt (List.replicate 256 0#32) v.toNat = 0#32 := by
    rw [freqAt, List.getD_eq_getElem?_getD, List.getElem?_replicate, if_pos v.isLt, Option.getD_some]
  rw [buildFreq, freqAt_foldl_countByte _ _ _ List.length_replicate, h0, BitVec.zero_add]

theorem freqTotal_countByte (f : FreqTable) (i : Nat) (hi : i < f.length) (h : (freqAt f i).toNat + 1 < 2 ^ 32) :
    freqTotal (f.modify i (· + 1#32)) = freqTotal f + 1 := by
  induction f generalizing i with
  | nil => simp at hi
  | cons w f ih =>
    cases i with
    | zero =>
      simp only [freqAt, List.getD_cons_zero] at h
      simp only [freqTotal, List.modify_zero_cons, List.map_cons, List.sum_cons, BitVec.toNat_add, BitVec.toNat_ofNat]
      omega
    | succ i =>
      have := ih i (by simpa using hi) (by simpa [freqAt] using h)
      simp only [freqTotal, List.modify_succ_cons, List.map_cons, List.sum_cons] at this ⊢
      omega

theorem freqAt_le_freqTotal (f : FreqTable) (i : Nat) : (freqAt f i).toNat ≤ freqTotal f := by
  induction f generalizing i with
  | nil => simp [freqAt]
  | cons w f ih =>
    cases i with
    | zero => simp [freqAt, freqTotal]
    | succ i =>
      have := ih i
      simp only [freqAt, freqTotal, List.getD_cons_succ, List.map_cons, List.sum_cons] at this ⊢
      omega

theorem freqTotal_foldl_countByte (s : List Byte) (f : FreqTable) (hf : f.length = 256)
    (h : freqTotal f + s.length < 2 ^ 32) : freqTotal (s.foldl countByte f) = freqTotal f + s.length := by
  induction s generalizing f with
  | nil => rfl
  | cons b s ih =>
    have hb : b.toNat < f.length := by rw [hf]; exact b.isLt
    simp only [List.length_cons] at h
    have h1 : freqTotal (countByte f b) = freqTotal f + 1 :=
      freqTotal_countByte f b.toNat hb (by have := freqAt_le_freqTotal f b.toNat; omega)
    rw [List.foldl_cons, ih _ (by rw [length_countByte, hf]) (by omega), h1, List.length_cons]
    omega

/-- The counts of an input sum to its length (R100). -/
theorem freqTotal_buildFreq (s : List Byte) (h : s.length < 2 ^ 32) : freqTotal (buildFreq s) = s.length := by
  have h0 : ∀ n, freqTotal (List.replicate n 0#32) = 0 := fun n => by
    rw [freqTotal, List.map_replicate, List.sum_replicate]; rfl
  rw [buildFreq, freqTotal_foldl_countByte _ _ List.length_replicate (by rw [h0]; omega), h0, Nat.zero_add]

/-! ### The frame -/

theorem be32_putBe32_append (w : Word) (rest : List Byte) : be32 (putBe32 w ++ rest) 0 = w := by
  show BitVec.extractLsb' 24 8 w ++ BitVec.extractLsb' 16 8 w ++ BitVec.extractLsb' 8 8 w ++ BitVec.extractLsb' 0 8 w = w
  apply BitVec.eq_of_toNat_eq
  simp only [BitVec.toNat_append, BitVec.extractLsb'_toNat, Nat.shiftRight_zero]
  rw [← Nat.shiftLeft_add_eq_or_of_lt (by omega), ← Nat.shiftLeft_add_eq_or_of_lt (by omega),
    ← Nat.shiftLeft_add_eq_or_of_lt (by omega)]
  simp only [Nat.shiftLeft_eq, Nat.shiftRight_eq_div_pow]
  have := w.isLt
  omega

theorem length_putBe32 (w : Word) : (putBe32 w).length = 4 := rfl

theorem byteAt_append_right (a b : List Byte) (i : Nat) : byteAt (a ++ b) (a.length + i) = byteAt b i := by
  rw [byteAt, byteAt, List.getD_eq_getElem?_getD, List.getD_eq_getElem?_getD, List.getElem?_append_right (by omega),
    Nat.add_sub_cancel_left]

theorem be32_append_right (a b : List Byte) (i : Nat) : be32 (a ++ b) (a.length + i) = be32 b i := by
  simp only [be32, Nat.add_assoc, byteAt_append_right]

theorem length_serFreq (f : FreqTable) : (serFreq f).length = 4 * f.length := by
  induction f with
  | nil => rfl
  | cons w f ih =>
    rw [serFreq, List.flatMap_cons, List.length_append, ← serFreq, ih, length_putBe32, List.length_cons]; omega

/-- Entry v of a frequency block reads back as the count it was written from (R84, R103, R104). -/
theorem be32_serFreq (f : FreqTable) (rest : List Byte) (v : Nat) (hv : v < f.length) :
    be32 (serFreq f ++ rest) (4 * v) = freqAt f v := by
  induction f generalizing v with
  | nil => simp at hv
  | cons w f ih =>
    have hs : serFreq (w :: f) = putBe32 w ++ serFreq f := rfl
    cases v with
    | zero => rw [hs, List.append_assoc, Nat.mul_zero, be32_putBe32_append]; rfl
    | succ v =>
      rw [hs, List.append_assoc, show 4 * (v + 1) = (putBe32 w).length + 4 * v by rw [length_putBe32]; omega,
        be32_append_right, ih v (by simpa using hv)]
      rfl

theorem deserFreq_serFreq (f : FreqTable) (rest : List Byte) (hf : f.length = 256) : deserFreq (serFreq f ++ rest) = f := by
  apply List.ext_getElem
  · simp [deserFreq, hf]
  · intro v h1 h2
    simp only [deserFreq, List.getElem_map, List.getElem_range]
    rw [be32_serFreq f rest v h2, freqAt, List.getD_eq_getElem?_getD, List.getElem?_eq_getElem h2, Option.getD_some]

/-! ### Bits -/

theorem length_pack (bits : Bits) : (pack bits).length = (bits.length + 7) / 8 := by simp [pack]

theorem packByte_bit (bits : Bits) (k m : Nat) (hm : m < 8) :
    (packByte bits k).getLsbD (7 - m) = bitAt bits (8 * k + m) := by
  have h : ∀ b0 b1 b2 b3 b4 b5 b6 b7 : Bool, ∀ m : Fin 8,
      (BitVec.ofBool b0 ++ BitVec.ofBool b1 ++ BitVec.ofBool b2 ++ BitVec.ofBool b3 ++ BitVec.ofBool b4 ++
        BitVec.ofBool b5 ++ BitVec.ofBool b6 ++ BitVec.ofBool b7).getLsbD (7 - m.val) =
      [b0, b1, b2, b3, b4, b5, b6, b7].getD m.val false := by decide
  have := h (bitAt bits (8 * k)) (bitAt bits (8 * k + 1)) (bitAt bits (8 * k + 2)) (bitAt bits (8 * k + 3))
    (bitAt bits (8 * k + 4)) (bitAt bits (8 * k + 5)) (bitAt bits (8 * k + 6)) (bitAt bits (8 * k + 7)) ⟨m, hm⟩
  rw [packByte, this]
  interval_cases m <;> rfl

/-- Bit j of the packed bits is at bit position 7 - (j mod 8) of byte floor(j/8) (R86, R115); past the bits it is 0. -/
theorem pack_bit (bits : Bits) (j : Nat) : (byteAt (pack bits) (j / 8)).getLsbD (7 - j % 8) = bitAt bits j := by
  by_cases h : j / 8 < (bits.length + 7) / 8
  · have h1 : byteAt (pack bits) (j / 8) = packByte bits (j / 8) := by
      simp [byteAt, pack, List.getD_eq_getElem?_getD, List.getElem?_range h]
    rw [h1, packByte_bit _ _ _ (Nat.mod_lt _ (by omega)), show 8 * (j / 8) + j % 8 = j by omega]
  · have h1 : byteAt (pack bits) (j / 8) = 0#8 := by
      rw [byteAt, List.getD_eq_getElem?_getD, List.getElem?_eq_none (by rw [length_pack]; omega)]; rfl
    have h2 : bitAt bits j = false := by
      rw [bitAt, List.getD_eq_getElem?_getD, List.getElem?_eq_none (by omega)]; rfl
    rw [h1, h2]; simp

theorem length_unpack (b : List Byte) (nb : Nat) : (unpack b nb).length = nb := by simp [unpack]

theorem unpack_pack_append (bits : Bits) (rest : List Byte) : unpack (pack bits ++ rest) bits.length = bits := by
  apply List.ext_getElem
  · simp [unpack]
  · intro j h1 h2
    have hj : j / 8 < (pack bits).length := by rw [length_pack]; omega
    have h3 : byteAt (pack bits ++ rest) (j / 8) = byteAt (pack bits) (j / 8) := by
      rw [byteAt, byteAt, List.getD_eq_getElem?_getD, List.getD_eq_getElem?_getD, List.getElem?_append_left hj]
    simp only [unpack, List.getElem_map, List.getElem_range]
    rw [h3, pack_bit, bitAt, List.getD_eq_getElem?_getD, List.getElem?_eq_getElem h2, Option.getD_some]

/-! ### The trees an arena holds -/

/-- A prefix tree as a term: the proofs' view of what an arena holds. -/
inductive PTree where
  | leaf (v : Byte)
  | node (l r : PTree)

/-- How many arena entries a tree takes. -/
def PTree.size : PTree → Nat
  | .leaf _ => 1
  | .node l r => l.size + r.size + 1

/-- The byte values at a tree's leaves, left to right. -/
def PTree.syms : PTree → List Byte
  | .leaf v => [v]
  | .node l r => l.syms ++ r.syms

/-- The leaves with their paths from the tree's root (R112). -/
def PTree.codes : PTree → List (Byte × Bits)
  | .leaf v => [(v, [])]
  | .node l r => l.codes.map (fun c => (c.1, false :: c.2)) ++ r.codes.map (fun c => (c.1, true :: c.2))

/-- Arena entry `i` is the root of the given tree. -/
def Holds (nodes : List Node) : PTree → Nat → Prop
  | .leaf v, i => i < nodes.length ∧ (nodeAt nodes i).kind = .leaf v
  | .node l r, i => i < nodes.length ∧ ∃ a b, (nodeAt nodes i).kind = .inner a b ∧ Holds nodes l a ∧ Holds nodes r b

theorem Holds.lt {nodes : List Node} {t : PTree} {i : Nat} (h : Holds nodes t i) : i < nodes.length := by
  cases t <;> exact h.1

theorem PTree.size_eq (t : PTree) : t.size + 1 = 2 * t.syms.length := by
  induction t with
  | leaf v => rfl
  | node l r ihl ihr => simp only [PTree.size, PTree.syms, List.length_append]; omega

theorem PTree.codes_syms (t : PTree) : t.codes.map (·.1) = t.syms := by
  induction t with
  | leaf v => rfl
  | node l r ihl ihr =>
    rw [PTree.codes, PTree.syms, List.map_append, List.map_map, List.map_map, ← ihl, ← ihr]; rfl

/-- Arenas that agree on the kinds of the old entries hold the same trees there. -/
theorem Holds.mono {nodes nodes' : List Node} (hlen : nodes.length ≤ nodes'.length)
    (hk : ∀ i, i < nodes.length → (nodeAt nodes' i).kind = (nodeAt nodes i).kind) {t : PTree} {i : Nat}
    (h : Holds nodes t i) : Holds nodes' t i := by
  induction t generalizing i with
  | leaf v => exact ⟨by have := h.1; omega, by rw [hk i h.1]; exact h.2⟩
  | node l r ihl ihr =>
    obtain ⟨h1, a, b, h2, h3, h4⟩ := h
    exact ⟨by omega, a, b, by rw [hk i h1]; exact h2, ihl h3, ihr h4⟩

theorem length_setParent (p i : Nat) (nodes : List Node) : (setParent p i nodes).length = nodes.length := by
  simp [setParent]

theorem length_mergeNodes (nodes : List Node) (a b : Nat) : (mergeNodes nodes a b).length = nodes.length + 1 := by
  simp [mergeNodes, length_setParent]

theorem nodeAt_setParent_kind (p i j : Nat) (nodes : List Node) :
    (nodeAt (setParent p i nodes) j).kind = (nodeAt nodes j).kind := by
  simp only [nodeAt, setParent, List.getD_eq_getElem?_getD, List.getElem?_modify]
  by_cases h : i = j
  · subst h; cases nodes[i]? <;> simp
  · simp [h]

theorem nodeAt_setParent_weight (p i j : Nat) (nodes : List Node) :
    (nodeAt (setParent p i nodes) j).weight = (nodeAt nodes j).weight := by
  simp only [nodeAt, setParent, List.getD_eq_getElem?_getD, List.getElem?_modify]
  by_cases h : i = j
  · subst h; cases nodes[i]? <;> simp
  · simp [h]

theorem nodeAt_mergeNodes_old (nodes : List Node) (a b i : Nat) (hi : i < nodes.length) :
    (nodeAt (mergeNodes nodes a b) i).kind = (nodeAt nodes i).kind ∧
    (nodeAt (mergeNodes nodes a b) i).weight = (nodeAt nodes i).weight := by
  have h : nodeAt (mergeNodes nodes a b) i =
      nodeAt (setParent nodes.length b (setParent nodes.length a nodes)) i := by
    simp only [mergeNodes, nodeAt, List.getD_eq_getElem?_getD]
    rw [List.getElem?_append_left (by simpa [length_setParent] using hi)]
  rw [h]
  simp only [nodeAt_setParent_kind, nodeAt_setParent_weight, and_self]

/-- The entry a merge creates (R109). -/
theorem nodeAt_mergeNodes_new (nodes : List Node) (a b : Nat) :
    nodeAt (mergeNodes nodes a b) nodes.length =
      { weight := (nodeAt nodes a).weight + (nodeAt nodes b).weight, kind := .inner a b, parent := none } := by
  simp only [mergeNodes, nodeAt, List.getD_eq_getElem?_getD]
  rw [List.getElem?_append_right (by simp [length_setParent])]
  simp [length_setParent]

theorem Holds.mergeNodes {nodes : List Node} (a b : Nat) {t : PTree} {i : Nat} (h : Holds nodes t i) :
    Holds (mergeNodes nodes a b) t i :=
  h.mono (by rw [length_mergeNodes]; omega) fun i hi => (nodeAt_mergeNodes_old nodes a b i hi).1

/-! ### Choosing the lightest -/

theorem lightest_eq_none {nodes : List Node} {live : List Nat} (h : lightest nodes live = none) : live = [] := by
  cases live with
  | nil => rfl
  | cons i rest =>
    simp only [lightest] at h
    split at h
    · simp at h
    · split at h <;> simp at h

theorem lightest_mem {nodes : List Node} {live : List Nat} {a : Nat} (h : lightest nodes live = some a) : a ∈ live := by
  induction live generalizing a with
  | nil => simp [lightest] at h
  | cons i rest ih =>
    simp only [lightest] at h
    split at h
    · simp at h; simp [h]
    · rename_i j hj
      split at h
      · simp at h; simp [h]
      · simp at h; subst h; exact List.mem_cons_of_mem _ (ih hj)

/-! ### The merging loop -/

/-- The live entries hold the trees `ts`, one each. -/
abbrev HoldsAll (nodes : List Node) (live : List Nat) (ts : List PTree) : Prop :=
  List.Forall₂ (fun i t => Holds nodes t i) live ts

theorem HoldsAll.erase {nodes : List Node} {live : List Nat} {ts : List PTree} (h : HoldsAll nodes live ts) {a : Nat}
    (ha : a ∈ live) : ∃ t ts', Holds nodes t a ∧ HoldsAll nodes (live.erase a) ts' ∧ ts.Perm (t :: ts') := by
  induction h with
  | nil => simp at ha
  | @cons i t live ts hit hrest ih =>
    by_cases h : i = a
    · subst h
      exact ⟨t, ts, hit, by simpa using hrest, List.Perm.refl _⟩
    · have ha' : a ∈ live := by
        rcases List.mem_cons.mp ha with e | e
        · exact absurd e.symm h
        · exact e
      obtain ⟨t', ts', h1, h2, h3⟩ := ih ha'
      refine ⟨t', t :: ts', h1, ?_, ?_⟩
      · rw [List.erase_cons_tail (by simpa using h)]
        exact List.Forall₂.cons hit h2
      · exact (List.Perm.cons t h3).trans (List.Perm.swap t' t ts')

/-- All byte values at the leaves of a list of trees. -/
def allSyms (ts : List PTree) : List Byte := ts.flatMap PTree.syms

/-- All arena entries of a list of trees. -/
def allSizes (ts : List PTree) : Nat := (ts.map PTree.size).sum

/-- What one merge does to the trees: two of them become one, with the same leaves and one more entry. -/
theorem HoldsAll.merge {nodes : List Node} {live : List Nat} {ts : List PTree} (h : HoldsAll nodes live ts) {a b : Nat}
    (ha : a ∈ live) (hb : b ∈ live.erase a) :
    ∃ ts', HoldsAll (mergeNodes nodes a b) ((live.erase a).erase b ++ [nodes.length]) ts' ∧
      (allSyms ts').Perm (allSyms ts) ∧ allSizes ts' = allSizes ts + 1 := by
  obtain ⟨ta, ts1, h1, h2, h3⟩ := h.erase ha
  obtain ⟨tb, ts2, h4, h5, h6⟩ := h2.erase hb
  refine ⟨ts2 ++ [.node ta tb], ?_, ?_, ?_⟩
  · refine List.rel_append (h5.imp fun _ _ h => h.mergeNodes a b) ?_
    refine List.Forall₂.cons ⟨by rw [length_mergeNodes]; omega, a, b, ?_, h1.mergeNodes a b, h4.mergeNodes a b⟩ .nil
    rw [nodeAt_mergeNodes_new]
  · have e1 : (allSyms ts).Perm (ta.syms ++ (tb.syms ++ allSyms ts2)) := by
      refine (h3.flatMap_right _).trans ?_
      exact List.Perm.append_left ta.syms (h6.flatMap_right _)
    have e2 : allSyms (ts2 ++ [.node ta tb]) = allSyms ts2 ++ (ta.syms ++ tb.syms) := by
      simp [allSyms, PTree.syms]
    rw [e2]
    refine List.Perm.trans List.perm_append_comm ?_
    rw [List.append_assoc]
    exact e1.symm
  · have e1 := (h3.map PTree.size).sum_eq
    have e2 := (h6.map PTree.size).sum_eq
    simp only [List.map_cons, List.sum_cons] at e1 e2
    simp only [allSizes, List.map_append, List.sum_append, List.map_cons, List.map_nil, List.sum_cons, List.sum_nil,
      PTree.size]
    omega

/-- The merging loop ends with one tree that has all the leaves (R108, R109, R110). -/
theorem mergeLoop_spec (fuel : Nat) (nodes : List Node) (live : List Nat) (ts : List PTree) (hne : live ≠ [])
    (hfuel : live.length ≤ fuel + 1) (h : HoldsAll nodes live ts) (hsize : allSizes ts = nodes.length)
    (hlast : live.getLast? = some (nodes.length - 1)) :
    ∃ nodes' t, mergeLoop fuel nodes live = (nodes', [nodes'.length - 1]) ∧ Holds nodes' t (nodes'.length - 1) ∧
      t.syms.Perm (allSyms ts) ∧ t.size = nodes'.length := by
  induction fuel generalizing nodes live ts with
  | zero =>
    match live, hne with
    | [i], _ =>
      obtain ⟨t, ts', rfl⟩ : ∃ t ts', ts = t :: ts' := by cases h; exact ⟨_, _, rfl⟩
      cases h with
      | cons h1 h2 =>
        cases h2
        simp only [List.getLast?_singleton, Option.some.injEq] at hlast
        subst hlast
        refine ⟨nodes, t, rfl, h1, by simp [allSyms], by simpa [allSizes] using hsize⟩
    | i :: j :: rest, _ => simp at hfuel
  | succ fuel ih =>
    simp only [mergeLoop]
    split
    · rename_i e; exact absurd (lightest_eq_none e) hne
    · rename_i a ha
      have ha' := lightest_mem ha
      split
      · rename_i e
        have he := lightest_eq_none e
        have hl : live = [a] := by
          have h1 := List.perm_cons_erase ha'
          rw [he] at h1
          exact List.perm_singleton.mp h1
        subst hl
        obtain ⟨t, ts', rfl⟩ : ∃ t ts', ts = t :: ts' := by cases h; exact ⟨_, _, rfl⟩
        cases h with
        | cons h1 h2 =>
          cases h2
          simp only [List.getLast?_singleton, Option.some.injEq] at hlast
          subst hlast
          exact ⟨nodes, t, rfl, h1, by simp [allSyms], by simpa [allSizes] using hsize⟩
      · rename_i b hb
        have hb' := lightest_mem hb
        obtain ⟨ts', h1, h2, h3⟩ := h.merge ha' hb'
        have l1 := List.length_erase_of_mem ha'
        have l2 := List.length_erase_of_mem hb'
        have l3 : 0 < (live.erase a).length := List.length_pos_of_mem hb'
        obtain ⟨nodes', t, e1, e2, e3, e4⟩ := ih (mergeNodes nodes a b) ((live.erase a).erase b ++ [nodes.length]) ts'
          (by simp) (by simp only [List.length_append, List.length_cons, List.length_nil]; omega) h1
          (by rw [h3, hsize, length_mergeNodes]) (by simp [length_mergeNodes])
        exact ⟨nodes', t, e1, e2, e3.trans h2, e4⟩

/-- The byte values with a nonzero count, ascending (R107). -/
def presentSyms (freq : FreqTable) : List Byte :=
  ((List.range 256).filter fun v => freqAt freq v ≠ 0#32).map (BitVec.ofNat 8)

theorem leafNodes_kind (freq : FreqTable) (i : Nat) (hi : i < (leafNodes freq).length) :
    (nodeAt (leafNodes freq) i).kind =
      .leaf ((presentSyms freq)[i]'(by simpa [presentSyms, leafNodes] using hi)) := by
  simp only [nodeAt, List.getD_eq_getElem?_getD, List.getElem?_eq_getElem hi, Option.getD_some]
  simp [leafNodes, presentSyms]

theorem length_leafNodes (freq : FreqTable) : (leafNodes freq).length = (presentSyms freq).length := by
  simp [leafNodes, presentSyms]

theorem mem_presentSyms (freq : FreqTable) (v : Byte) : v ∈ presentSyms freq ↔ freqAt freq v.toNat ≠ 0#32 := by
  simp only [presentSyms, List.mem_map, List.mem_filter, List.mem_range, decide_eq_true_eq]
  constructor
  · rintro ⟨n, ⟨h1, h2⟩, rfl⟩
    rwa [BitVec.toNat_ofNat, Nat.mod_eq_of_lt h1]
  · intro h
    exact ⟨v.toNat, ⟨v.isLt, h⟩, by simp⟩

theorem presentSyms_nodup (freq : FreqTable) : (presentSyms freq).Nodup := by
  refine (List.nodup_range.filter _).map_on ?_
  intro x hx y hy h
  have hx' := List.mem_range.mp (List.mem_filter.mp hx).1
  have hy' := List.mem_range.mp (List.mem_filter.mp hy).1
  have := congrArg BitVec.toNat h
  simpa [BitVec.toNat_ofNat, Nat.mod_eq_of_lt hx', Nat.mod_eq_of_lt hy'] using this

theorem presentSyms_length_le (freq : FreqTable) : (presentSyms freq).length ≤ 256 := by
  have := List.length_filter_le (fun v => decide (freqAt freq v ≠ 0#32)) (List.range 256)
  simpa [presentSyms] using this

theorem holdsAll_leafNodes (freq : FreqTable) :
    HoldsAll (leafNodes freq) (List.range (leafNodes freq).length) ((presentSyms freq).map .leaf) := by
  rw [HoldsAll, List.forall₂_iff_get]
  refine ⟨by simp [length_leafNodes], ?_⟩
  intro i h1 h2
  simp only [List.length_range] at h1
  simp only [List.get_eq_getElem, List.getElem_range, List.getElem_map]
  exact ⟨h1, leafNodes_kind freq i h1⟩

theorem allSyms_leaves (vs : List Byte) : allSyms (vs.map .leaf) = vs := by
  induction vs with
  | nil => rfl
  | cons v vs ih => simpa [allSyms, PTree.syms] using ih

theorem allSizes_leaves (vs : List Byte) : allSizes (vs.map .leaf) = vs.length := by
  induction vs with
  | nil => rfl
  | cons v vs ih =>
    simp only [allSizes, List.map_cons, List.sum_cons, PTree.size, List.length_cons] at ih ⊢
    omega

/-- With no nonzero count the tree is empty (R106). -/
theorem buildTree_root_none (freq : FreqTable) (h : presentSyms freq = []) : (buildTree freq).root = none := by
  have : (leafNodes freq).length = 0 := by rw [length_leafNodes, h]; rfl
  simp [buildTree, this, mergeLoop]

/-- The tree BuildTree builds (R106, R109, R110): the arena's last entry is the root of a tree with one leaf for each present
byte value, and the tree takes the whole arena. -/
theorem buildTree_spec (freq : FreqTable) (h : presentSyms freq ≠ []) :
    ∃ t, (buildTree freq).root = some ((buildTree freq).nodes.length - 1) ∧
      Holds (buildTree freq).nodes t ((buildTree freq).nodes.length - 1) ∧
      t.syms.Perm (presentSyms freq) ∧ t.size = (buildTree freq).nodes.length := by
  have hk : 0 < (presentSyms freq).length := List.length_pos_of_ne_nil h
  have hl := length_leafNodes freq
  obtain ⟨nodes', t, e1, e2, e3, e4⟩ := mergeLoop_spec (leafNodes freq).length (leafNodes freq)
    (List.range (leafNodes freq).length) ((presentSyms freq).map .leaf)
    (by rw [Ne, List.range_eq_nil]; omega) (by simp)
    (holdsAll_leafNodes freq) (by rw [allSizes_leaves, hl])
    (by rw [List.getLast?_eq_getElem?, List.length_range, List.getElem?_range (by omega)])
  refine ⟨t, ?_, ?_, ?_, ?_⟩
  · simp [buildTree, e1]
  · simpa [buildTree, e1] using e2
  · rwa [allSyms_leaves] at e3
  · simpa [buildTree, e1] using e4

/-! ### CodeTable -/

/-- Writing a list of codes into a table. -/
def assignCodes (l : List (Byte × Bits)) (code : CodeTable) : CodeTable := l.foldl (fun c x => c.set x.1.toNat x.2) code

theorem assignCodes_append (a b : List (Byte × Bits)) (code : CodeTable) :
    assignCodes (a ++ b) code = assignCodes b (assignCodes a code) := by
  simp [assignCodes]

theorem length_assignCodes (l : List (Byte × Bits)) (code : CodeTable) : (assignCodes l code).length = code.length := by
  induction l generalizing code with
  | nil => rfl
  | cons x l ih => rw [assignCodes, List.foldl_cons, ← assignCodes, ih, List.length_set]

theorem codeOf_set (code : CodeTable) (u v : Byte) (p : Bits) (h : code.length = 256) :
    codeOf (code.set u.toNat p) v = if v = u then p else codeOf code v := by
  simp only [codeOf, List.getD_eq_getElem?_getD, List.getElem?_set]
  by_cases e : v = u
  · subst e
    have : v.toNat < code.length := by rw [h]; exact v.isLt
    simp [this]
  · have : u.toNat ≠ v.toNat := fun e' => e (BitVec.eq_of_toNat_eq e'.symm)
    simp [e, this]

theorem codeOf_assignCodes_of_not_mem (l : List (Byte × Bits)) (code : CodeTable) (v : Byte) (hc : code.length = 256)
    (h : v ∉ l.map (·.1)) : codeOf (assignCodes l code) v = codeOf code v := by
  induction l generalizing code with
  | nil => rfl
  | cons x l ih =>
    simp only [List.map_cons, List.mem_cons, not_or] at h
    rw [assignCodes, List.foldl_cons, ← assignCodes, ih _ (by rw [List.length_set, hc]) h.2, codeOf_set _ _ _ _ hc,
      if_neg h.1]

theorem codeOf_assignCodes (l : List (Byte × Bits)) (code : CodeTable) (v : Byte) (p : Bits) (hc : code.length = 256)
    (hn : (l.map (·.1)).Nodup) (h : (v, p) ∈ l) : codeOf (assignCodes l code) v = p := by
  induction l generalizing code with
  | nil => simp at h
  | cons x l ih =>
    simp only [List.map_cons, List.nodup_cons] at hn
    rw [assignCodes, List.foldl_cons, ← assignCodes]
    rcases List.mem_cons.mp h with e | e
    · subst e
      rw [codeOf_assignCodes_of_not_mem _ _ _ (by rw [List.length_set, hc]) hn.1, codeOf_set _ _ _ _ hc, if_pos rfl]
    · exact ih _ (by rw [List.length_set, hc]) hn.2 e

/-- The stack loop writes the codes of the tree on top of its stack and goes on with the rest (R114). -/
theorem codeLoop_spec (nodes : List Node) (t : PTree) (i : Nat) (p : Bits) (stack : List (Nat × Bits)) (code : CodeTable)
    (fuel : Nat) (h : Holds nodes t i) (hf : t.size ≤ fuel) :
    codeLoop nodes fuel ((i, p) :: stack) code =
      codeLoop nodes (fuel - t.size) stack (assignCodes (t.codes.map fun c => (c.1, p ++ c.2)) code) := by
  induction t generalizing i p stack code fuel with
  | leaf v =>
    simp only [PTree.size] at hf
    obtain ⟨fuel', rfl⟩ : ∃ f, fuel = f + 1 := ⟨fuel - 1, by omega⟩
    simp [codeLoop, h.2, PTree.size, PTree.codes, assignCodes]
  | node l r ihl ihr =>
    obtain ⟨_, a, b, h2, h3, h4⟩ := h
    simp only [PTree.size] at hf
    obtain ⟨fuel', rfl⟩ : ∃ f, fuel = f + 1 := ⟨fuel - 1, by omega⟩
    simp only [codeLoop, h2]
    rw [ihl a (p ++ [false]) _ _ _ h3 (by omega), ihr b (p ++ [true]) _ _ _ h4 (by omega)]
    rw [← assignCodes_append, show fuel' - l.size - r.size = fuel' + 1 - (PTree.node l r).size by
      simp only [PTree.size]; omega]
    congr 2
    simp [PTree.codes, Function.comp_def]

/-- With a tree that has an internal node, the code table holds exactly the paths of its leaves (R112). -/
theorem buildCodes_spec (ar : Arena) (root : Nat) (l r : PTree) (hr : ar.root = some root)
    (h : Holds ar.nodes (.node l r) root) (hs : (PTree.node l r).size = ar.nodes.length) :
    buildCodes ar = assignCodes (PTree.node l r).codes (List.replicate 256 []) := by
  obtain ⟨_, a, b, h2, _, _⟩ := id h
  simp only [buildCodes, hr, h2]
  rw [codeLoop_spec _ _ _ _ _ _ _ h (by omega), hs, Nat.sub_self]
  simp only [codeLoop, List.nil_append]
  rw [List.map_id']

/-! ### The tree walk -/

/-- Walking along a leaf's path from an internal node emits its byte value and goes back to the root (R118). -/
theorem treeWalk_path (nodes : List Node) (root : Nat) (t : PTree) (i : Nat) (v : Byte) (b : Bool) (p rest : Bits)
    (h : Holds nodes t i) (hp : (v, b :: p) ∈ t.codes) :
    treeWalk nodes root i (b :: p ++ rest) = (treeWalk nodes root root rest).map fun out => v :: out := by
  induction t generalizing i b p with
  | leaf u => simp [PTree.codes] at hp
  | node l r ihl ihr =>
    obtain ⟨_, a, c, h2, h3, h4⟩ := h
    have key : ∀ (x : Nat) (t : PTree), Holds nodes t x → (v, p) ∈ t.codes →
        (∀ (b : Bool) (p : Bits), (v, b :: p) ∈ t.codes →
          treeWalk nodes root x (b :: p ++ rest) = (treeWalk nodes root root rest).map fun out => v :: out) →
        (match (nodeAt nodes x).kind with
          | .leaf v => (treeWalk nodes root root (p ++ rest)).map fun out => v :: out
          | .inner _ _ => treeWalk nodes root x (p ++ rest)) =
          (treeWalk nodes root root rest).map fun out => v :: out := by
      intro x t hx hv ih
      cases t with
      | leaf u =>
        simp only [PTree.codes, List.mem_singleton, Prod.mk.injEq] at hv
        obtain ⟨rfl, rfl⟩ := hv
        simp only [hx.2]
        rfl
      | node l r =>
        obtain ⟨_, a', c', h2', _, _⟩ := id hx
        simp only [h2']
        cases p with
        | nil => simp [PTree.codes] at hv
        | cons b' p' => exact ih b' p' hv
    simp only [PTree.codes, List.mem_append, List.mem_map, Prod.mk.injEq, List.cons.injEq, Prod.exists] at hp
    rcases hp with ⟨_, _, hm, rfl, rfl, rfl⟩ | ⟨_, _, hm, rfl, rfl, rfl⟩
    · simp only [List.cons_append, treeWalk, leftOf, h2, Bool.false_eq_true, if_false]
      exact key a l h3 hm fun b p hv => ihl a b p h3 hv
    · simp only [List.cons_append, treeWalk, rightOf, h2, if_true]
      exact key c r h4 hm fun b p hv => ihr c b p h4 hv

/-- Every leaf of a tree with an internal node has a path of at least one bit. -/
theorem PTree.exists_code (l r : PTree) (v : Byte) (h : v ∈ (PTree.node l r).syms) :
    ∃ b p, (v, b :: p) ∈ (PTree.node l r).codes := by
  rw [← PTree.codes_syms, List.mem_map] at h
  obtain ⟨⟨u, q⟩, h1, rfl⟩ := h
  cases q with
  | nil => simp [PTree.codes] at h1
  | cons b p => exact ⟨b, p, h1⟩

/-- The code bits of an input are the codes of its bytes, joined (R119). -/
theorem encodeBits_cons (c : CodeTable) (v : Byte) (s : List Byte) : encodeBits c (v :: s) = codeOf c v ++ encodeBits c s := rfl

/-- A byte value has a leaf exactly when it occurs, for an input whose length fits 32 bits (R105, R107). -/
theorem mem_presentSyms_buildFreq (s : List Byte) (hs : s.length < 2 ^ 32) (v : Byte) :
    v ∈ presentSyms (buildFreq s) ↔ v ∈ s := by
  rw [mem_presentSyms, freqAt_buildFreq, ← List.count_pos_iff]
  have hc := List.count_le_length (a := v) (l := s)
  constructor
  · intro h
    by_contra h'
    exact h (by rw [show s.count v = 0 by omega])
  · intro h e
    have := congrArg BitVec.toNat e
    simp only [BitVec.toNat_ofNat] at this
    omega

/-- Decoding a frame put together from a frequency table, a bit count and code bytes (R87, R120): the checks M1 and M2 pass, and
what remains is the tree walk and the total. -/
theorem hufDecompress_frame (freq : FreqTable) (nb : Word) (code : List Byte) (hf : freq.length = 256)
    (hn : nb.toNat ≤ 8 * code.length) :
    hufDecompress (serFreq freq ++ (putBe32 nb ++ code)) =
      (decodeBitString (buildTree freq) (unpack code nb.toNat)).bind (checkTotal (freqTotal freq)) := by
  have hl : (serFreq freq).length = 1024 := by rw [length_serFreq, hf]
  have hb : be32 (serFreq freq ++ (putBe32 nb ++ code)) 1024 = nb := by
    rw [show 1024 = (serFreq freq).length + 0 by omega, be32_append_right, be32_putBe32_append]
  have hd : (serFreq freq ++ (putBe32 nb ++ code)).drop 1028 = code := by
    rw [← List.append_assoc, List.drop_left']
    rw [List.length_append, hl, length_putBe32]
  unfold hufDecompress
  rw [if_neg (by simp only [List.length_append, hl, length_putBe32]; omega)]
  simp only [hb, hd, deserFreq_serFreq freq _ hf]
  exact if_neg (by omega)

/-- The tree an arena entry holds is determined by the entry. -/
theorem Holds.unique {nodes : List Node} {t t' : PTree} {i : Nat} (h : Holds nodes t i) (h' : Holds nodes t' i) : t = t' := by
  induction t generalizing t' i with
  | leaf v =>
    cases t' with
    | leaf u =>
      have := h.2.symm.trans h'.2
      simp only [NodeKind.leaf.injEq] at this
      rw [this]
    | node l r =>
      obtain ⟨_, a, b, e, _, _⟩ := h'
      exact absurd (h.2.symm.trans e) (by simp)
  | node l r ihl ihr =>
    obtain ⟨_, a, b, e, hl, hr⟩ := h
    cases t' with
    | leaf u => exact absurd (e.symm.trans h'.2) (by simp)
    | node l' r' =>
      obtain ⟨_, a', b', e', hl', hr'⟩ := h'
      have := e.symm.trans e'
      simp only [NodeKind.inner.injEq] at this
      obtain ⟨rfl, rfl⟩ := this
      rw [ihl hl hl', ihr hr hr']

/-- Following a leaf's path bit by bit, 0 to LEFT and 1 to RIGHT, reaches the leaf (R112). -/
theorem Holds.path {nodes : List Node} {t : PTree} {i : Nat} (h : Holds nodes t i) {v : Byte} {p : Bits} (hp : (v, p) ∈ t.codes) :
    (nodeAt nodes (p.foldl (fun i b => if b then rightOf (nodeAt nodes i) else leftOf (nodeAt nodes i)) i)).kind = .leaf v := by
  induction t generalizing i p with
  | leaf u =>
    simp only [PTree.codes, List.mem_singleton, Prod.mk.injEq] at hp
    obtain ⟨rfl, rfl⟩ := hp
    exact h.2
  | node l r ihl ihr =>
    obtain ⟨_, a, b, e, hl, hr⟩ := h
    simp only [PTree.codes, List.mem_append, List.mem_map, Prod.mk.injEq, Prod.exists] at hp
    rcases hp with ⟨_, q, hm, rfl, rfl⟩ | ⟨_, q, hm, rfl, rfl⟩
    · simpa [leftOf, e] using ihl hl hm
    · simpa [rightOf, e] using ihr hr hm

/-- What a tree walk that succeeds has read: nothing, at the root, or a leaf's path and then what the walk from the root reads
(R118, R120 M5). -/
theorem treeWalk_ok {nodes : List Node} {root : Nat} {whole : PTree} (hw : Holds nodes whole root) (l r : PTree) (i : Nat)
    (h : Holds nodes (.node l r) i) (hs : (PTree.node l r).size ≤ whole.size) (bits : Bits) (out : List Byte)
    (e : treeWalk nodes root i bits = .ok out) :
    (i = root ∧ bits = [] ∧ out = []) ∨
    ∃ v p rest out', (v, p) ∈ (PTree.node l r).codes ∧ bits = p ++ rest ∧ treeWalk nodes root root rest = .ok out' ∧
      out = v :: out' := by
  generalize ht : PTree.node l r = t at h hs
  induction t generalizing l r i bits with
  | leaf v => simp at ht
  | node l' r' ihl ihr =>
    simp only [PTree.node.injEq] at ht
    obtain ⟨rfl, rfl⟩ := ht
    obtain ⟨_, a, c, hk, hl, hr⟩ := h
    simp only [PTree.size] at hs
    have key : ∀ (x : Nat) (t : PTree) (rest : Bits), Holds nodes t x → t.size < whole.size →
        (∀ l r, PTree.node l r = t → treeWalk nodes root x rest = .ok out →
          (x = root ∧ rest = [] ∧ out = []) ∨ ∃ v p rest' out', (v, p) ∈ t.codes ∧ rest = p ++ rest' ∧
            treeWalk nodes root root rest' = .ok out' ∧ out = v :: out') →
        (match (nodeAt nodes x).kind with
          | .leaf v => (treeWalk nodes root root rest).map fun out => v :: out
          | .inner _ _ => treeWalk nodes root x rest) = .ok out →
        ∃ v p rest' out', (v, p) ∈ t.codes ∧ rest = p ++ rest' ∧ treeWalk nodes root root rest' = .ok out' ∧ out = v :: out' := by
      intro x t rest hx hlt ih e
      cases t with
      | leaf u =>
        simp only [hx.2] at e
        cases hr : treeWalk nodes root root rest with
        | error _ => rw [hr] at e; simp [Except.map] at e
        | ok o =>
          rw [hr] at e
          simp only [Except.map, Except.ok.injEq] at e
          exact ⟨u, [], rest, o, by simp [PTree.codes], rfl, hr, e.symm⟩
      | node l r =>
        obtain ⟨_, _, _, hk', _, _⟩ := id hx
        simp only [hk'] at e
        rcases ih l r rfl e with ⟨rfl, _, _⟩ | h
        · rw [hw.unique hx] at hlt
          omega
        · exact h
    cases bits with
    | nil =>
      rw [treeWalk] at e
      split at e
      · simp only [Except.ok.injEq] at e
        exact .inl ⟨by assumption, rfl, e.symm⟩
      · simp at e
    | cons b rest =>
      right
      cases b with
      | false =>
        simp only [treeWalk, leftOf, hk, Bool.false_eq_true, if_false] at e
        obtain ⟨v, p, rest', out', h1, h2, h3, h4⟩ := key a l rest hl (by omega)
          (fun l1 r1 ht e1 => by subst ht; exact ihl l1 r1 a rest e1 rfl hl (by omega)) e
        exact ⟨v, false :: p, rest', out', by simp [PTree.codes, h1], by rw [h2]; rfl, h3, h4⟩
      | true =>
        simp only [treeWalk, rightOf, hk, if_true] at e
        obtain ⟨v, p, rest', out', h1, h2, h3, h4⟩ := key c r rest hr (by omega)
          (fun l1 r1 ht e1 => by subst ht; exact ihr l1 r1 c rest e1 rfl hr (by omega)) e
        exact ⟨v, true :: p, rest', out', by simp [PTree.codes, h1], by rw [h2]; rfl, h3, h4⟩

end Sys2Proof.Machine
end

