-- ==== Sys2Proof/Laws/Lz.lean ====
section
/-! SUPPORT. Lemmas about the LZ codec (42_lz.md): the match search, the records, and the copy. -/

namespace Sys2Proof.Machine

/-! ### The match search -/

theorem commonPrefix_le (m : Nat) (a b : List Byte) : commonPrefix m a b ≤ m := by
  induction m generalizing a b with
  | zero => simp [commonPrefix]
  | succ m ih =>
    cases a with
    | nil => simp [commonPrefix]
    | cons x a =>
      cases b with
      | nil => simp [commonPrefix]
      | cons y b =>
        simp only [commonPrefix]
        split
        · exact Nat.succ_le_succ (ih a b)
        · omega

/-- The common prefix is common. -/
theorem commonPrefix_agree (m : Nat) (a b : List Byte) (j : Nat) (h : j < commonPrefix m a b) : a[j]? = b[j]? := by
  induction m generalizing a b j with
  | zero => simp [commonPrefix] at h
  | succ m ih =>
    cases a with
    | nil => simp [commonPrefix] at h
    | cons x a =>
      cases b with
      | nil => simp [commonPrefix] at h
      | cons y b =>
        simp only [commonPrefix] at h
        split at h
        · rename_i e
          cases j with
          | zero => simp [e]
          | succ j => simpa using ih a b j (by omega)
        · omega

/-- Where the common prefix stops short of the bound inside both sequences, they differ. -/
theorem commonPrefix_stop (m : Nat) (a b : List Byte) (h : commonPrefix m a b < m)
    (ha : commonPrefix m a b < a.length) (hb : commonPrefix m a b < b.length) :
    a[commonPrefix m a b]? ≠ b[commonPrefix m a b]? := by
  induction m generalizing a b with
  | zero => omega
  | succ m ih =>
    cases a with
    | nil => simp at ha
    | cons x a =>
      cases b with
      | nil => simp at hb
      | cons y b =>
        by_cases e : x = y
        · simp only [commonPrefix, if_pos e, List.length_cons] at h ha hb ⊢
          simpa using ih a b (by omega) (by omega) (by omega)
        · simp [commonPrefix, e]

theorem matchLength_le (s : List Byte) (maxlen pos off : Nat) : matchLength s maxlen pos off ≤ maxlen :=
  commonPrefix_le _ _ _

/-- Everything the candidate loop establishes: its length is at least every candidate's, and when it is not 0 it is the length
of the candidate it names, which is the first of that length. -/
theorem bestMatch_spec (s : List Byte) (maxlen pos n : Nat) :
    (∀ off, 1 ≤ off → off ≤ n → matchLength s maxlen pos off ≤ (bestMatch s maxlen pos n).1) ∧
    ((bestMatch s maxlen pos n).1 = 0 → (bestMatch s maxlen pos n).2 = 0) ∧
    (0 < (bestMatch s maxlen pos n).1 →
      1 ≤ (bestMatch s maxlen pos n).2 ∧ (bestMatch s maxlen pos n).2 ≤ n ∧
      matchLength s maxlen pos (bestMatch s maxlen pos n).2 = (bestMatch s maxlen pos n).1 ∧
      ∀ off, 1 ≤ off → off < (bestMatch s maxlen pos n).2 →
        matchLength s maxlen pos off < (bestMatch s maxlen pos n).1) := by
  induction n with
  | zero =>
    refine ⟨fun off h1 h2 => by omega, fun _ => rfl, fun h => ?_⟩
    simp [bestMatch] at h
  | succ n ih =>
    obtain ⟨h1, h2, h3⟩ := ih
    simp only [bestMatch]
    split
    · rename_i hlt
      refine ⟨?_, fun h => ?_, fun _ => ⟨by simp, le_rfl, rfl, ?_⟩⟩
      · intro off ha hb
        rcases Nat.lt_or_ge off (n + 1) with h | h
        · exact le_of_lt (lt_of_le_of_lt (h1 off ha (by omega)) hlt)
        · have : off = n + 1 := by omega
          subst this; exact le_rfl
      · simp only at h; omega
      · intro off ha hb
        exact lt_of_le_of_lt (h1 off ha (by simp only at hb; omega)) hlt
    · rename_i hlt
      refine ⟨?_, h2, ?_⟩
      · intro off ha hb
        rcases Nat.lt_or_ge off (n + 1) with h | h
        · exact h1 off ha (by omega)
        · have : off = n + 1 := by omega
          subst this; omega
      · intro h
        obtain ⟨a, b, c, d⟩ := h3 h
        exact ⟨a, by omega, c, d⟩

/-- Everything the choice at a position establishes (R141, R142, R145). -/
theorem chooseMatch_spec (window minMatch : Nat) (s : List Byte) (pos : Nat) :
    (chooseMatch window minMatch s pos = (0, 0)) ∨
    (let m := chooseMatch window minMatch s pos
     let maxlen := min Config.maxMatch (s.length - pos - 1)
     m = bestMatch s maxlen pos (min window pos) ∧ minMatch ≤ m.1 ∧ m.1 ≤ maxlen) := by
  unfold chooseMatch
  simp only
  split
  · exact .inl rfl
  · rename_i h
    refine .inr ⟨rfl, by omega, ?_⟩
    generalize hm : bestMatch s (min Config.maxMatch (s.length - pos - 1)) pos (min window pos) = m
    rcases Nat.eq_zero_or_pos m.1 with h0 | h0
    · omega
    · obtain ⟨_, _, h3⟩ := bestMatch_spec s (min Config.maxMatch (s.length - pos - 1)) pos (min window pos)
      rw [hm] at h3
      obtain ⟨_, _, h4, _⟩ := h3 h0
      rw [← h4]
      exact matchLength_le _ _ _ _

/-! ### Records -/

theorem length_tokenRecord (t : Token) : (tokenRecord t).length = 4 := rfl

/-- Reading a record back gives its token. -/
theorem parseTokens_tokenRecord (t : Token) (rest : List Byte) :
    parseTokens (tokenRecord t ++ rest) = t :: parseTokens rest := by
  obtain ⟨off, len, lit⟩ := t
  have h : BitVec.extractLsb' 8 8 off ++ BitVec.extractLsb' 0 8 off = off := by
    apply BitVec.eq_of_toNat_eq
    simp only [BitVec.toNat_append, BitVec.extractLsb'_toNat, Nat.shiftRight_zero]
    rw [← Nat.shiftLeft_add_eq_or_of_lt (by omega), Nat.shiftLeft_eq, Nat.shiftRight_eq_div_pow]
    have := off.isLt
    omega
  show parseTokens (_ :: _ :: len :: lit :: rest) = _
  simp only [parseTokens, h]

theorem parseTokens_flatMap (ts : List Token) : parseTokens (ts.flatMap tokenRecord) = ts := by
  induction ts with
  | nil => rfl
  | cons t ts ih => rw [List.flatMap_cons, parseTokens_tokenRecord, ih]

theorem length_flatMap_tokenRecord (ts : List Token) : (ts.flatMap tokenRecord).length = 4 * ts.length := by
  induction ts with
  | nil => rfl
  | cons t ts ih => rw [List.flatMap_cons, List.length_append, length_tokenRecord, ih, List.length_cons]; omega

/-! ### The copy -/

/-- What the self-referential copy gives (R149): the old output followed by `n` bytes, byte e + j a copy of byte e - off + j. -/
theorem copyBack_spec (off : Nat) (n : Nat) (out : List Byte) (h1 : 1 ≤ off) (h2 : off ≤ out.length) :
    (copyBack off n out).length = out.length + n ∧ (copyBack off n out).take out.length = out ∧
    ∀ j, j < n → byteAt (copyBack off n out) (out.length + j) = byteAt (copyBack off n out) (out.length + j - off) := by
  induction n generalizing out with
  | zero => simp [copyBack]
  | succ n ih =>
    simp only [copyBack]
    obtain ⟨a, b, c⟩ := ih (out ++ [byteAt out (out.length - off)]) (by simp; omega)
    generalize hr : copyBack off n (out ++ [byteAt out (out.length - off)]) = r at a b c
    simp only [List.length_append, List.length_cons, List.length_nil, Nat.zero_add] at a b c
    have hpre : ∀ j, j ≤ out.length → r[j]? = (out ++ [byteAt out (out.length - off)])[j]? := by
      intro j hj
      rw [← b, List.getElem?_take, if_pos (by omega)]
    refine ⟨by omega, ?_, ?_⟩
    · have := congrArg (List.take out.length) b
      rw [List.take_take, List.take_left', Nat.min_eq_left (by omega)] at this
      · exact this
      · rfl
    · intro j hj
      cases j with
      | zero =>
        simp only [Nat.add_zero, byteAt, List.getD_eq_getElem?_getD]
        rw [hpre out.length le_rfl, hpre (out.length - off) (by omega), List.getElem?_concat_length,
          List.getElem?_append_left (by omega)]
        rfl
      | succ j =>
        have := c j (by omega)
        rwa [show out.length + 1 + j = out.length + (j + 1) by omega] at this

/-- The copy appends as many bytes as it is asked for (R149). -/
theorem length_copyBack (off n : Nat) (out : List Byte) : (copyBack off n out).length = out.length + n := by
  induction n generalizing out with
  | zero => rfl
  | succ n ih => rw [copyBack, ih, List.length_append, List.length_singleton]; omega

/-- A byte value that has not occurred before is a pure literal (R142, R145). -/
theorem chooseMatch_new (window minMatch : Nat) (s : List Byte) (pos : Nat)
    (h : ∀ j, j < pos → byteAt s j ≠ byteAt s pos) : chooseMatch window minMatch s pos = (0, 0) := by
  obtain ⟨_, h2, h3⟩ := bestMatch_spec s (min Config.maxMatch (s.length - pos - 1)) pos (min window pos)
  have hz : (bestMatch s (min Config.maxMatch (s.length - pos - 1)) pos (min window pos)).1 = 0 := by
    by_contra hne
    obtain ⟨a, b, c, _⟩ := h3 (Nat.pos_of_ne_zero hne)
    have e := commonPrefix_agree _ _ _ 0 (by rw [← matchLength, c]; exact Nat.pos_of_ne_zero hne)
    simp only [List.getElem?_drop, Nat.add_zero] at e
    exact h (pos - (bestMatch s (min Config.maxMatch (s.length - pos - 1)) pos (min window pos)).2) (by omega) (by rw [byteAt, byteAt, List.getD_eq_getElem?_getD, List.getD_eq_getElem?_getD, e])
  have hm : bestMatch s (min Config.maxMatch (s.length - pos - 1)) pos (min window pos) = (0, 0) := Prod.ext hz (h2 hz)
  simp [chooseMatch, hm]

/-- Two bounds on the number of tokens that are both large enough give the same tokens. -/
theorem lzScan_fuel (window minMatch : Nat) (s : List Byte) (fuel fuel' pos : Nat) (h : s.length ≤ fuel + pos)
    (h' : s.length ≤ fuel' + pos) : lzScan window minMatch s fuel pos = lzScan window minMatch s fuel' pos := by
  induction fuel generalizing fuel' pos with
  | zero =>
    cases fuel' with
    | zero => rfl
    | succ n => rw [lzScan, lzScan, if_neg (by omega)]
  | succ m ih =>
    cases fuel' with
    | zero => rw [lzScan, lzScan, if_neg (by omega)]
    | succ n =>
      rw [lzScan, lzScan]
      split
      · dsimp only
        rw [ih n _ (by omega) (by omega)]
      · rfl

/-- While no byte value occurs twice, every byte is a token of its own (R142, R145). -/
theorem length_lzScan_distinct (window minMatch : Nat) (s : List Byte) (k : Nat) (hk : k ≤ s.length)
    (h : ∀ pos, pos < k → ∀ j, j < pos → byteAt s j ≠ byteAt s pos) (fuel pos : Nat) (hf : s.length ≤ fuel + pos) (hp : pos ≤ k) :
    (lzScan window minMatch s fuel pos).length = (k - pos) + (lzScan window minMatch s (fuel - (k - pos)) k).length := by
  induction fuel generalizing pos with
  | zero =>
    obtain rfl : pos = k := by omega
    simp
  | succ fuel ih =>
    rcases Nat.lt_or_ge pos k with hlt | hge
    · rw [lzScan, if_pos (by omega)]
      simp only [chooseMatch_new window minMatch s pos (h pos hlt), List.length_cons, Nat.add_zero]
      rw [ih (pos + 1) (by omega) (by omega), show fuel - (k - (pos + 1)) = fuel + 1 - (k - pos) by omega]
      omega
    · obtain rfl : pos = k := by omega
      simp

end Sys2Proof.Machine
end

