-- ==== Sys2Proof/Laws/PerInstr.lean ====
section
/-! SUPPORT. Families of statements about every command as syntax: one lemma per constructor. -/

namespace Sys2Proof.Laws.EncodeFields

/-- The word of a command shows its ALGO in bits 7:0 and its DIR in bit 8 (R77 to R79), has the reserved bits 31:9 zero, and
names a row of the command map (R81). -/
def Statement (i : Instr) : Prop :=
  cmdAlgoOf (encode i) = algoOf i ∧ cmdDirOf (encode i) = dirOf i ∧ (∀ k, 9 ≤ k → (encode i).getLsbD k = false) ∧
    mnemonic i ∈ ["HUF.C", "RLE.C", "LZ.C", "HUF.D", "RLE.D", "LZ.D", "UNSUP"]

/-- The fields of any assembled word. -/
theorem of_fields (i : Instr) (h : mnemonic i ∈ ["HUF.C", "RLE.C", "LZ.C", "HUF.D", "RLE.D", "LZ.D", "UNSUP"]) :
    Statement i := by
  refine ⟨cmdAlgoOf_cmdWord _ _, cmdDirOf_cmdWord _ _, fun k hk => ?_, h⟩
  rw [encode, cmdWord_bit, if_neg (by omega), if_neg (by omega)]

theorem hufC : Statement .hufC := of_fields _ (by decide)
theorem rleC : Statement .rleC := of_fields _ (by decide)
theorem lzC : Statement .lzC := of_fields _ (by decide)
theorem hufD : Statement .hufD := of_fields _ (by decide)
theorem rleD : Statement .rleD := of_fields _ (by decide)
theorem lzD : Statement .lzD := of_fields _ (by decide)
theorem unsup (algo : Byte) (dir : Dir) : Statement (.unsup algo dir) := of_fields _ (by simp [mnemonic])

end Sys2Proof.Laws.EncodeFields
end

