-- ==== Sys2Proof/Laws/Rle.lean ====
section
/-! SUPPORT. Lemmas about the run-length codec (43_rle.md): what the run scan finds, and what one record adds. -/

namespace Sys2Proof.Machine

theorem runLength_le_cap (v : Byte) (cap : Nat) (s : List Byte) : runLength v cap s ≤ cap := by
  induction cap generalizing s with
  | zero => simp [runLength]
  | succ cap ih =>
    cases s with
    | nil => simp [runLength]
    | cons b rest =>
      simp only [runLength]
      split
      · exact Nat.succ_le_succ (ih rest)
      · omega

theorem runLength_le_length (v : Byte) (cap : Nat) (s : List Byte) : runLength v cap s ≤ s.length := by
  induction cap generalizing s with
  | zero => simp [runLength]
  | succ cap ih =>
    cases s with
    | nil => simp [runLength]
    | cons b rest =>
      simp only [runLength]
      split
      · exact Nat.succ_le_succ (ih rest)
      · omega

/-- The scan finds at least the first byte of a run. -/
theorem runLength_cons_self (v : Byte) (cap : Nat) (rest : List Byte) :
    runLength v (cap + 1) (v :: rest) = runLength v cap rest + 1 := by
  simp [runLength]

/-- The bytes a run scan counts are copies of the run's value. -/
theorem replicate_runLength_append_drop (v : Byte) (cap : Nat) (s : List Byte) :
    List.replicate (runLength v cap s) v ++ s.drop (runLength v cap s) = s := by
  induction cap generalizing s with
  | zero => simp [runLength]
  | succ cap ih =>
    cases s with
    | nil => simp [runLength]
    | cons b rest =>
      simp only [runLength]
      split
      · rename_i h
        simp [List.replicate_succ, h, ih rest]
      · simp

/-- A run of `c` copies followed by something else is counted up to the cap. -/
theorem runLength_replicate_append (v : Byte) (cap c : Nat) (rest : List Byte) (h : rest.head? ≠ some v) :
    runLength v cap (List.replicate c v ++ rest) = min cap c := by
  induction cap generalizing c with
  | zero => simp [runLength]
  | succ cap ih =>
    cases c with
    | zero =>
      cases rest with
      | nil => simp [runLength]
      | cons b rest =>
        have : b ≠ v := fun e => h (by simp [e])
        simp [runLength, this]
    | succ c => simp [List.replicate_succ, runLength, ih c]

/-- The scan does not depend on how much fuel it has, once it is enough. -/
theorem rleScan_fuel (fuel fuel' : Nat) (s : List Byte) (h : s.length ≤ fuel) (h' : s.length ≤ fuel') :
    rleScan fuel s = rleScan fuel' s := by
  induction fuel generalizing fuel' s with
  | zero =>
    have : s = [] := List.length_eq_zero_iff.mp (Nat.le_zero.mp h)
    subst this
    cases fuel' <;> rfl
  | succ fuel ih =>
    cases s with
    | nil => cases fuel' <;> rfl
    | cons v rest =>
      cases fuel' with
      | zero => simp at h'
      | succ fuel' =>
        have hc : 1 ≤ runLength v Config.maxRun (v :: rest) := by
          rw [show Config.maxRun = 254 + 1 from rfl, runLength_cons_self]; omega
        simp only [List.length_cons] at h h'
        simp only [rleScan]
        rw [ih fuel'] <;> simp only [List.length_drop, List.length_cons] <;> omega

/-- One record of the scan: the run at the front, at most MAX_RUN of it. -/
theorem rleCompress_cons (v : Byte) (rest : List Byte) :
    rleCompress (v :: rest) =
      BitVec.ofNat 8 (runLength v 255 (v :: rest)) :: v ::
        rleCompress ((v :: rest).drop (runLength v 255 (v :: rest))) := by
  have hc : 1 ≤ runLength v 255 (v :: rest) := by
    rw [show (255 : Nat) = 254 + 1 from rfl, runLength_cons_self]; omega
  conv_lhs => rw [rleCompress, List.length_cons, rleScan]
  simp only [show Config.maxRun = 255 from rfl]
  rw [rleCompress, rleScan_fuel rest.length]
  · simp only [List.length_drop, List.length_cons]; omega
  · exact le_rfl

theorem rleCompress_nil : rleCompress [] = [] := rfl

/-- The count a record holds is the run length it stands for: it fits a byte and is not 0. -/
theorem runLength_record (v : Byte) (rest : List Byte) :
    (BitVec.ofNat 8 (runLength v 255 (v :: rest))).toNat = runLength v 255 (v :: rest) ∧
      BitVec.ofNat 8 (runLength v 255 (v :: rest)) ≠ 0#8 := by
  have h1 := runLength_le_cap v 255 (v :: rest)
  have h2 : 1 ≤ runLength v 255 (v :: rest) := by
    rw [show (255 : Nat) = 254 + 1 from rfl, runLength_cons_self]; omega
  have h3 : (BitVec.ofNat 8 (runLength v 255 (v :: rest))).toNat = runLength v 255 (v :: rest) := by
    rw [BitVec.toNat_ofNat]; omega
  refine ⟨h3, fun h => ?_⟩
  rw [h] at h3
  simp at h3
  omega

end Sys2Proof.Machine
end

