-- ==== Sys2Proof/Tests/Slice0.lean ====
section
/-! SUPPORT. The model's own tests: ill-formed terms, command words written out from 30_encoding.md R77 to R81, vectors of
95_test_vectors.md, and for each obligation with hypotheses a witness that meets them. Expected results are the spec's. -/

namespace Sys2Proof.Machine.Tests

/-! ### Ill-formed terms -/

theorem test_wf_refuses_unsup_huffman : (Instr.unsup 0x00#8 .compress).wf = false := by decide
theorem test_wf_refuses_unsup_rle : (Instr.unsup 0x01#8 .decompress).wf = false := by decide
theorem test_wf_refuses_unsup_lz : (Instr.unsup 0x02#8 .compress).wf = false := by decide
theorem test_wf_accepts_unsup_bounds :
    (Instr.unsup 0x03#8 .compress).wf = true ∧ (Instr.unsup 0xFF#8 .decompress).wf = true := by decide

/-- R5's bounds: each one refused just outside. -/
theorem test_wf_refuses_params :
    ¬ (Params.mk 0 1028 0).wf ∧ ¬ (Params.mk (2 ^ 30 + 1) 1028 0).wf ∧ ¬ (Params.mk 1 1027 0).wf ∧
      ¬ (Params.mk 1 (2 ^ 30 + 1) 0).wf := by decide
theorem test_wf_accepts_params : (Params.mk 1 1028 0).wf ∧ (Params.mk (2 ^ 30) (2 ^ 30) 7).wf := by decide

/-- Buffers out of canonical form are refused. -/
theorem test_wf_refuses_memory : ¬ Memory.wf [(1, 0x00#8), (0, 0x00#8)] ∧ ¬ Memory.wf [(0, 0x01#8), (0, 0x02#8)] := by decide

/-! ### Decoding: RESERVED 31:9, DIR bit 8, ALGO 7:0 (R77, R81) -/

theorem test_decode_hufC : decodeTableWord 32 0b00000000000000000000000_0_00000000 = some .hufC := by decide
theorem test_decode_rleC : decodeTableWord 32 0b00000000000000000000000_0_00000001 = some .rleC := by decide
theorem test_decode_lzC : decodeTableWord 32 0b00000000000000000000000_0_00000010 = some .lzC := by decide
theorem test_decode_hufD : decodeTableWord 32 0b00000000000000000000000_1_00000000 = some .hufD := by decide
theorem test_decode_rleD : decodeTableWord 32 0b00000000000000000000000_1_00000001 = some .rleD := by decide
theorem test_decode_lzD : decodeTableWord 32 0b00000000000000000000000_1_00000010 = some .lzD := by decide
theorem test_decode_unsup :
    decodeTableWord 32 0b00000000000000000000000_1_00000011 = some (.unsup 0x03#8 .decompress) := by decide
/-- R77: bits 31:9 are ignored. -/
theorem test_decode_reserved : decodeTableWord 32 0b11111111111111111111111_0_00000010 = some .lzC := by decide
theorem test_decode_rejects_long : decodeBits 33 0 = .error (.tooLong 33) := rfl
theorem test_decode_rejects_wide : decodeBits 8 0x100 = .error (.valueTooWide 8) := rfl
theorem test_encode_unsup : encode (.unsup 0xFF#8 .decompress) = 0x1FF#32 := by decide

/-! ### States -/

/-- IN_CAP = 4096 and OUT_CAP = 1028, as the status vectors of 95_test_vectors.md §7 assume; `p` in IN_BUF, its length in IN_LEN
and latched. -/
def withInput (p : List Byte) : State :=
  { State.resetWith { inCap := 4096, outCap := 1028, blockBase := 0 } with
    inBuf := cellsFrom 0 p, inLen := BitVec.ofNat 32 p.length, curN := BitVec.ofNat 32 p.length }

/-- A state in which the command of `w` runs on input `p`. -/
def running (w : Word) (p : List Byte) : State := commandStart w (withInput p)

theorem cmdInput_withInput (p : List Byte) (h : p.length < 2 ^ 32) : cmdInput (withInput p) = p := by
  apply List.ext_getElem
  · simp only [cmdInput, withInput, List.length_map, List.length_range, BitVec.toNat_ofNat]
    omega
  · intro i h1 h2
    have hc : cellGet (withInput p).inBuf i = some p[i] := by
      show cellGet (cellsFrom 0 p) i = _
      rw [cellGet_cellsFrom_zero, List.getElem?_eq_getElem h2]
    simp [cmdInput, inByte, hc]

/-- STATUS and OUT_LEN after one step. -/
def after (o : Host.Outcome State Fault Refusal) : Option (Word × Word) :=
  match o with
  | .next t => some (statusWord t, t.outLen)
  | .fault _ => none
  | .refused _ => none

/-- The output bytes the host reads after one step, and OUT_LEN. -/
def output (o : Host.Outcome State Fault Refusal) : Option (List Byte) :=
  match o with
  | .next t => some ((List.range t.outLen.toNat).map (outByte t))
  | .fault _ => none
  | .refused _ => none

/-- The bytes of a codec's result from byte `k` on. -/
def from? (k : Nat) (r : CodecResult) : Option (List Byte) :=
  match r with
  | .ok r => some (r.drop k)
  | .error _ => none

/-! ### Commands: one or two vectors each, one step -/

/-- V-R1, V-S1. -/
theorem test_rleC : output (step (running 0x001#32 [0x61, 0x61, 0x61, 0x62, 0x62, 0x62, 0x63, 0x63, 0x63, 0x63, 0x64])) =
    some [0x03, 0x61, 0x03, 0x62, 0x04, 0x63, 0x01, 0x64] := by decide
/-- V-R5. -/
theorem test_rleC_splits : rleCompress (List.replicate 256 0x78) = [0xFF, 0x78, 0x01, 0x78] := by decide +kernel
/-- V-RD5. -/
theorem test_rleD : output (step (running 0x101#32 [0x02, 0x61, 0x03, 0x61])) =
    some [0x61, 0x61, 0x61, 0x61, 0x61] := by decide
/-- V-RD4. -/
theorem test_rleD_zero_count : after (step (running 0x101#32 [0x02, 0x61, 0x00, 0x62])) = some (0x22#32, 0#32) := by
  decide
/-- V-L4. -/
theorem test_lzC : output (step (running 0x002#32 [0x61, 0x62, 0x61, 0x62, 0x61, 0x62, 0x61, 0x62])) =
    some [0x00, 0x00, 0x00, 0x61, 0x00, 0x00, 0x00, 0x62, 0x00, 0x02, 0x05, 0x62] := by decide
/-- V-L7: the nearest of two offsets of equal length, and the last byte kept for the literal. -/
theorem test_lzC_nearest : lzCompress [0x61, 0x62, 0x72, 0x61, 0x63, 0x61, 0x64, 0x61, 0x62, 0x72, 0x61] =
    [0x00, 0x00, 0x00, 0x61, 0x00, 0x00, 0x00, 0x62, 0x00, 0x00, 0x00, 0x72, 0x00, 0x03, 0x01, 0x63,
     0x00, 0x02, 0x01, 0x64, 0x00, 0x07, 0x03, 0x61] := by decide
/-- V-LD6: an overlapping copy. -/
theorem test_lzD : output (step (running 0x102#32 [0x00, 0x00, 0x00, 0x61, 0x00, 0x00, 0x00, 0x62, 0x00, 0x02, 0x03, 0x63])) =
    some [0x61, 0x62, 0x61, 0x62, 0x61, 0x63] := by decide
/-- V-LD8. -/
theorem test_lzD_offset : after (step (running 0x102#32 [0x00, 0x00, 0x00, 0x61, 0x00, 0x00, 0x00, 0x62, 0x00, 0x03, 0x01, 0x63])) =
    some (0x22#32, 0#32) := by decide
/-- V-H4: the tail of the frame of "aaabbc". -/
theorem test_hufC : from? 1024 (hufCompress [0x61, 0x61, 0x61, 0x62, 0x62, 0x63]) =
    some [0x00, 0x00, 0x00, 0x09, 0x1F, 0x00] := by decide +kernel
/-- V-S10. -/
theorem test_hufC_overflow : after (step (running 0x000#32 [0x61, 0x61, 0x61, 0x61, 0x62])) = some (0x42#32, 0#32) := by
  decide +kernel

/-- The counts of "aaabbc" (V-H4): entry 97 is 3, entry 98 is 2, entry 99 is 1. -/
def table4 : FreqTable := List.replicate 97 0#32 ++ [3#32, 2#32, 1#32] ++ List.replicate 156 0#32

theorem length_table4 : table4.length = 256 := by
  rw [table4, List.length_append, List.length_append, List.length_replicate, List.length_replicate]
  rfl

/-- R84, and V-H4's block: entry 97 is bytes 388 to 391, big-endian. -/
theorem test_frequency_block : serFreq table4 =
    List.replicate 388 0x00 ++ [0x00, 0x00, 0x00, 0x03, 0x00, 0x00, 0x00, 0x02, 0x00, 0x00, 0x00, 0x01] ++
      List.replicate 624 0x00 := by decide +kernel

/-- The frame F4 of 95_test_vectors.md §3, with NBITS `nb` and code bytes `code`. -/
def f4 (nb : Word) (code : List Byte) : List Byte := serFreq table4 ++ (putBe32 nb ++ code)

/-- V-HD13: a surplus byte is ignored. -/
theorem test_hufD : from? 0 (hufDecompress (f4 9#32 [0x1F, 0x00, 0x55])) = some [0x61, 0x61, 0x61, 0x62, 0x62, 0x63] := by
  rw [f4, hufDecompress_frame _ _ _ length_table4 (by decide)]
  decide +kernel
/-- V-HD10: bits that stop inside a code. -/
theorem test_hufD_inside_code : from? 0 (hufDecompress (f4 8#32 [0x1F, 0x00])) = none := by
  rw [f4, hufDecompress_frame _ _ _ length_table4 (by decide)]
  decide
/-- V-S6: UnsupportedAlgorithm wins over InputTooLarge. -/
theorem test_unsup : after (step { running 0x003#32 [] with curN := 5000#32 }) = some (0x12#32, 0#32) := by decide
/-- V-S5. -/
theorem test_input_too_large : after (step { running 0x000#32 [] with curN := 5000#32 }) = some (0x32#32, 0#32) := by
  decide

/-! ### Host accesses -/

/-- V-M7: the first and the last lane. -/
theorem test_lanes : ((memWrite32 0x40000000#32 0x64636261#32 State.reset).map fun t => (inByte t 0, inByte t 3)) =
    some (0x61#8, 0x64#8) := by decide
/-- V-M6: IN_CAP = 4094, the last word reaches past the window. -/
theorem test_past_window :
    (memRead32 0x40000FFC#32 (State.resetWith { inCap := 4094, outCap := 1028, blockBase := 0 })).isNone = true := by
  decide
/-- V-M1, V-M2, V-M10. -/
theorem test_bus_errors : (memRead8 0x004#32 State.reset).isNone = true ∧ (memRead32 0x006#32 State.reset).isNone = true ∧
    (memRead32 0x20000000#32 State.reset).isNone = true := by decide
/-- V-M12: writing 0 to DONE keeps it. -/
theorem test_w1c : ((memWrite32 0x004#32 0xFFFFFFFD#32 { State.reset with done := true }).map fun t => t.done) = some true := by
  decide

/-! ### Witnesses: each obligation's hypotheses can be met -/

theorem params_wf (p : List Byte) : (withInput p).params.wf := by
  show (1 : Nat) ≤ 4096 ∧ 4096 ≤ 2 ^ 30 ∧ 1028 ≤ 1028 ∧ 1028 ≤ 2 ^ 30
  decide

/-- A machine that runs RLE.C meets the invariant. -/
theorem running_inv : (running 0x001#32 [0x61]).Inv := by
  constructor <;> decide

theorem witness_CommandMapDecodesLowNineBits :
    0xFFFFFF02#32 &&& 0x1FF#32 = 0x102#32 ∧ 3 ≤ (0x003#32 &&& 0xFF#32).toNat ∧ 3 ≤ (0x1FF#32 &&& 0xFF#32).toNat := by decide

theorem witness_DecodeOfEncodeIsIdentity : Instr.hufC.wf = true ∧ (Instr.unsup 0x03#8 .compress).wf = true := by decide

theorem witness_StepRunsTheLatchedCommand :
    (running 0x101#32 []).phase = .busy ∧ nextTurn (running 0x101#32 []) = .engine ∧ 0xFFFFFFFF < 2 ^ 32 := by decide

theorem witness_HostAndIdleTurns :
    (nextTurn { State.reset with prog := [.waitIrq] } = .host ∧ ({ State.reset with prog := [.waitIrq] } : State).prog = .waitIrq :: []) ∧
    (nextTurn State.reset = .host ∧ State.reset.prog = []) ∧
    (nextTurn { State.reset with sched := [.engine] } = .engine ∧ ({ State.reset with sched := [.engine] } : State).phase = .idle) := by
  decide

/-- Each host operation has a state that admits it: word and byte writes and reads, and a POLL and a WAITIRQ of each outcome. -/
theorem witness_HostAndIdleTurns_operations :
    (memWrite32 0x008#32 (hostVal State.reset (.imm 1#32)) State.reset).isSome = true ∧
    (memWrite8 0x40000000#32 ((hostVal State.reset (.imm 1#32)).setWidth 8) State.reset).isSome = true ∧
    memRead32 0x004#32 State.reset = some (0#32, State.reset) ∧ (memRead8 0x40000000#32 State.reset).isSome = true ∧
    HostVars.wf State.reset.vars ∧ 0#32 &&& 2#32 = 0#32 ∧ 0#32 &&& 2#32 ≠ 2#32 ∧ irqLine State.reset = false ∧
    irqLine { State.reset with done := true, irqEn := true } = true :=
  ⟨rfl, rfl, rfl, rfl, by decide, by decide, by decide, rfl, rfl⟩

theorem witness_CmdWriteStartsOrIsIgnored : (withInput []).phase = .idle ∧ (running 0x000#32 []).phase = .busy := by decide

theorem witness_ResetTurnClearsTheBlock : nextTurn { running 0x001#32 [0x61] with sched := [.reset] } = .reset := by decide

theorem witness_InLenStoresAsWritten :
    (withInput []).phase = .idle ∧ (running 0x000#32 []).phase = .busy ∧
    ({ withInput [] with inLen := 4097#32 } : State).params.inCap < (4097#32).toNat ∧
    (codecOf (decodeWord 0x102#32)).isSome = true := by decide

/-- A command that ends OK (one byte, one record, as V-R3) and one that ends with an error. -/
theorem witness_OutLenIsReadOnly :
    let s := running 0x001#32 [0x61]
    s.Inv ∧ s.phase = .busy ∧ codecOf .rleC = some (fun p => .ok (rleCompress p)) ∧ s.curN.toNat ≤ s.params.inCap ∧
    (rleCompress (cmdInput s)).length ≤ s.params.outCap ∧ (∃ t, exec .rleC s = .next t ∧ t.err = 0#4) ∧
    ∃ t, exec .rleD s = .next t ∧ t.err ≠ 0#4 :=
  ⟨running_inv, rfl, rfl, by decide, by decide, ⟨_, rfl, by decide⟩, _, rfl, by decide⟩

theorem witness_ReservedRegisterOffsets :
    (0x014 ≤ (0x014#32).toNat ∧ (0x014#32).toNat ≤ 0xFFF ∧ (0x014#32).toNat % 4 = 0) ∧
    (0x014 ≤ (0xFFC#32).toNat ∧ (0xFFC#32).toNat ≤ 0xFFF ∧ (0xFFC#32).toNat % 4 = 0) := by decide

/-- The last byte of each window, and the offsets just outside: 0x1000, 0x3FFFFFFF, 0x40001000, 0x80000404. -/
theorem witness_WindowMapAndHoles :
    (withInput []).params.wf ∧ windowOf (withInput []).params 0x40000FFF#32 = .inBuf 4095 ∧
    windowOf (withInput []).params 0x80000403#32 = .outBuf 1027 ∧ windowOf (withInput []).params 0xFFF#32 = .reg 0xFFF ∧
    windowOf (withInput []).params 0x1000#32 = .hole ∧ windowOf (withInput []).params 0x3FFFFFFF#32 = .hole ∧
    windowOf (withInput []).params 0x40001000#32 = .hole ∧ windowOf (withInput []).params 0x80000404#32 = .hole :=
  ⟨params_wf [], by decide, by decide, by decide, by decide, by decide, by decide, by decide⟩

/-- The first byte, the last word and the last byte of IN_BUF, while no command runs and while one runs. -/
theorem witness_InWindowAccesses :
    ((withInput [0x61]).params.wf ∧ Memory.wf (withInput [0x61]).inBuf ∧ (withInput [0x61]).phase = .idle) ∧
    ((running 0x001#32 [0x61]).params.wf ∧ Memory.wf (running 0x001#32 [0x61]).inBuf ∧ (running 0x001#32 [0x61]).phase = .busy) ∧
    0 < 4096 ∧ (4092 % 4 = 0 ∧ 4092 + 3 < 4096) ∧ (4095 < 4096 ∧ ¬ 4095 % 4 = 0) :=
  ⟨⟨params_wf _, by decide, rfl⟩, ⟨params_wf [0x61], by decide, rfl⟩, by decide, by decide, by decide⟩

theorem witness_OutWindowAccesses :
    (withInput []).params.wf ∧ (withInput []).phase = .idle ∧ (running 0x001#32 []).phase = .busy ∧ 0 < (withInput []).params.outCap ∧
    (1024 % 4 = 0 ∧ 1024 + 3 < (withInput []).params.outCap) ∧ 1027 < (withInput []).params.outCap :=
  ⟨params_wf [], rfl, rfl, by decide, by decide, by decide⟩

theorem witness_RegWindowAccesses :
    ((0xFFC#32).toNat < 0x1000 ∧ (0xFFC#32).toNat % 4 = 0) ∧ (0xFFF#32).toNat < 0x1000 ∧ (0xFFF#32).toNat % 4 ≠ 0 := by decide

theorem witness_LittleEndianLanes :
    (withInput [0x61]).params.wf ∧ Memory.wf (withInput [0x61]).inBuf ∧ 4092 % 4 = 0 ∧ 4092 + 3 < (withInput [0x61]).params.inCap ∧
    1024 % 4 = 0 ∧ 1024 + 3 < (withInput [0x61]).params.outCap ∧ (withInput [0x61]).phase = .idle :=
  ⟨params_wf _, by decide, by decide, by decide, by decide, by decide, rfl⟩

theorem witness_ReadsHaveNoSideEffect :
    (∃ v t, memRead32 0x004#32 State.reset = some (v, t)) ∧ (∃ v t, memRead8 0x80000000#32 (running 0x001#32 []) = some (v, t)) ∧
    State.reset.phase = .idle ∧ (∀ i, windowOf (running 0x001#32 []).params 0x004#32 ≠ .outBuf i) ∧
    (∃ v t, memRead32 0x004#32 (running 0x001#32 []) = some (v, t)) ∧
    (∀ i, windowOf (running 0x001#32 []).params 0x40000000#32 ≠ .outBuf i) ∧
    ∃ v t, memRead8 0x40000000#32 (running 0x001#32 []) = some (v, t) :=
  ⟨⟨_, _, rfl⟩, ⟨_, _, rfl⟩, rfl, fun _ => by rw [show windowOf _ _ = .reg 4 from rfl]; simp, ⟨_, _, rfl⟩,
    fun _ => by rw [show windowOf _ _ = .inBuf 0 from rfl]; simp, _, _, rfl⟩

/-- One host operation the block admits and one it does not. -/
theorem witness_BusErrorExactlyWhenNotAdmitted :
    opAdmitted State.reset.params (.rd32 0x004#32 0) = true ∧ opAdmitted State.reset.params (.rd8 0x004#32 0) = false := by decide

theorem witness_UnsupportedAlgorithmCompletes :
    3 ≤ ((0x003#32).extractLsb' 0 8).toNat ∧ 3 ≤ ((0xFFFFFFFF#32).extractLsb' 0 8).toNat := by decide

/-- CUR_N just above and at IN_CAP, for the six completion statements. -/
theorem witness_input_bound :
    (withInput []).params.wf ∧ (withInput []).params.inCap < (4097#32).toNat ∧ (4096#32).toNat ≤ (withInput []).params.inCap :=
  ⟨params_wf [], by decide, by decide⟩

theorem witness_HufCompressCompletes_overflow :
    (withInput [0x41]).params.outCap < 1028 + ((encodeBits (buildCodes (buildTree (buildFreq [0x41]))) [0x41]).length + 7) / 8 := by
  decide +kernel

theorem witness_HufCompressCompletes_ok :
    ¬ (2 ^ 32 ≤ (encodeBits (buildCodes (buildTree (buildFreq []))) []).length ∨
      (withInput []).params.outCap < 1028 + ((encodeBits (buildCodes (buildTree (buildFreq []))) []).length + 7) / 8) := by
  decide

/-- The counts of an input of `n` bytes 0x41. -/
def table65 (n : Word) : FreqTable := List.replicate 65 0#32 ++ [n] ++ List.replicate 190 0#32

theorem length_table65 (n : Word) : (table65 n).length = 256 := by
  rw [table65, List.length_append, List.length_append, List.length_replicate, List.length_replicate]
  rfl

/-- V-HD4, the frame of 1029 bytes 0x41 (more than OUT_CAP = 1028), and V-HD1. -/
theorem witness_HufDecompressCompletes :
    hufDecompress [] = .error .malformed ∧
    ((from? 0 (hufDecompress (serFreq (table65 1029#32) ++ (putBe32 1029#32 ++ List.replicate 129 0x00)))).map List.length) =
      some 1029 ∧ from? 0 (hufDecompress (f4 9#32 [0x1F, 0x00])) = some [0x61, 0x61, 0x61, 0x62, 0x62, 0x63] := by
  refine ⟨rfl, ?_, ?_⟩
  · rw [hufDecompress_frame _ _ _ (length_table65 _) (by rw [List.length_replicate]; decide)]
    decide +kernel
  · rw [f4, hufDecompress_frame _ _ _ length_table4 (by decide)]
    decide +kernel

/-- V-S7's input (600 bytes, 1200 of output) and one byte. -/
theorem witness_RleCompressCompletes :
    (withInput []).params.outCap < (rleCompress (List.replicate 300 [0x61#8, 0x62#8]).flatten).length ∧
    (rleCompress [0x78]).length ≤ (withInput []).params.outCap := by decide +kernel

/-- V-RD3, V-S8's input and V-RD1. -/
theorem witness_RleDecompressCompletes :
    from? 0 (rleDecompress [0x00, 0x61]) = none ∧
    ((from? 0 (rleDecompress (List.replicate 5 [0xFF#8, 0x00#8]).flatten)).map List.length) = some 1275 ∧
    from? 0 (rleDecompress []) = some [] := by decide +kernel

/-- V-LD2, a literal and five copies of 255 (1280 bytes and their literals), and V-LD1. -/
theorem witness_LzDecompressCompletes :
    from? 0 (lzDecompress [0x00, 0x00, 0x00]) = none ∧
    (∃ r, lzDecompress ([0x00, 0x00, 0x00, 0x41] ++ (List.replicate 5 [0x00#8, 0x01#8, 0xFF#8, 0x41#8]).flatten) = .ok r ∧
      r.length = 1281) ∧ from? 0 (lzDecompress []) = some [] := by
  refine ⟨rfl, ?_, rfl⟩
  simp [lzDecompress, parseTokens, replayTokens, length_copyBack, List.replicate]

/-- The bytes 0 to 255, 1, 3, 5: 258 records, 1032 bytes, and V-L1. -/
theorem witness_LzCompressCompletes :
    (withInput []).params.outCap < (lzCompress ((List.range 256).map (BitVec.ofNat 8) ++ [0x01#8, 0x03#8, 0x05#8])).length ∧
    (lzCompress [0x61]).length ≤ (withInput []).params.outCap := by
  refine ⟨?_, by decide⟩
  have hget : ∀ j, j < 256 → byteAt ((List.range 256).map (BitVec.ofNat 8) ++ [0x01#8, 0x03#8, 0x05#8]) j = BitVec.ofNat 8 j := by
    intro j hj
    rw [byteAt, List.getD_eq_getElem?_getD, List.getElem?_append_left (by simpa using hj)]
    simp [hj]
  rw [lzCompress, length_flatMap_tokenRecord, lzTokens, length_lzScan_distinct _ _ _ 256 (by simp) _ _ 0 (by omega) (by omega)]
  · have h2 : (lzScan Config.window Config.minMatch ((List.range 256).map (BitVec.ofNat 8) ++ [0x01#8, 0x03#8, 0x05#8]) 3 256).length =
        2 := by decide +kernel
    simp only [List.length_append, List.length_map, List.length_range, List.length_cons, List.length_nil]
    rw [show 256 + (0 + 1 + 1 + 1) - (256 - 0) = 3 from rfl, h2]
    decide
  · intro pos hp j hj h
    rw [hget pos hp, hget j (by omega)] at h
    have := congrArg BitVec.toNat h
    simp only [BitVec.toNat_ofNat] at this
    omega

/-! An input whose code bits do not fit NBITS: 2^30 bytes, the IN_CAP at its bound, each of 16 byte values 2^26 times. -/

/-- `n` copies of each of the byte values `vs`. -/
def runs (vs : List Byte) (n : Nat) : List Byte := vs.flatMap (List.replicate n)

theorem length_runs (vs : List Byte) (n : Nat) : (runs vs n).length = vs.length * n := by
  induction vs with
  | nil => simp [runs]
  | cons v vs ih => rw [runs, List.flatMap_cons, List.length_append, ← runs, ih]; simp [Nat.add_mul, Nat.add_comm]

theorem count_runs (vs : List Byte) (n : Nat) (v : Byte) : (runs vs n).count v = vs.count v * n := by
  induction vs with
  | nil => simp [runs]
  | cons u vs ih =>
    rw [runs, List.flatMap_cons, List.count_append, ← runs, ih, List.count_replicate, List.count_cons]
    by_cases h : u = v <;> simp [h, Nat.add_mul, Nat.add_comm]

theorem length_encodeBits_runs (code : CodeTable) (vs : List Byte) (n : Nat) :
    (encodeBits code (runs vs n)).length = (vs.map fun v => (codeOf code v).length).sum * n := by
  induction vs with
  | nil => simp [runs, encodeBits]
  | cons v vs ih =>
    have hr : (encodeBits code (List.replicate n v)).length = n * (codeOf code v).length := by
      clear ih
      induction n with
      | zero => simp [encodeBits]
      | succ n ih => rw [List.replicate_succ, encodeBits_cons, List.length_append, ih, Nat.succ_mul, Nat.add_comm]
    rw [runs, List.flatMap_cons, ← runs]
    have : encodeBits code (List.replicate n v ++ runs vs n) = encodeBits code (List.replicate n v) ++ encodeBits code (runs vs n) := by
      simp [encodeBits]
    rw [this, List.length_append, ih, hr, List.map_cons, List.sum_cons, Nat.add_mul, Nat.mul_comm n]

/-- The byte values 0 to 15. -/
def values16 : List Byte := (List.range 16).map (BitVec.ofNat 8)

/-- The counts of that input. -/
def table16 : FreqTable := List.replicate 16 0x4000000#32 ++ List.replicate 240 0#32

theorem buildFreq_runs16 (n : Nat) (hn : n = 2 ^ 26) : buildFreq (runs values16 n) = table16 := by
  apply List.ext_getElem
  · rw [length_buildFreq]; decide +kernel
  · intro i h1 h2
    have hi : i < 256 := by rw [length_buildFreq] at h1; exact h1
    have key : ∀ v : Byte, BitVec.ofNat 32 (values16.count v * 2 ^ 26) = freqAt table16 v.toNat := by decide
    have h := freqAt_buildFreq (runs values16 n) (BitVec.ofNat 8 i)
    rw [count_runs, hn, key, ← hn] at h
    simp only [BitVec.toNat_ofNat, Nat.mod_eq_of_lt (show i < 2 ^ 8 from hi), freqAt, List.getD_eq_getElem?_getD,
      List.getElem?_eq_getElem h1, List.getElem?_eq_getElem h2, Option.getD_some] at h
    exact h

theorem codes16 : (values16.map fun v => (codeOf (buildCodes (buildTree table16)) v).length).sum = 64 := by decide +kernel

theorem bits_runs16 (n : Nat) (hn : n = 2 ^ 26) :
    (encodeBits (buildCodes (buildTree (buildFreq (runs values16 n)))) (runs values16 n)).length = 2 ^ 32 := by
  rw [length_encodeBits_runs, buildFreq_runs16 n hn, codes16]
  omega

/-- Its code bits number 2^32, one more than NBITS holds (R117), and it has IN_CAP's largest number of bytes. -/
theorem witness_bit_count_overflow : ∃ s : List Byte, s.length = 2 ^ 30 ∧
    (encodeBits (buildCodes (buildTree (buildFreq s))) s).length = 2 ^ 32 ∧
    hufCompress s = .error .bitCountOverflow ∧
    2 ^ 32 ≤ ((List.range 256).map fun v => (freqAt (buildFreq s) v).toNat *
      (codeOf (buildCodes (buildTree (buildFreq s))) (BitVec.ofNat 8 v)).length).sum := by
  obtain ⟨n, hn⟩ : ∃ n : Nat, n = 2 ^ 26 := ⟨_, rfl⟩
  refine ⟨runs values16 n, ?_, bits_runs16 n hn, ?_, ?_⟩
  · rw [length_runs, hn]; decide
  · unfold hufCompress
    simp only [bits_runs16 n hn]
    exact if_pos (by decide)
  · rw [buildFreq_runs16 n hn]
    decide +kernel

/-- The four checks of StatusPriority: no codec, CUR_N above IN_CAP (witness_input_bound), and for CUR_N within IN_CAP each result of
a codec function; the bit count overflow needs the largest IN_CAP. The others are in the completion witnesses above. -/
theorem witness_StatusPriority :
    codecOf (.unsup 0x03#8 .compress) = none ∧ codecOf .hufC = some hufCompress ∧
    ∃ s : State, s.params.wf ∧ s.curN.toNat ≤ s.params.inCap ∧ hufCompress (cmdInput s) = .error .bitCountOverflow := by
  obtain ⟨p, h1, _, h2, _⟩ := witness_bit_count_overflow
  refine ⟨rfl, rfl, { withInput p with params := { inCap := 2 ^ 30, outCap := 1028, blockBase := 0 } }, ?_, ?_, ?_⟩
  · show (1 : Nat) ≤ 2 ^ 30 ∧ 2 ^ 30 ≤ 2 ^ 30 ∧ 1028 ≤ 1028 ∧ 1028 ≤ 2 ^ 30
    decide
  · show (BitVec.ofNat 32 p.length).toNat ≤ 2 ^ 30
    rw [h1, BitVec.toNat_ofNat]
    omega
  · show hufCompress (cmdInput (withInput p)) = _
    rw [cmdInput_withInput p (by omega), h2]

theorem witness_CommandsChangeOnlyCommandEndState :
    ∃ t, exec (.unsup 0x03#8 .compress) (withInput [0x61]) = .next t ∧ t.err ≠ 0#4 := ⟨_, rfl, by decide⟩

/-- Two states that differ in IRQ_EN, DONE and a byte beyond CUR_N. -/
theorem witness_CommandResultDependsOnInputAlone :
    let s := withInput [0x61]
    let s' := { withInput [0x61, 0x62] with curN := 1#32, irqEn := true, done := true }
    s.params.inCap = s'.params.inCap ∧ s.params.outCap = s'.params.outCap ∧ s.curN = s'.curN ∧
    (∀ k, k < s.curN.toNat → inByte s k = inByte s' k) ∧ (∃ t, exec .rleC s = .next t) ∧ ∃ t, exec .rleC s' = .next t :=
  ⟨rfl, rfl, rfl, by decide, ⟨_, rfl⟩, ⟨_, rfl⟩⟩

theorem witness_EmptyInputIsNoError : (withInput []).params.wf ∧ (withInput []).curN = 0#32 := ⟨params_wf [], rfl⟩

theorem witness_CommandRoundTrip :
    let s := withInput [0x61, 0x61]
    let u := withInput [0x02, 0x61]
    s.params.wf ∧ u.params = s.params ∧ ∃ t, exec .rleC s = .next t ∧ t.err = 0#4 ∧ u.curN = t.outLen ∧
      (∀ k, k < t.outLen.toNat → inByte u k = outByte t k) ∧ t.outLen.toNat ≤ s.params.inCap ∧ s.curN.toNat ≤ s.params.outCap :=
  ⟨params_wf _, rfl, _, rfl, by decide, by decide, by decide, by decide, by decide⟩

theorem witness_StepKeepsInvariant :
    (running 0x001#32 [0x61]).Inv ∧ ∃ t, step (running 0x001#32 [0x61]) = .next t := ⟨running_inv, _, rfl⟩

theorem witness_AdmittedProgramsNeverFault :
    ({ withInput [] with prog := [.wr32 0x000#32 (.imm 0x001#32), .rd8 0x80000000#32 0, .waitIrq] } : State).progAdmitted := by decide

theorem witness_OnlyFourEventsChangeDone :
    ∃ t, step (running 0x003#32 []) = .next t ∧ t.done ≠ (running 0x003#32 []).done := ⟨_, rfl, by decide⟩

theorem witness_InputFixedWhileBusy :
    (running 0x003#32 []).phase = .busy ∧ nextTurn (running 0x003#32 []) ≠ .reset ∧ ∃ t, step (running 0x003#32 []) = .next t :=
  ⟨rfl, by decide, _, rfl⟩

theorem witness_OutputStaysUntilNextCommand : (withInput []).phase = .idle ∧ ∃ t, step (withInput []) = .next t := ⟨rfl, _, rfl⟩

theorem witness_RunningCommandEnds :
    let s := { running 0x001#32 [0x61] with sched := [.host, .host], prog := [.rd32 0x004#32 0] }
    s.phase = .busy ∧ (∀ t ∈ s.sched, t ≠ .reset) ∧ s.progAdmitted := ⟨rfl, by decide, by decide⟩

/-- A run of 255 and one of 256 bytes, followed by another value and by nothing. -/
theorem witness_RleSplitsLongRuns : [0x79#8].head? ≠ some 0x78#8 ∧ ([] : List Byte).head? ≠ some 0x78#8 ∧ 255 % 255 = 0 ∧ 256 % 255 ≠ 0 := by
  decide

/-- V-RD5's record before a payload that expands and before one that is malformed; a record with count 0 and an odd length. -/
theorem witness_RleMalformedExactly :
    0x02#8 ≠ 0#8 ∧ rleDecompress [0x03, 0x61] = .ok [0x61, 0x61, 0x61] ∧ rleDecompress [0x00, 0x62] = .error .malformed ∧
    (2 * 0 + 1 < [0x00#8, 0x62#8].length ∧ byteAt [0x00, 0x62] (2 * 0) = 0#8) ∧ [0x02#8].length % 2 = 1 := by
  refine ⟨by decide, rfl, rfl, by decide, by decide⟩

/-- A candidate of full length, one that stops before it, and offset = pos. -/
theorem witness_LzCandidateLengthIsLargest :
    (1 ≤ 1 ∧ 1 ≤ 1 ∧ 1 + 2 < [0x61#8, 0x61, 0x61, 0x61].length ∧ matchLength [0x61, 0x61, 0x61, 0x61] 2 1 1 = 2) ∧
    (1 + 2 < [0x61#8, 0x61, 0x62, 0x61].length ∧ matchLength [0x61, 0x61, 0x62, 0x61] 2 1 1 < 2) := by decide

/-- A position with a match and one with none; offset 1 and the window's bound. -/
theorem witness_LzTakesNearestLongestMatch :
    1 < [0x61#8, 0x61, 0x61].length ∧ 0 < (chooseMatch Config.window Config.minMatch [0x61, 0x61, 0x61] 1).1 ∧
    (chooseMatch Config.window Config.minMatch [0x61, 0x61, 0x61] 0).1 = 0 ∧ 1 ≤ min 4096 1 := by decide

/-- The scan's clauses at the same input: just enough fuel at each position, and a position at its end. -/
theorem witness_LzTakesNearestLongestMatch_scan :
    let s := [0x61#8, 0x61, 0x61]
    (s.length ≤ 3 + 0 ∧ s.length ≤ 2 + (0 + 0 + 1)) ∧ (chooseMatch Config.window Config.minMatch s 1).1 = 1 ∧
    (s.length ≤ 2 + 1 ∧ s.length ≤ 0 + (1 + 1 + 1)) ∧ s.length ≤ 3 := by decide

theorem witness_LzCopyIsByteByByte : 1 ≤ 1 ∧ 1 ≤ [0x61#8].length ∧ 1 ≤ 2 ∧ 2 ≤ [0x61#8, 0x62].length := by decide

theorem witness_LzReplaysRecordByRecord :
    [0x00#8, 0x00, 0x00].length % 4 ≠ 0 ∧ [0x00#8, 0x00, 0x00, 0x61].length % 4 = 0 ∧
    lzDecompress [0x00, 0x00, 0x00, 0x61] = .ok [0x61] ∧ lzDecompress [0x00, 0x01, 0x01, 0x4E] = .error .malformed :=
  ⟨by decide, by decide, rfl, rfl⟩

theorem witness_FreqCountsOccurrences : [0x61#8].length < 2 ^ 32 := by decide

/-- Two live nodes of equal weight: the lower index is taken first (V-H9), then the other; one and no live node. -/
theorem witness_MergeTakesLeastWeightThenIndex :
    let nodes : List Node := [⟨1#64, .leaf 0x61#8, none⟩, ⟨1#64, .leaf 0x62#8, none⟩, ⟨5#64, .leaf 0x63#8, none⟩]
    [1, 0] ≠ [] ∧ lightest nodes [1, 0] = some 0 ∧ lightest nodes ([1, 0].erase 0) = some 1 ∧
    [2].length ≤ 1 ∧ ([] : List Nat).length ≤ 1 ∧
    0 < nodes.length ∧ 1 < nodes.length ∧ (2 < nodes.length ∧ 2 ≠ 0 ∧ 2 ≠ 1) ∧ table4.length = 256 :=
  ⟨by decide, by decide, by decide, by decide, by decide, by decide, by decide, by decide, length_table4⟩

/-- A table with no count, with one, and with three. -/
theorem witness_TreeShapeAndWeights :
    (List.replicate 256 0#32).length = 256 ∧ ((List.range 256).filter fun v => freqAt (List.replicate 256 0#32) v ≠ 0#32).length = 0 ∧
    table4.length = 256 ∧ ((List.range 256).filter fun v => freqAt table4 v ≠ 0#32).length = 3 := by decide +kernel

theorem witness_CodesArePathsAndPrefixFree :
    table4.length = 256 ∧ freqAt table4 (0x61#8).toNat ≠ 0#32 ∧ freqAt table4 (0x62#8).toNat ≠ 0#32 ∧ (0x61#8) ≠ 0x62#8 ∧
    freqAt table4 (0x60#8).toNat = 0#32 ∧ 2 ≤ ((List.range 256).filter fun v => freqAt table4 v ≠ 0#32).length ∧
    (table65 3#32).length = 256 ∧
    ((List.range 256).filter fun v => freqAt (table65 3#32) v ≠ 0#32).length = 1 := by decide +kernel

/-- V-H2: HUF.C gives a frame for "A". -/
theorem witness_HufRoundTrip : [0x41#8].length < 2 ^ 32 ∧ from? 1024 (hufCompress [0x41]) = some [0x00, 0x00, 0x00, 0x01, 0x00] := by
  decide +kernel

/-- The length of a frame put together from its parts. -/
theorem length_frame (freq : FreqTable) (nb : Word) (code : List Byte) (hf : freq.length = 256) :
    (serFreq freq ++ (putBe32 nb ++ code)).length = 1028 + code.length := by
  rw [List.length_append, List.length_append, length_serFreq, length_putBe32, hf]
  omega

/-- NBITS of a frame put together from its parts. -/
theorem be32_nbits (freq : FreqTable) (nb : Word) (code : List Byte) (hf : freq.length = 256) :
    be32 (serFreq freq ++ (putBe32 nb ++ code)) 1024 = nb := by
  rw [show 1024 = (serFreq freq).length + 0 by rw [length_serFreq, hf], be32_append_right, be32_putBe32_append]

/-- M1, M2 (NBITS 1 and no code byte), M3 (V-HD7), M4 (V-HD8), a payload that decodes and one with a byte to spare. -/
theorem witness_HufDecoderChecks :
    let p2 := serFreq (List.replicate 256 0#32) ++ (putBe32 1#32 ++ [])
    let p3 := serFreq (List.replicate 256 0#32) ++ (putBe32 1#32 ++ [0x00#8])
    let p4 := serFreq (table65 3#32) ++ (putBe32 3#32 ++ [0x20#8])
    ([] : List Byte).length < 1028 ∧ 8 * (p2.length - 1028) < (be32 p2 1024).toNat ∧
    ((∀ v, v < 256 → be32 p3 (4 * v) = 0#32) ∧ be32 p3 1024 ≠ 0#32) ∧
    ((∃ v, v < 256 ∧ be32 p4 (4 * v) ≠ 0#32 ∧ ∀ u, u < 256 → u ≠ v → be32 p4 (4 * u) = 0#32) ∧
      ∃ j, j < (be32 p4 1024).toNat ∧ (byteAt p4 (1028 + j / 8)).getLsbD (7 - j % 8) = true) ∧
    (1028 ≤ p4.length ∧ (be32 p4 1024).toNat ≤ 8 * (p4.length - 1028)) := by
  have l0 : (List.replicate 256 0#32).length = 256 := List.length_replicate
  have l65 := length_table65 3#32
  intro p2 p3 p4
  refine ⟨by decide, ?_, ⟨?_, ?_⟩, ⟨⟨65, by decide, ?_, ?_⟩, 2, ?_, ?_⟩, ?_, ?_⟩
  · rw [be32_nbits _ _ _ l0]; decide +kernel
  · intro v hv
    rw [be32_serFreq _ _ _ (by rw [l0]; exact hv)]
    revert v; decide +kernel
  · rw [be32_nbits _ _ _ l0]; decide
  · rw [be32_serFreq _ _ _ (by rw [l65]; decide)]; decide
  · intro u hu hne
    rw [be32_serFreq _ _ _ (by rw [l65]; exact hu)]
    revert u; decide +kernel
  · rw [be32_nbits _ _ _ l65]; decide
  · decide +kernel
  · decide +kernel
  · rw [be32_nbits _ _ _ l65]; decide +kernel

/-- A frame with enough code bytes for each number of counts: none (V-H1, as V-HD2 decodes it), one (V-HD9, padding bits not 0) and three. -/
theorem witness_HufDecodesExactlyCodeSequences :
    let p0 := serFreq (List.replicate 256 0#32) ++ (putBe32 0#32 ++ [])
    let p1 := serFreq (table65 3#32) ++ (putBe32 3#32 ++ [0x1F#8])
    let p3 := f4 9#32 [0x1F, 0x00]
    (1028 ≤ p0.length ∧ (be32 p0 1024).toNat ≤ 8 * (p0.length - 1028) ∧ hufDecompress p0 = .ok []) ∧
    (1028 ≤ p1.length ∧ (be32 p1 1024).toNat ≤ 8 * (p1.length - 1028) ∧ hufDecompress p1 = .ok [0x41, 0x41, 0x41]) ∧
    (1028 ≤ p3.length ∧ (be32 p3 1024).toNat ≤ 8 * (p3.length - 1028)) := by
  have l0 : (List.replicate 256 0#32).length = 256 := List.length_replicate
  have l65 := length_table65 3#32
  intro p0 p1 p3
  rw [show p0.length = 1028 from length_frame _ _ _ l0, show p1.length = 1028 + 1 from length_frame _ _ _ l65,
    show p3.length = 1028 + 2 from length_frame _ _ _ length_table4, show be32 p0 1024 = 0#32 from be32_nbits _ _ _ l0,
    show be32 p1 1024 = 3#32 from be32_nbits _ _ _ l65, show be32 p3 1024 = 9#32 from be32_nbits _ _ _ length_table4]
  refine ⟨⟨by decide, by decide, ?_⟩, ⟨by decide, by decide, ?_⟩, by decide, by decide⟩
  · rw [show p0 = _ from rfl, hufDecompress_frame _ _ _ l0 (by decide)]
    decide +kernel
  · rw [show p1 = _ from rfl, hufDecompress_frame _ _ _ l65 (by decide)]
    decide +kernel

end Sys2Proof.Machine.Tests
end

section
/-! SUPPORT. Laws of the host-visible registers (10_state.md R24 to R34) and of how a command ends, read off its codec function
(R188 to R193). -/

namespace Sys2Proof.Machine

/-! ### Register words -/

/-- DONE is bit 1 of STATUS (R26). -/
theorem statusWord_getLsbD_one (s : State) : (statusWord s).getLsbD 1 = s.done := by
  show (0#24 ++ s.err ++ 0#2 ++ BitVec.ofBool s.done ++ busyBit s.phase : BitVec (24 + 4 + 2 + 1 + 1)).getLsbD 1 = _
  rw [BitVec.getLsbD_append, BitVec.getLsbD_append]
  simp

/-- EN is bit 0 of IRQ_EN (R29). -/
theorem readReg_irqEn_getLsbD_zero (s : State) : (readReg s .irqEn).getLsbD 0 = s.irqEn := by
  show (0#31 ++ BitVec.ofBool s.irqEn : BitVec (31 + 1)).getLsbD 0 = _
  rw [BitVec.getLsbD_append]
  simp

/-- IRQ_EN reads bit 0 of the word written, with the other bits 0 (R29). -/
theorem zeros_append_bit_zero (v : Word) : (0#31 ++ BitVec.ofBool (v.getLsbD 0) : Word) = v &&& 1#32 := by
  apply BitVec.eq_of_getLsbD_eq
  intro i hi
  show (0#31 ++ BitVec.ofBool (v.getLsbD 0) : BitVec (31 + 1)).getLsbD i = _
  rw [BitVec.getLsbD_append, BitVec.getLsbD_and]
  cases i with
  | zero => simp
  | succ i => simp [BitVec.getLsbD_one]

/-! ### Register offsets and writes -/

/-- The offsets from 0x014 on hold no register (R30). -/
theorem regAt_reserved {off : Nat} (h : 0x014 ≤ off) : regAt off = .reserved := by
  simp only [regAt]
  repeat rw [if_neg (by omega)]

/-- IN_LEN stores a write as it is while no command runs (R27). -/
theorem writeReg_inLen_idle {s : State} (h : s.phase = .idle) (v : Word) : writeReg s .inLen v = { s with inLen := v } := by
  simp only [writeReg, h]

/-- IN_LEN ignores a write while a command runs (R27, R236). -/
theorem writeReg_inLen_busy {s : State} (h : s.phase = .busy) (v : Word) : writeReg s .inLen v = s := by
  simp only [writeReg, h]

/-! ### How a command ends -/

/-- The engine runs the command of the word that started it (R186, R188). -/
theorem engineTurn_commandStart (w : Word) (s : State) :
    engineTurn (commandStart w s) = exec (decodeWord w) (commandStart w s) := rfl

/-- A command with a codec runs its codec function in the frame of R188. -/
theorem exec_of_codecOf_some {i : Instr} {f : List Byte → CodecResult} (h : codecOf i = some f) (s : State) :
    exec i s = .next (runCodec f s) := by
  cases i with
  | unsup _ _ => cases h
  | _ => cases h; rfl

/-- A command without a codec ends with UnsupportedAlgorithm (R189). -/
theorem exec_of_codecOf_none {i : Instr} (h : codecOf i = none) (s : State) :
    exec i s = .next (complete .unsupportedAlgorithm [] s) := by
  cases i with
  | unsup _ _ => rfl
  | _ => cases h

/-- An input above IN_CAP gives InputTooLarge, whatever the codec function (R190). -/
theorem execute_of_inCap_lt (f : List Byte → CodecResult) {s : State} (h : s.params.inCap < s.curN.toNat) :
    execute f s = (.inputTooLarge, []) := if_pos h

/-- Execute gives OK exactly when the input is within IN_CAP and the codec function gives an output within OUT_CAP (R188, R190). -/
theorem execute_eq_ok_iff (f : List Byte → CodecResult) (s : State) (r : List Byte) :
    execute f s = (.ok, r) ↔
      s.curN.toNat ≤ s.params.inCap ∧ f (cmdInput s) = .ok r ∧ r.length ≤ s.params.outCap := by
  unfold execute
  split
  next hin => simp [Nat.not_le.mpr hin]
  next hin =>
    split
    next hf => simp [hf]
    next hf => simp [hf]
    next q hf =>
      rw [hf, Except.ok.injEq]
      split
      next hout =>
        refine iff_of_false nofun ?_
        rintro ⟨-, rfl, hle⟩
        omega
      next hout =>
        constructor
        · rintro ⟨⟩
          exact ⟨Nat.not_lt.mp hin, rfl, Nat.not_lt.mp hout⟩
        · rintro ⟨-, rfl, -⟩
          rfl

/-- Only OK has the status code 0 (R210). -/
theorem statusCode_eq_zero_iff (st : Status) : statusCode st = 0#4 ↔ st = .ok := by
  cases st <;> decide

/-- After command end ERR is 0 exactly when the status is OK (R193, R210). -/
theorem CommandEnds.err_eq_zero_iff {t : State} {st : Status} {r : List Byte} (h : CommandEnds t st r) :
    t.err = 0#4 ↔ st = .ok := by
  rw [h.err, statusCode_eq_zero_iff]

/-- After an error OUT_LEN is 0 (R28, R193). -/
theorem CommandEnds.outLen_eq_zero {t : State} {st : Status} {r : List Byte} (h : CommandEnds t st r) (hst : st ≠ .ok) :
    t.outLen = 0#32 :=
  BitVec.eq_of_toNat_eq (h.outLen.trans (if_neg hst))

/-- Every command ends, and it ends OK with output `q` exactly when it has a codec, its input is within IN_CAP and its codec
function gives `q`, within OUT_CAP (R188 to R193). -/
theorem exec_ends (i : Instr) (s : State) (hp : s.params.wf) :
    ∃ t st r, exec i s = .next t ∧ CommandEnds t st r ∧
      ∀ q, (st = .ok ∧ r = q) ↔ ∃ f, codecOf i = some f ∧
        s.curN.toNat ≤ s.params.inCap ∧ f (cmdInput s) = .ok q ∧ q.length ≤ s.params.outCap := by
  obtain ⟨-, -, -, houtCap⟩ := hp
  cases hc : codecOf i with
  | none => exact ⟨_, _, _, exec_of_codecOf_none hc s, complete_ends _ _ s nofun, by simp⟩
  | some f =>
    refine ⟨_, _, _, exec_of_codecOf_some hc s, complete_ends _ _ s fun hok => ?_, fun q => ?_⟩
    · have hlen := (execute_bound f s).1 hok
      omega
    · rw [← Prod.mk.injEq, execute_eq_ok_iff]
      simp

/-! ### The registers' obligations -/

/-- Settles O12: the two phases of an IN_LEN write, and the first check of Execute. -/
theorem inLenStoresAsWritten : Obligations.InLenStoresAsWritten := by
  unfold Obligations.InLenStoresAsWritten
  refine ⟨rfl, fun s v => ⟨memRead32_reg _ s (by decide) (by decide), fun _ => rfl, fun hidle => ?_, fun hbusy => ?_,
    fun hbig w hcodec => ?_⟩⟩
  · rw [← writeReg_inLen_idle hidle]
    exact memWrite32_reg _ v s (by decide) (by decide)
  · conv_rhs => rw [← writeReg_inLen_busy hbusy v]
    exact memWrite32_reg _ v s (by decide) (by decide)
  · obtain ⟨f, hf⟩ := Option.isSome_iff_exists.mp hcodec
    refine ⟨_, (engineTurn_commandStart w s).trans (exec_of_codecOf_some hf _), ?_⟩
    rw [runCodec, execute_of_inCap_lt f hbig]
    rfl

/-- Settles O13: OUT_LEN's accesses by its register, its value while a command runs by the invariant, and its value after a
command by how the command ends. -/
theorem outLenIsReadOnly : Obligations.OutLenIsReadOnly := by
  unfold Obligations.OutLenIsReadOnly
  refine ⟨rfl, fun s hs => ?_⟩
  have hread : memRead32 0x00C#32 s = some (s.outLen, s) := memRead32_reg _ s (by decide) (by decide)
  refine ⟨fun v => memWrite32_reg _ v s (by decide) (by decide), hread, fun _ => rfl, fun hbusy => ?_, fun i => ?_⟩
  · obtain ⟨-, -, hlen, -⟩ := hs.busyClear hbusy
    rw [hread, hlen]
  · obtain ⟨t, st, r, hexec, hends, hok⟩ := exec_ends i s hs.params
    refine ⟨t, hexec, ⟨st, r, hends⟩, fun herr => ?_, fun herr => ?_, fun f q hf hin hq hout => ?_⟩
    · have hst := hends.err_eq_zero_iff.mp herr
      obtain ⟨f, hf, -, hr, -⟩ := (hok r).mp ⟨hst, rfl⟩
      exact ⟨f, r, hf, hr, hends.outLen.trans (if_pos hst)⟩
    · exact hends.outLen_eq_zero (mt hends.err_eq_zero_iff.mpr herr)
    · obtain ⟨hst, rfl⟩ := (hok q).mpr ⟨f, hf, hin, hq, hout⟩
      exact ⟨hends.err_eq_zero_iff.mpr hst, hends.outLen.trans (if_pos hst)⟩

/-- Settles O14: the write does not look at the phase, and the read puts EN below 31 zeros. -/
theorem irqEnKeepsBitZero : Obligations.IrqEnKeepsBitZero := by
  unfold Obligations.IrqEnKeepsBitZero
  refine ⟨rfl, fun s v => ⟨_, memWrite32_reg _ v s (by decide) (by decide), rfl, ?_⟩⟩
  rw [memRead32_reg _ _ (by decide) (by decide), ← zeros_append_bit_zero]
  rfl

/-- Settles O15: the offsets hold no register. -/
theorem reservedRegisterOffsets : Obligations.ReservedRegisterOffsets := by
  unfold Obligations.ReservedRegisterOffsets
  intro s off hlo hhi halign
  have hreg : off.toNat < 0x1000 := by omega
  refine ⟨?_, fun v => ?_⟩
  · rw [memRead32_reg off s hreg halign, regAt_reserved hlo]
    rfl
  · rw [memWrite32_reg off v s hreg halign, regAt_reserved hlo]
    rfl

/-- Settles O16: the bits the host reads are the two fields of the IRQ line. -/
theorem irqLineFollowsRegisters : Obligations.IrqLineFollowsRegisters := by
  unfold Obligations.IrqLineFollowsRegisters
  intro s
  rw [readReg_irqEn_getLsbD_zero, readReg, statusWord_getLsbD_one, irqLine]

end Sys2Proof.Machine
end

section
/-! SUPPORT. Laws of the windows of the block offset space (20_memory.md R60 to R65): what an access no window admits answers. -/

namespace Sys2Proof.Machine

/-- No window admits a byte access of the REG window (R65). -/
@[simp] theorem admits_one_reg (p : Params) (off : Nat) : admits p 1 (.reg off) = false := rfl

/-- The REG window admits a word access exactly at multiples of 4 (R65). -/
@[simp] theorem admits_four_reg (p : Params) (off : Nat) : admits p 4 (.reg off) = (off % 4 == 0) := rfl

/-- An offset outside the three windows admits no access (R62). -/
@[simp] theorem admits_hole (p : Params) (n : Nat) : admits p n .hole = false := rfl

/-- A byte access that is not admitted answers BusError, whether it reads or writes (R60, R61). -/
theorem byteAccess_busError {s : State} {off : Word} (h : admits s.params 1 (windowOf s.params off) = false) :
    memRead8 off s = none ∧ ∀ b, memWrite8 off b s = none :=
  ⟨by simpa [h] using memRead8_isSome off s, fun b => by simpa [h] using memWrite8_isSome off b s⟩

/-- A word access that is not admitted answers BusError, whether it reads or writes (R60, R61). -/
theorem wordAccess_busError {s : State} {off : Word} (h : admits s.params 4 (windowOf s.params off) = false) :
    memRead32 off s = none ∧ ∀ v, memWrite32 off v s = none :=
  ⟨by simpa [h] using memRead32_isSome off s, fun v => by simpa [h] using memWrite32_isSome off v s⟩

/-- The offset of a byte of a buffer, for a base and a capacity that keep the window inside 32 bits (R5, R62). -/
theorem toNat_bufferOffset {base cap i : Nat} (hbase : base ≤ outBase) (hcap : cap ≤ 2 ^ 30) (hi : i < cap) :
    (BitVec.ofNat 32 (base + i)).toNat = base + i := by
  unfold outBase at hbase
  rw [BitVec.toNat_ofNat, Nat.mod_eq_of_lt (by omega)]

/-! ### The windows' obligations -/

/-- Settles O17: a byte of a window lies at its base plus its index, and a hole admits no access of either size. -/
theorem windowMapAndHoles : Obligations.WindowMapAndHoles := by
  unfold Obligations.WindowMapAndHoles
  rintro s ⟨-, hin, -, hout⟩
  refine ⟨fun i hi => ?_, fun i hi => ?_, fun off hreg => windowOf_reg _ off hreg, fun off hreg hinBuf houtBuf => ?_⟩
  · exact windowOf_inBuf _ _ i (toNat_bufferOffset (by decide) hin hi) hi
  · exact windowOf_outBuf _ _ i hin (toNat_bufferOffset (by decide) hout hi) hi
  · have hhole : windowOf s.params off = .hole := windowOf_hole _ off (Nat.not_lt.mpr hreg) hinBuf houtBuf
    obtain ⟨hread8, hwrite8⟩ := byteAccess_busError (s := s) (off := off) (by rw [hhole, admits_hole])
    obtain ⟨hread32, hwrite32⟩ := wordAccess_busError (s := s) (off := off) (by rw [hhole, admits_hole])
    exact ⟨hread8, hread32, hwrite8, hwrite32⟩

/-- Settles O20: the REG window admits no byte access, and word accesses by the offset modulo 4. -/
theorem regWindowAccesses : Obligations.RegWindowAccesses := by
  unfold Obligations.RegWindowAccesses
  intro s off hreg
  have hwin : windowOf s.params off = .reg off.toNat := windowOf_reg _ off hreg
  obtain ⟨hread8, hwrite8⟩ := byteAccess_busError (s := s) (off := off) (by rw [hwin, admits_one_reg])
  refine ⟨hread8, hwrite8, fun halign => ?_, fun hmisaligned => ?_⟩
  · exact ⟨memRead32_reg off s hreg halign, fun v => memWrite32_reg off v s hreg halign⟩
  · apply wordAccess_busError
    rw [hwin, admits_four_reg, beq_eq_false_iff_ne]
    exact hmisaligned

end Sys2Proof.Machine
end

section
/-! SUPPORT. Laws of the command map (30_encoding.md R77 to R82): which bits of a command word select its command. -/

namespace Sys2Proof

/-- Bits 31:9 of a command word do not select anything (R77, R82): a word decodes as its low nine bits do. -/
theorem decodeWord_of_and_eq {w m : Word} (h : w &&& 0x1FF#32 = m) : decodeWord w = decodeWord m := by
  rw [← h, ← cmdWord_fields, decodeWord, decodeWord, cmdAlgoOf_cmdWord, cmdDirOf_cmdWord]

/-- No codec has an ALGO of 3 or more (R78, R189). -/
theorem resolve_of_three_le {algo : Byte} (h : 3 ≤ algo.toNat) (dir : Dir) : resolve algo dir = .unsup algo dir :=
  resolve_fields (.unsup algo dir) (decide_eq_true h)

/-- ALGO is the word's low byte as a number (R77). -/
theorem toNat_cmdAlgoOf (w : Word) : (cmdAlgoOf w).toNat = (w &&& 0xFF#32).toNat := by
  rw [cmdAlgoOf, BitVec.extractLsb'_toNat, Nat.shiftRight_zero, BitVec.toNat_and]
  exact (Nat.and_two_pow_sub_one_eq_mod w.toNat 8).symm

/-- Settles O1: a row with a codec is one word of nine bits, which evaluates to its command, and UNSUP is every other ALGO. -/
theorem commandMapDecodesLowNineBits : Obligations.CommandMapDecodesLowNineBits := by
  unfold Obligations.CommandMapDecodesLowNineBits
  refine fun w => ⟨decodeWord_of_and_eq, decodeWord_of_and_eq, decodeWord_of_and_eq, decodeWord_of_and_eq,
    decodeWord_of_and_eq, decodeWord_of_and_eq, fun halgo => ?_⟩
  rw [← toNat_cmdAlgoOf] at halgo
  rw [decodeWord, resolve_of_three_le halgo, cmdDirOf_eq, cmdAlgoOf]

end Sys2Proof
end

section
/-! SUPPORT. Laws of the records LZ.C writes (30_encoding.md R88, R89; 42_lz.md R141 to R147): their ranges and their number. -/

namespace Sys2Proof.Machine

/-- R89: a pure literal, or a match of 1 to MAX_MATCH bytes at most WINDOW back. -/
def Token.InRange (t : Token) : Prop :=
  (t.offset = 0#16 ∧ t.length = 0#8) ∨
    (1 ≤ t.offset.toNat ∧ t.offset.toNat ≤ 4096 ∧ 1 ≤ t.length.toNat ∧ t.length.toNat ≤ 255)

/-- What LZ.C takes at a position: nothing, or a match within WINDOW and MAX_MATCH (R141, R142, R145). -/
theorem chooseMatch_range (s : List Byte) (pos : Nat) :
    let m := chooseMatch Config.window Config.minMatch s pos
    m = (0, 0) ∨ (1 ≤ m.2 ∧ m.2 ≤ 4096 ∧ 1 ≤ m.1 ∧ m.1 ≤ 255) := by
  intro m
  rcases chooseMatch_spec Config.window Config.minMatch s pos with hnone | ⟨hbest, hmin, hmax⟩
  · exact .inl hnone
  · have hlen : 0 < m.1 := hmin
    obtain ⟨-, -, hoff⟩ := bestMatch_spec s (min Config.maxMatch (s.length - pos - 1)) pos (min Config.window pos)
    rw [← hbest] at hoff
    obtain ⟨h1, hn, -⟩ := hoff hlen
    exact .inr ⟨h1, hn.trans (min_le_left _ _), hlen, hmax.trans (min_le_left _ _)⟩

/-- A match leaves at least one input byte, the literal (R142). -/
theorem chooseMatch_lt (window minMatch : Nat) (s : List Byte) (pos : Nat) (hpos : pos < s.length) :
    pos + (chooseMatch window minMatch s pos).1 < s.length := by
  rcases chooseMatch_spec window minMatch s pos with hnone | ⟨-, -, hmax⟩
  · rw [hnone]; exact hpos
  · have := hmax.trans (min_le_right _ _)
    omega

/-- The 16-bit and 8-bit fields of a record hold what LZ.C takes at a position (R88, R89). -/
theorem inRange_chooseMatch (s : List Byte) (pos : Nat) (lit : Byte) :
    let m := chooseMatch Config.window Config.minMatch s pos
    Token.InRange { offset := BitVec.ofNat 16 m.2, length := BitVec.ofNat 8 m.1, literal := lit } := by
  intro m
  rcases chooseMatch_range s pos with hnone | ⟨hoff1, hoff, hlen1, hlen⟩
  · exact .inl (by simp [m, hnone])
  · refine .inr ?_
    rw [BitVec.toNat_ofNat, BitVec.toNat_ofNat, Nat.mod_eq_of_lt (hoff.trans_lt (by decide)),
      Nat.mod_eq_of_lt (hlen.trans_lt (by decide))]
    exact ⟨hoff1, hoff, hlen1, hlen⟩

/-- Every token of the token loop is in range (R89). -/
theorem inRange_of_mem_lzScan (s : List Byte) (fuel pos : Nat) {t : Token}
    (ht : t ∈ lzScan Config.window Config.minMatch s fuel pos) : t.InRange := by
  induction fuel generalizing pos with
  | zero => simp [lzScan] at ht
  | succ fuel ih =>
    rw [lzScan] at ht
    split at ht
    · obtain rfl | hrest := List.mem_cons.mp ht
      · exact inRange_chooseMatch s pos _
      · exact ih _ hrest
    · simp at ht

/-- Every token takes 1 to 256 input bytes (R142, R147). -/
theorem length_lzScan_bounds (s : List Byte) (fuel pos : Nat) (hfuel : s.length ≤ fuel + pos) :
    (lzScan Config.window Config.minMatch s fuel pos).length ≤ s.length - pos ∧
    s.length - pos ≤ 256 * (lzScan Config.window Config.minMatch s fuel pos).length := by
  induction fuel generalizing pos with
  | zero =>
    rw [lzScan, List.length_nil]
    omega
  | succ fuel ih =>
    rw [lzScan]
    split
    next hpos =>
      have hlt := chooseMatch_lt Config.window Config.minMatch s pos hpos
      have hlen : (chooseMatch Config.window Config.minMatch s pos).1 ≤ 255 := by
        rcases chooseMatch_range s pos with hnone | ⟨-, -, -, hlen⟩
        · simp [hnone]
        · exact hlen
      obtain ⟨hle, hge⟩ := ih (pos + (chooseMatch Config.window Config.minMatch s pos).1 + 1) (by omega)
      rw [List.length_cons]
      omega
    next hpos =>
      rw [List.length_nil]
      omega

/-- Settles O49: the ranges and the counts of the token loop, from position 0 on. -/
theorem lzTokensInRange : Obligations.LzTokensInRange := by
  unfold Obligations.LzTokensInRange
  intro s
  obtain ⟨hle, hge⟩ := length_lzScan_bounds s s.length 0 le_rfl
  exact ⟨fun t ht => inRange_of_mem_lzScan s _ _ ht, hle, hge, length_flatMap_tokenRecord _⟩

end Sys2Proof.Machine
end

section
/-! SUPPORT. Laws of the frame HUF.C writes (30_encoding.md R84 to R87; 41_huffman.md R117, R119): its fields, and NBITS as a
sum over the byte values. -/

namespace Sys2Proof.Machine

/-- A byte put below the bits before it (R8). -/
theorem toNat_append_byte {n : Nat} (x : BitVec n) (b : Byte) : (x ++ b).toNat = x.toNat * 2 ^ 8 + b.toNat := by
  rw [BitVec.toNat_append, ← Nat.shiftLeft_add_eq_or_of_lt b.isLt, Nat.shiftLeft_eq]

/-- The value of a big-endian word (R8, R67). -/
theorem toNat_be32 (b : List Byte) (i : Nat) : (be32 b i).toNat =
    (byteAt b i).toNat * 2 ^ 24 + (byteAt b (i + 1)).toNat * 2 ^ 16 + (byteAt b (i + 2)).toNat * 2 ^ 8 +
      (byteAt b (i + 3)).toNat := by
  rw [be32, toNat_append_byte, toNat_append_byte, toNat_append_byte]
  omega

/-- A count is the number of occurrences, for an input whose length fits 32 bits (R100, R105). -/
theorem toNat_freqAt_buildFreq (s : List Byte) (hs : s.length < 2 ^ 32) (v : Byte) :
    (freqAt (buildFreq s) v.toNat).toNat = s.count v := by
  rw [freqAt_buildFreq, BitVec.toNat_ofNat, Nat.mod_eq_of_lt (List.count_le_length.trans_lt hs)]

/-- Summing over the byte values in ascending order is summing over all bytes. -/
theorem sum_byteValues (g : Nat → Nat) : ((List.range 256).map g).sum = ∑ v : Byte, g v.toNat := by
  show ∑ i ∈ Finset.range 256, g i = _
  refine (Finset.sum_nbij' BitVec.toNat (BitVec.ofNat 8) ?_ ?_ ?_ ?_ ?_).symm
  · exact fun v _ => Finset.mem_range.mpr v.isLt
  · exact fun i _ => Finset.mem_univ _
  · exact fun v _ => by rw [BitVec.ofNat_toNat, BitVec.setWidth_eq]
  · exact fun i hi => Nat.mod_eq_of_lt (Finset.mem_range.mp hi)
  · exact fun v _ => rfl

/-- The number of code bits: every byte value adds the length of its code once for each occurrence (R117). -/
theorem length_encodeBits (code : CodeTable) (s : List Byte) :
    (encodeBits code s).length = ∑ v : Byte, s.count v * (codeOf code v).length := by
  rw [encodeBits, List.length_flatMap, Finset.sum_list_map_count]
  refine Finset.sum_subset (Finset.subset_univ _) fun v _ hv => ?_
  rw [List.count_eq_zero_of_not_mem (by simpa using hv), zero_smul]

/-- NBITS as the sum of count times code length (R117). -/
theorem sum_freqAt_mul_length (code : CodeTable) (s : List Byte) (hs : s.length < 2 ^ 32) :
    ((List.range 256).map fun v => (freqAt (buildFreq s) v).toNat * (codeOf code (BitVec.ofNat 8 v)).length).sum =
      (encodeBits code s).length := by
  rw [length_encodeBits, sum_byteValues]
  refine Finset.sum_congr rfl fun v _ => ?_
  rw [toNat_freqAt_buildFreq s hs, BitVec.ofNat_toNat, BitVec.setWidth_eq]

/-- HufCompress fails when its code bits do not fit NBITS (R117, R119). -/
theorem hufCompress_of_le {s : List Byte} (h : 2 ^ 32 ≤ (encodeBits (buildCodes (buildTree (buildFreq s))) s).length) :
    hufCompress s = .error .bitCountOverflow :=
  if_pos (by rw [Config.maxNbits]; omega)

/-- HufCompress gives its frame when its code bits fit NBITS (R87, R119). -/
theorem hufCompress_of_lt {s : List Byte} (h : (encodeBits (buildCodes (buildTree (buildFreq s))) s).length < 2 ^ 32) :
    hufCompress s = .ok (serFreq (buildFreq s) ++
      (putBe32 (BitVec.ofNat 32 (encodeBits (buildCodes (buildTree (buildFreq s))) s).length) ++
        pack (encodeBits (buildCodes (buildTree (buildFreq s))) s))) := by
  rw [← List.append_assoc]
  exact if_neg (by rw [Config.maxNbits]; omega)

/-- A frame read back: the counts, NBITS at byte 1024, and the code bytes from byte 1028 on (R84, R85, R87). -/
theorem frame_fields (freq : FreqTable) (nb : Word) (code : List Byte) (hf : freq.length = 256) :
    let r := serFreq freq ++ (putBe32 nb ++ code)
    r.length = 1028 + code.length ∧ (∀ v, v < 256 → be32 r (4 * v) = freqAt freq v) ∧ be32 r 1024 = nb ∧
      r.drop 1028 = code := by
  have hlen : (serFreq freq).length = 1024 := by rw [length_serFreq, hf]
  refine ⟨?_, fun v hv => be32_serFreq freq _ v (hf ▸ hv), ?_, ?_⟩
  · simp only [List.length_append, hlen, length_putBe32]
    omega
  · rw [show 1024 = (serFreq freq).length + 0 by rw [hlen], be32_append_right, be32_putBe32_append]
  · rw [← List.append_assoc]
    exact List.drop_left' (by rw [List.length_append, hlen, length_putBe32])

/-- Settles O57: the sum is the number of code bits, and the frame's fields read back as they were written. -/
theorem hufFrameLayout : Obligations.HufFrameLayout := by
  unfold Obligations.HufFrameLayout
  intro s hs code nbits
  have hnbits : nbits = (encodeBits code s).length := sum_freqAt_mul_length code s hs
  rw [hnbits]
  refine ⟨hufCompress_of_le, fun hlt => ⟨_, hufCompress_of_lt hlt, ?_⟩, toNat_be32⟩
  obtain ⟨hlen, hcounts, hnb, hcode⟩ := frame_fields (buildFreq s) (BitVec.ofNat 32 (encodeBits code s).length)
    (pack (encodeBits code s)) (length_buildFreq s)
  exact ⟨hlen.trans (by rw [length_pack]), hcounts, by rw [hnb, BitVec.toNat_ofNat, Nat.mod_eq_of_lt hlt], hcode⟩

end Sys2Proof.Machine
end

section
/-! SUPPORT. An empty input (41_huffman.md R121; 44_registry.md R197), and the packed bits (R115, R116). -/

namespace Sys2Proof.Machine

/-! ### An empty input -/

/-- No byte is input when CUR_N is 0 (R80). -/
theorem cmdInput_of_curN_zero {s : State} (h : s.curN = 0#32) : cmdInput s = [] := by
  rw [cmdInput, h]
  rfl

/-- A codec whose function gives an output for the empty input ends OK with it, when it is no longer than the 1028 bytes every
OUT_BUF holds (R5, R188, R190). -/
theorem runCodec_ok_of_curN_zero {f : List Byte → CodecResult} {s : State} {r : List Byte} (hp : s.params.wf) (hn : s.curN = 0#32)
    (hf : f [] = .ok r) (hr : r.length ≤ 1028) : CommandEnds (runCodec f s) .ok r := by
  obtain ⟨-, -, -, hok⟩ := runCodec_spec f s hp
  obtain ⟨-, -, hout, -⟩ := hp
  exact (hok (by simp [hn]) r (by rw [cmdInput_of_curN_zero hn, hf])).2 (hr.trans hout)

/-- A codec whose function finds the empty input malformed ends with MalformedPayload (R190). -/
theorem runCodec_malformed_of_curN_zero {f : List Byte → CodecResult} {s : State} (hp : s.params.wf) (hn : s.curN = 0#32)
    (hf : f [] = .error .malformed) : CommandEnds (runCodec f s) .malformedPayload [] := by
  obtain ⟨-, hmalformed, -⟩ := runCodec_spec f s hp
  exact hmalformed (by simp [hn]) (by rw [cmdInput_of_curN_zero hn, hf])

/-- The frequency block of an empty input (R103, R121). -/
theorem serFreq_replicate_zero (n : Nat) : serFreq (List.replicate n 0#32) = List.replicate (4 * n) 0#8 := by
  induction n with
  | zero => rfl
  | succ n ih => rw [List.replicate_succ, serFreq, List.flatMap_cons, ← serFreq, ih]; rfl

/-- Every count of the table of an empty input is 0. -/
theorem freqAt_replicate_zero (n v : Nat) : freqAt (List.replicate n 0#32) v = 0#32 := by
  rw [freqAt, List.getD_eq_getElem?_getD, List.getElem?_replicate]
  split <;> rfl

/-- The counts of the table of an empty input sum to 0. -/
theorem freqTotal_replicate_zero (n : Nat) : freqTotal (List.replicate n 0#32) = 0 := by simp [freqTotal]

/-- The table of an empty input has no leaf (R106). -/
theorem presentSyms_replicate_zero (n : Nat) : presentSyms (List.replicate n 0#32) = [] :=
  List.eq_nil_iff_forall_not_mem.mpr fun v hv => (mem_presentSyms _ v).mp hv (freqAt_replicate_zero n v.toNat)

/-- The frame of an empty input is its frequency block and NBITS = 0 (R121). -/
theorem emptyFrame_eq : serFreq (List.replicate 256 0#32) ++ (putBe32 0#32 ++ []) = List.replicate 1028 0#8 := by
  rw [serFreq_replicate_zero, List.append_nil, show putBe32 0#32 = List.replicate 4 0#8 by rfl, List.replicate_append_replicate]

/-- R121: the frame HufCompress gives for an empty input. -/
theorem hufCompress_nil : hufCompress [] = .ok (List.replicate 1028 0#8) := by
  rw [← emptyFrame_eq]
  exact hufCompress_of_lt (s := []) (by decide)

/-- The empty tree decodes no bits to no bytes (R120). -/
theorem decodeBitString_nil_of_root_none {t : Arena} (h : t.root = none) : decodeBitString t [] = .ok [] := by
  simp [decodeBitString, h]

/-- R121: the frame of an empty input decodes to it: the tree is empty, there are no bits, and the counts sum to 0. -/
theorem hufDecompress_emptyFrame : hufDecompress (List.replicate 1028 0#8) = .ok [] := by
  have hdecode := decodeBitString_nil_of_root_none (buildTree_root_none _ (presentSyms_replicate_zero 256))
  rw [← emptyFrame_eq, hufDecompress_frame _ _ _ List.length_replicate le_rfl, freqTotal_replicate_zero]
  exact congrArg (fun r => Except.bind r (checkTotal 0)) hdecode

/-- Settles O34: what each codec function gives for no bytes, in the frame of R188. -/
theorem emptyInputIsNoError : Obligations.EmptyInputIsNoError := by
  unfold Obligations.EmptyInputIsNoError
  intro s hp hn
  refine ⟨⟨_, rfl, runCodec_ok_of_curN_zero hp hn hufCompress_nil (by rw [List.length_replicate])⟩, ?_,
    ⟨_, rfl, runCodec_malformed_of_curN_zero hp hn rfl⟩, hufCompress_nil, hufDecompress_emptyFrame⟩
  rintro i (rfl | rfl | rfl | rfl) <;> exact ⟨_, rfl, runCodec_ok_of_curN_zero hp hn rfl (Nat.zero_le _)⟩

/-! ### The packed bits -/

/-- A bit of a bit string, and the padding 0 past its end (R86). -/
theorem bitAt_eq_dite (bits : Bits) (j : Nat) : bitAt bits j = if h : j < bits.length then bits[j] else false := by
  split
  · exact List.getD_eq_getElem _ _ _
  · exact List.getD_eq_default _ _ (by omega)

/-- Unpack reads bit j at bit position 7 - (j mod 8) of byte floor(j/8) (R116). -/
theorem bitAt_unpack (b : List Byte) {nb j : Nat} (hj : j < nb) :
    bitAt (unpack b nb) j = (byteAt b (j / 8)).getLsbD (7 - j % 8) := by
  rw [bitAt, List.getD_eq_getElem _ _ (by rwa [length_unpack])]
  simp [unpack]

/-- Settles O56: the laws of pack and unpack, bit by bit. -/
theorem packPlacesBitsMsbFirst : Obligations.PackPlacesBitsMsbFirst := by
  unfold Obligations.PackPlacesBitsMsbFirst
  exact fun bits => ⟨length_pack bits, fun j _ => (pack_bit bits j).trans (bitAt_eq_dite bits j),
    fun b nb => ⟨length_unpack b nb, fun j hj => bitAt_unpack b hj⟩, unpack_pack_append bits⟩

end Sys2Proof.Machine
end

section
/-! SUPPORT. The order in which the tree builder takes live nodes, and what one merge does (41_huffman.md R108, R109). -/

namespace Sys2Proof.Machine

/-! ### The least live node -/

/-- The pair (weight, arena index) of R108, in lexicographic order. -/
def rank (nodes : List Node) (i : Nat) : Nat ×ₗ Nat := toLex ((nodeAt nodes i).weight.toNat, i)

/-- `lighter` is the order of the pairs (R108). -/
theorem lighter_iff (nodes : List Node) (i j : Nat) : lighter nodes i j = true ↔ rank nodes i < rank nodes j := by
  simp [lighter, rank, Prod.Lex.toLex_lt_toLex, BitVec.lt_def, BitVec.toNat_inj]

/-- The node `lightest` takes has the least pair (R108). -/
theorem rank_le_of_lightest {nodes : List Node} {live : List Nat} {a b : Nat} (ha : lightest nodes live = some a)
    (hb : b ∈ live) : rank nodes a ≤ rank nodes b := by
  induction live generalizing a with
  | nil => simp at hb
  | cons i rest ih =>
    rw [lightest] at ha
    split at ha
    next hnone =>
      rw [lightest_eq_none hnone, List.mem_singleton] at hb
      rw [← Option.some.inj ha, hb]
    next j hj =>
      split at ha <;> rw [← Option.some.inj ha]
      next hlt =>
        obtain rfl | hrest := List.mem_cons.mp hb
        · exact le_rfl
        · exact ((lighter_iff _ _ _).mp hlt).le.trans (ih hj hrest)
      next hge =>
        obtain rfl | hrest := List.mem_cons.mp hb
        · exact not_lt.mp (mt (lighter_iff _ _ _).mpr hge)
        · exact ih hj hrest

/-- Every other live node comes after it: indices are distinct, so no two pairs are equal (R108). -/
theorem rank_lt_of_lightest {nodes : List Node} {live : List Nat} {a b : Nat} (ha : lightest nodes live = some a)
    (hb : b ∈ live) (hne : b ≠ a) : rank nodes a < rank nodes b :=
  (rank_le_of_lightest ha hb).lt_of_ne fun h => hne (congrArg (fun p => (ofLex p).2) h).symm

/-! ### One merge -/

/-- Writing PARENT of an arena entry changes PARENT of that entry (R109). -/
theorem nodeAt_setParent (p i j : Nat) {nodes : List Node} (hj : j < nodes.length) :
    nodeAt (setParent p i nodes) j = if i = j then { nodeAt nodes j with parent := some p } else nodeAt nodes j := by
  have hj' : j < (setParent p i nodes).length := by rwa [length_setParent]
  rw [nodeAt, nodeAt, List.getD_eq_getElem _ _ hj, List.getD_eq_getElem _ _ hj']
  exact List.getElem_modify _ _ _ _ _

/-- What a merge leaves in an old entry: the new PARENT in the two merged ones, nothing new in the others (R109). -/
theorem nodeAt_mergeNodes (a b : Nat) {nodes : List Node} {i : Nat} (hi : i < nodes.length) :
    nodeAt (mergeNodes nodes a b) i =
      if a = i ∨ b = i then { nodeAt nodes i with parent := some nodes.length } else nodeAt nodes i := by
  have hi' : i < (setParent nodes.length a nodes).length := by rwa [length_setParent]
  have happend : nodeAt (mergeNodes nodes a b) i = nodeAt (setParent nodes.length b (setParent nodes.length a nodes)) i :=
    List.getD_append _ _ _ _ (by rwa [length_setParent])
  rw [happend, nodeAt_setParent _ _ _ hi', nodeAt_setParent _ _ _ hi]
  by_cases ha : a = i <;> by_cases hb : b = i <;> simp [ha, hb]

/-! ### The merging loop -/

/-- With at most one live node the loop stops (R108). -/
theorem mergeLoop_of_length_le_one (fuel : Nat) (nodes : List Node) {live : List Nat} (h : live.length ≤ 1) :
    mergeLoop fuel nodes live = (nodes, live) := by
  match fuel, live, h with
  | 0, _, _ => rfl
  | _ + 1, [], _ => rfl
  | _ + 1, [i], _ => simp [mergeLoop, lightest]

/-- While a node is live, there is a least one (R108). -/
theorem exists_lightest (nodes : List Node) {live : List Nat} (h : live ≠ []) : ∃ a, lightest nodes live = some a :=
  Option.ne_none_iff_exists'.mp (mt lightest_eq_none h)

/-- One pass of the loop: the two nodes it takes are merged (R108, R109). -/
theorem mergeLoop_succ (fuel : Nat) {nodes : List Node} {live : List Nat} {a b : Nat} (ha : lightest nodes live = some a)
    (hb : lightest nodes (live.erase a) = some b) :
    mergeLoop (fuel + 1) nodes live = mergeLoop fuel (mergeNodes nodes a b) ((live.erase a).erase b ++ [nodes.length]) := by
  simp only [mergeLoop, ha, hb]

/-- A merge takes one off the number of live nodes (R109). -/
theorem length_live_merge {live : List Nat} {a b : Nat} (ha : a ∈ live) (hb : b ∈ live.erase a) (n : Nat) :
    ((live.erase a).erase b ++ [n]).length + 1 = live.length := by
  have hpos := List.length_pos_of_mem hb
  rw [List.length_append, List.length_erase_of_mem hb, List.length_singleton, Nat.sub_add_cancel hpos,
    List.length_erase_add_one ha]

/-- The loop's induction: what every merge of two live nodes keeps holds at the end, and then one node is live if any was. -/
theorem mergeLoop_induction {P : List Node → List Nat → Prop}
    (hmerge : ∀ {nodes live a b}, P nodes live → a ∈ live → b ∈ live.erase a →
      P (mergeNodes nodes a b) ((live.erase a).erase b ++ [nodes.length]))
    (fuel : Nat) {nodes : List Node} {live : List Nat} (h : P nodes live) (hfuel : live.length ≤ fuel + 1) :
    P (mergeLoop fuel nodes live).1 (mergeLoop fuel nodes live).2 ∧
      (mergeLoop fuel nodes live).2.length = min live.length 1 := by
  induction fuel generalizing nodes live with
  | zero => exact ⟨h, (min_eq_left hfuel).symm⟩
  | succ fuel ih =>
    by_cases hone : live.length ≤ 1
    · rw [mergeLoop_of_length_le_one _ _ hone]
      exact ⟨h, (min_eq_left hone).symm⟩
    · obtain ⟨a, ha⟩ := exists_lightest nodes (live := live) (List.ne_nil_of_length_pos (by omega))
      have hamem := lightest_mem ha
      have hrest : (live.erase a).length + 1 = live.length := List.length_erase_add_one hamem
      obtain ⟨b, hb⟩ := exists_lightest nodes (live := live.erase a) (List.ne_nil_of_length_pos (by omega))
      have hbmem := lightest_mem hb
      have hlen := length_live_merge hamem hbmem nodes.length
      rw [mergeLoop_succ fuel ha hb]
      obtain ⟨hP, hend⟩ := ih (hmerge h hamem hbmem) (by omega)
      exact ⟨hP, by omega⟩

/-- The tree builder ends with one live node if it had a leaf (R109). -/
theorem length_live_buildTree (freq : FreqTable) : (buildTree freq).live.length = min (leafNodes freq).length 1 := by
  obtain ⟨-, h⟩ := mergeLoop_induction (P := fun _ _ => True) (fun _ _ _ => trivial) (leafNodes freq).length
    (nodes := leafNodes freq) (live := List.range (leafNodes freq).length) trivial (by simp)
  rwa [List.length_range] at h

/-- Settles O53: the order of the pairs, one pass of the loop, one merge, and the loop's end. -/
theorem mergeTakesLeastWeightThenIndex : Obligations.MergeTakesLeastWeightThenIndex := by
  unfold Obligations.MergeTakesLeastWeightThenIndex
  refine ⟨fun nodes live => ⟨exists_lightest nodes, fun a ha => ⟨lightest_mem ha, fun b hb hne => ?_⟩,
    fun fuel a b => mergeLoop_succ fuel, fun fuel => mergeLoop_of_length_le_one fuel nodes, fun a b ha hb =>
    ⟨length_mergeNodes nodes a b, nodeAt_mergeNodes_new nodes a b, ?_, ?_, fun i hi => ?_⟩⟩,
    fun freq _ => ⟨rfl, rfl, length_live_buildTree freq⟩⟩
  · exact Prod.Lex.toLex_lt_toLex.mp (rank_lt_of_lightest ha hb hne)
  · rw [nodeAt_mergeNodes a b ha, if_pos (.inl rfl)]
  · rw [nodeAt_mergeNodes a b hb, if_pos (.inr rfl)]
  · obtain ⟨hkind, hweight⟩ := nodeAt_mergeNodes_old nodes a b i hi
    refine ⟨hkind, hweight, fun hia hib => ?_⟩
    rw [nodeAt_mergeNodes a b hi, if_neg (by simp [hia.symm, hib.symm])]

end Sys2Proof.Machine
end

section
/-! SUPPORT. The shape and the weights of the tree BuildTree builds (41_huffman.md R106, R107, R110). -/

namespace Sys2Proof.Machine

/-! ### Internal nodes -/

/-- Entry `j` is an internal node over two earlier entries, with the exact sum of their weights, below 2^40 (R106, R110). -/
def IsExactSum (nodes : List Node) (j : Nat) : Prop :=
  ∃ a b, (nodeAt nodes j).kind = .inner a b ∧ a < j ∧ b < j ∧ a ≠ b ∧
    (nodeAt nodes j).weight.toNat = (nodeAt nodes a).weight.toNat + (nodeAt nodes b).weight.toNat ∧
    (nodeAt nodes j).weight.toNat < 2 ^ 40

/-- A merge leaves the internal nodes there are as they are. -/
theorem IsExactSum.mergeNodes {nodes : List Node} {j : Nat} (h : IsExactSum nodes j) (hj : j < nodes.length) (a b : Nat) :
    IsExactSum (mergeNodes nodes a b) j := by
  obtain ⟨l, r, hkind, hl, hr, hne, hweight, hlt⟩ := h
  obtain ⟨hkindj, hweightj⟩ := nodeAt_mergeNodes_old nodes a b j hj
  obtain ⟨-, hweightl⟩ := nodeAt_mergeNodes_old nodes a b l (hl.trans hj)
  obtain ⟨-, hweightr⟩ := nodeAt_mergeNodes_old nodes a b r (hr.trans hj)
  exact ⟨l, r, hkindj.trans hkind, hl, hr, hne, by rw [hweightj, hweightl, hweightr, hweight], by rwa [hweightj]⟩

/-- The weight of the entry a merge creates, where the addition does not wrap (R110). -/
theorem toNat_weight_mergeNodes_new {nodes : List Node} {a b : Nat}
    (h : (nodeAt nodes a).weight.toNat + (nodeAt nodes b).weight.toNat < 2 ^ 40) :
    (nodeAt (mergeNodes nodes a b) nodes.length).weight.toNat =
      (nodeAt nodes a).weight.toNat + (nodeAt nodes b).weight.toNat := by
  rw [nodeAt_mergeNodes_new]
  exact BitVec.toNat_add_of_lt (h.trans (by decide))

/-- The entry a merge creates is such an internal node (R109). -/
theorem isExactSum_mergeNodes_new {nodes : List Node} {a b : Nat} (ha : a < nodes.length) (hb : b < nodes.length) (hne : a ≠ b)
    (h : (nodeAt nodes a).weight.toNat + (nodeAt nodes b).weight.toNat < 2 ^ 40) :
    IsExactSum (mergeNodes nodes a b) nodes.length := by
  obtain ⟨-, hweighta⟩ := nodeAt_mergeNodes_old nodes a b a ha
  obtain ⟨-, hweightb⟩ := nodeAt_mergeNodes_old nodes a b b hb
  have hweight := toNat_weight_mergeNodes_new h
  exact ⟨a, b, by rw [nodeAt_mergeNodes_new], ha, hb, hne, by rw [hweight, hweighta, hweightb], by rwa [hweight]⟩

/-! ### The live weight -/

/-- The sum of the weights of the live nodes. -/
def liveWeight (nodes : List Node) (live : List Nat) : Nat := (live.map fun i => (nodeAt nodes i).weight.toNat).sum

/-- One live node, and the others. -/
theorem liveWeight_erase (nodes : List Node) {live : List Nat} {a : Nat} (ha : a ∈ live) :
    (nodeAt nodes a).weight.toNat + liveWeight nodes (live.erase a) = liveWeight nodes live :=
  List.sum_map_erase (fun i => (nodeAt nodes i).weight.toNat) ha

/-- The two nodes a merge takes, and the live nodes it leaves. -/
theorem liveWeight_erase_erase (nodes : List Node) {live : List Nat} {a b : Nat} (ha : a ∈ live) (hb : b ∈ live.erase a) :
    (nodeAt nodes a).weight.toNat + (nodeAt nodes b).weight.toNat + liveWeight nodes ((live.erase a).erase b) =
      liveWeight nodes live := by
  rw [Nat.add_assoc, liveWeight_erase nodes hb, liveWeight_erase nodes ha]

/-- A merge does not change the weight of the old entries. -/
theorem liveWeight_mergeNodes {nodes : List Node} {live : List Nat} (a b : Nat) (h : ∀ i ∈ live, i < nodes.length) :
    liveWeight (mergeNodes nodes a b) live = liveWeight nodes live := by
  rw [liveWeight, liveWeight]
  exact congrArg List.sum (List.map_congr_left fun i hi => by rw [(nodeAt_mergeNodes_old nodes a b i (h i hi)).2])

/-! ### The invariant of the merging loop -/

/-- What the merging loop keeps: the leaves it began with, exact internal nodes after them, and distinct live entries whose weights
sum to less than 2^40. -/
structure MergeInv (leaves nodes : List Node) (live : List Nat) : Prop where
  size  : leaves.length ≤ nodes.length
  leaf  : ∀ j < leaves.length,
    (nodeAt nodes j).kind = (nodeAt leaves j).kind ∧ (nodeAt nodes j).weight = (nodeAt leaves j).weight
  inner : ∀ j, leaves.length ≤ j → j < nodes.length → IsExactSum nodes j
  nodup : live.Nodup
  bound : ∀ i ∈ live, i < nodes.length
  total : liveWeight nodes live < 2 ^ 40

/-- Every merge of two live nodes keeps the invariant: the live weight stays the same (R110). -/
theorem MergeInv.merge {leaves nodes : List Node} {live : List Nat} {a b : Nat} (h : MergeInv leaves nodes live) (ha : a ∈ live)
    (hb : b ∈ live.erase a) : MergeInv leaves (mergeNodes nodes a b) ((live.erase a).erase b ++ [nodes.length]) := by
  have hsum := liveWeight_erase_erase nodes ha hb
  have htotal := h.total
  have hsub : ∀ i ∈ (live.erase a).erase b, i < nodes.length := fun i hi =>
    h.bound i (List.mem_of_mem_erase (List.mem_of_mem_erase hi))
  have hlt : (nodeAt nodes a).weight.toNat + (nodeAt nodes b).weight.toNat < 2 ^ 40 := by omega
  have hlen := length_mergeNodes nodes a b
  refine ⟨h.size.trans (by omega), fun j hj => ?_, fun j hleaf hj => ?_, ?_, fun i hi => ?_, ?_⟩
  · obtain ⟨hkind, hweight⟩ := nodeAt_mergeNodes_old nodes a b j (hj.trans_le h.size)
    rw [hkind, hweight]
    exact h.leaf j hj
  · obtain hold | rfl : j < nodes.length ∨ j = nodes.length := by omega
    · exact (h.inner j hleaf hold).mergeNodes hold a b
    · obtain ⟨hne, hb'⟩ := h.nodup.mem_erase_iff.mp hb
      exact isExactSum_mergeNodes_new (h.bound a ha) (h.bound b hb') hne.symm hlt
  · refine List.Nodup.append ((h.nodup.erase a).erase b) (List.nodup_singleton _) ?_
    rw [List.disjoint_singleton]
    exact fun hmem => (hsub _ hmem).false
  · obtain hold | hnew := List.mem_append.mp hi
    · exact (hsub i hold).trans (by omega)
    · rw [List.mem_singleton.mp hnew, hlen]
      exact Nat.lt_succ_self _
  · have hnew : liveWeight (mergeNodes nodes a b) [nodes.length] = _ :=
      List.sum_singleton.trans (toNat_weight_mergeNodes_new hlt)
    rw [liveWeight, List.map_append, List.sum_append, ← liveWeight, ← liveWeight, liveWeight_mergeNodes a b hsub, hnew]
    omega

/-! ### The leaves -/

/-- The byte values with a nonzero count, as numbers: `presentSyms` before the conversion (R107). -/
def presentValues (freq : FreqTable) : List Nat := (List.range 256).filter fun v => freqAt freq v ≠ 0#32

/-- There are as many of them as leaves. -/
theorem length_presentValues (freq : FreqTable) : (presentValues freq).length = (presentSyms freq).length := by
  simp [presentValues, presentSyms]

/-- The entry of a leaf (R107, R109). -/
theorem nodeAt_leafNodes (freq : FreqTable) {j : Nat} (hj : j < (presentValues freq).length) :
    nodeAt (leafNodes freq) j = { weight := (freqAt freq (presentValues freq)[j]).setWidth 64,
                                  kind := .leaf (BitVec.ofNat 8 (presentValues freq)[j]), parent := none } := by
  rw [nodeAt, List.getD_eq_getElem _ _ (by rwa [length_leafNodes, ← length_presentValues])]
  exact List.getElem_map _

/-- The weight of a leaf is its count (R107). -/
theorem toNat_weight_leafNodes (freq : FreqTable) {j : Nat} (hj : j < (presentValues freq).length) :
    (nodeAt (leafNodes freq) j).weight.toNat = (freqAt freq (presentValues freq)[j]).toNat := by
  rw [nodeAt_leafNodes freq hj]
  exact BitVec.toNat_setWidth_of_le (by decide)

/-- The counts of a table sum to less than 2^40: at most 256 leaves, each below 2^32 (R104, R110). -/
theorem liveWeight_leafNodes_lt (freq : FreqTable) :
    liveWeight (leafNodes freq) (List.range (leafNodes freq).length) < 2 ^ 40 := by
  have hle : liveWeight (leafNodes freq) (List.range (leafNodes freq).length) ≤ (leafNodes freq).length • (2 ^ 32 - 1) := by
    refine (List.sum_le_card_nsmul _ (2 ^ 32 - 1) fun w hw => ?_).trans_eq (by simp)
    obtain ⟨j, hj, rfl⟩ := List.mem_map.mp hw
    rw [List.mem_range, length_leafNodes, ← length_presentValues] at hj
    rw [toNat_weight_leafNodes freq hj]
    have := (freqAt freq (presentValues freq)[j]).isLt
    omega
  have hcount := (length_leafNodes freq).trans_le (presentSyms_length_le freq)
  rw [smul_eq_mul] at hle
  omega

/-- The leaves, all live, meet the invariant. -/
theorem mergeInv_leafNodes (freq : FreqTable) :
    MergeInv (leafNodes freq) (leafNodes freq) (List.range (leafNodes freq).length) where
  size := le_rfl
  leaf _ _ := ⟨rfl, rfl⟩
  inner _ hleaf hj := absurd hj (Nat.not_lt.mpr hleaf)
  nodup := List.nodup_range
  bound _ hi := List.mem_range.mp hi
  total := liveWeight_leafNodes_lt freq

/-- The tree BuildTree builds meets the invariant. -/
theorem mergeInv_buildTree (freq : FreqTable) : MergeInv (leafNodes freq) (buildTree freq).nodes (buildTree freq).live :=
  (mergeLoop_induction MergeInv.merge _ (mergeInv_leafNodes freq) (by simp)).1

/-- R110: a tree with `k` leaves has 2k - 1 nodes, and the last one is the root. -/
theorem length_nodes_buildTree (freq : FreqTable) (h : presentSyms freq ≠ []) :
    (buildTree freq).nodes.length + 1 = 2 * (presentSyms freq).length ∧
      (buildTree freq).root = some ((buildTree freq).nodes.length - 1) := by
  obtain ⟨t, hroot, -, hsyms, hsize⟩ := buildTree_spec freq h
  exact ⟨by rw [← hsize, PTree.size_eq, hsyms.length_eq], hroot⟩

/-- Settles O54: the size of the tree, and the invariant of the merging loop read at its end. -/
theorem treeShapeAndWeights : Obligations.TreeShapeAndWeights := by
  unfold Obligations.TreeShapeAndWeights
  intro freq _ present k t
  have hk : k = (presentSyms freq).length := length_presentValues freq
  refine ⟨fun hzero => buildTree_root_none freq (List.eq_nil_of_length_eq_zero (hk ▸ hzero)), fun hpos => ?_⟩
  obtain ⟨hlen, hroot⟩ : t.nodes.length + 1 = 2 * _ ∧ t.root = some (t.nodes.length - 1) :=
    length_nodes_buildTree freq (List.ne_nil_of_length_pos (hk ▸ hpos))
  have hcount := presentSyms_length_le freq
  have hleaves : (leafNodes freq).length = k := (length_leafNodes freq).trans hk.symm
  have hnodes : t.nodes.length = 2 * k - 1 := by omega
  have hinv : MergeInv (leafNodes freq) t.nodes t.live := mergeInv_buildTree freq
  refine ⟨hnodes, hroot.trans (congrArg some (by omega)), by omega, fun j hj => ?_, fun j hleaf hj => ?_⟩
  · obtain ⟨hkind, hweight⟩ := hinv.leaf j (hleaves ▸ hj)
    exact ⟨hkind.trans (by rw [nodeAt_leafNodes freq hj]; rfl), (congrArg _ hweight).trans (toNat_weight_leafNodes freq hj)⟩
  · exact hinv.inner j (hleaves ▸ hleaf) (hnodes ▸ hj)

end Sys2Proof.Machine
end

section
/-! SUPPORT. The code table of the tree BuildTree builds (41_huffman.md R112, R113): paths, their
lengths, and that none begins another. -/

namespace Sys2Proof.Machine

/-! ### The paths of a tree -/

/-- Every tree has a leaf. -/
theorem PTree.length_syms_pos (t : PTree) : 0 < t.syms.length := by
  have := t.size_eq
  omega

/-- A path goes down once for each leaf it leaves behind, at least (R112). -/
theorem PTree.length_lt_of_mem_codes {t : PTree} {v : Byte} {p : Bits} (h : (v, p) ∈ t.codes) : p.length < t.syms.length := by
  induction t generalizing p with
  | leaf u =>
    rw [codes, List.mem_singleton, Prod.mk.injEq] at h
    rw [h.2]
    exact Nat.one_pos
  | node l r ihl ihr =>
    have hl := l.length_syms_pos
    have hr := r.length_syms_pos
    simp only [codes, List.mem_append, List.mem_map, Prod.mk.injEq, Prod.exists] at h
    rw [syms, List.length_append]
    obtain ⟨_, q, hq, rfl, rfl⟩ | ⟨_, q, hq, rfl, rfl⟩ := h
    · have := ihl hq
      rw [List.length_cons]
      omega
    · have := ihr hq
      rw [List.length_cons]
      omega

/-- A path ends at a leaf, which has no children: no path begins another leaf's path (R112). -/
theorem PTree.eq_of_prefix {t : PTree} {u v : Byte} {p q : Bits} (hu : (u, p) ∈ t.codes) (hv : (v, q) ∈ t.codes)
    (h : p <+: q) : u = v := by
  induction t generalizing p q with
  | leaf w =>
    rw [codes, List.mem_singleton, Prod.mk.injEq] at hu hv
    exact hu.1.trans hv.1.symm
  | node l r ihl ihr =>
    simp only [codes, List.mem_append, List.mem_map, Prod.mk.injEq, Prod.exists] at hu hv
    obtain ⟨_, p, hp, rfl, rfl⟩ | ⟨_, p, hp, rfl, rfl⟩ := hu <;>
      obtain ⟨_, q, hq, rfl, rfl⟩ | ⟨_, q, hq, rfl, rfl⟩ := hv <;>
      obtain ⟨hbit, hprefix⟩ := List.cons_prefix_cons.mp h
    · exact ihl hp hq hprefix
    · cases hbit
    · cases hbit
    · exact ihr hp hq hprefix

/-! ### The table of a tree -/

/-- The codes BuildCodes gives: "0" for a tree that is one leaf, the paths for any other (R112, R113). -/
def PTree.table : PTree → List (Byte × Bits)
  | .leaf v => [(v, [false])]
  | .node l r => (PTree.node l r).codes

/-- The table has one code for each leaf (R112, R113). -/
theorem PTree.table_syms (t : PTree) : t.table.map (·.1) = t.syms := by
  cases t with
  | leaf v => rfl
  | node l r => exact PTree.codes_syms _

/-- Code lengths (R112, R113). -/
theorem PTree.length_bounds_of_mem_table {t : PTree} {v : Byte} {p : Bits} (h : (v, p) ∈ t.table) :
    1 ≤ p.length ∧ p.length ≤ max 1 (t.syms.length - 1) := by
  cases t with
  | leaf u =>
    rw [table, List.mem_singleton, Prod.mk.injEq] at h
    rw [h.2]
    exact ⟨le_rfl, le_max_left _ _⟩
  | node l r =>
    have hlt := PTree.length_lt_of_mem_codes h
    refine ⟨?_, by omega⟩
    cases p with
    | nil => simp [table, codes] at h
    | cons b p => exact Nat.succ_pos _

/-- No code begins the code of another byte value (R112, R113). -/
theorem PTree.eq_of_prefix_table {t : PTree} {u v : Byte} {p q : Bits} (hu : (u, p) ∈ t.table) (hv : (v, q) ∈ t.table)
    (h : p <+: q) : u = v := by
  cases t with
  | leaf w =>
    rw [table, List.mem_singleton, Prod.mk.injEq] at hu hv
    exact hu.1.trans hv.1.symm
  | node l r => exact PTree.eq_of_prefix hu hv h

/-- A code decodes to its byte value alone (R118). -/
theorem decodeBitString_of_mem_table {ar : Arena} {root : Nat} {t : PTree} (hroot : ar.root = some root)
    (h : Holds ar.nodes t root) {v : Byte} {p : Bits} (hp : (v, p) ∈ t.table) : decodeBitString ar p = .ok [v] := by
  cases t with
  | leaf u =>
    rw [PTree.table, List.mem_singleton, Prod.mk.injEq] at hp
    obtain ⟨rfl, rfl⟩ := hp
    simp [decodeBitString, hroot, h.2, oneLeafWalk]
  | node l r =>
    obtain ⟨b, p', rfl⟩ := List.exists_cons_of_length_pos (PTree.length_bounds_of_mem_table hp).1
    have hstop : treeWalk ar.nodes root root [] = .ok [] := if_pos rfl
    have hwalk := treeWalk_path ar.nodes root _ root v b p' [] h hp
    rw [List.append_nil, hstop] at hwalk
    obtain ⟨_, _, _, hkind, -, -⟩ := h
    simp only [decodeBitString, hroot, hkind]
    exact hwalk

/-! ### The code table -/

/-- BuildCodes writes the table of the tree BuildTree builds (R112 to R114). -/
theorem buildCodes_buildTree (freq : FreqTable) (h : presentSyms freq ≠ []) :
    ∃ root t, (buildTree freq).root = some root ∧ Holds (buildTree freq).nodes t root ∧ t.syms.Perm (presentSyms freq) ∧
      buildCodes (buildTree freq) = assignCodes t.table (List.replicate 256 []) := by
  obtain ⟨t, hroot, hholds, hsyms, hsize⟩ := buildTree_spec freq h
  refine ⟨_, t, hroot, hholds, hsyms, ?_⟩
  cases t with
  | leaf v => simp only [buildCodes, hroot, hholds.2, PTree.table, assignCodes, List.foldl_cons, List.foldl_nil]
  | node l r => exact buildCodes_spec _ _ l r hroot hholds hsize

/-- With no nonzero count the table is empty (R112). -/
theorem buildCodes_of_root_none {ar : Arena} (h : ar.root = none) : buildCodes ar = List.replicate 256 [] := by
  simp only [buildCodes, h]

/-- The empty table has no code. -/
theorem codeOf_replicate_nil (v : Byte) : codeOf (List.replicate 256 []) v = [] :=
  List.getD_replicate _ v.isLt

/-- A byte value that does not occur has no code (R112). -/
theorem codeOf_of_freqAt_eq_zero {freq : FreqTable} {v : Byte} (hv : freqAt freq v.toNat = 0#32) :
    codeOf (buildCodes (buildTree freq)) v = [] := by
  by_cases h : presentSyms freq = []
  · rw [buildCodes_of_root_none (buildTree_root_none freq h), codeOf_replicate_nil]
  · obtain ⟨_, t, -, -, hsyms, hcodes⟩ := buildCodes_buildTree freq h
    have habsent : v ∉ t.table.map (·.1) := by
      rw [t.table_syms, hsyms.mem_iff, mem_presentSyms]
      exact not_not.mpr hv
    rw [hcodes, codeOf_assignCodes_of_not_mem _ _ _ List.length_replicate habsent, codeOf_replicate_nil]

/-- The code of a byte value that occurs is the one in its tree's table (R112, R113). -/
theorem mem_table_of_mem_syms {t : PTree} {v : Byte} (hnodup : t.syms.Nodup) (hv : v ∈ t.syms) :
    (v, codeOf (assignCodes t.table (List.replicate 256 [])) v) ∈ t.table := by
  rw [← t.table_syms] at hnodup hv
  obtain ⟨⟨_, p⟩, hp, rfl⟩ := List.mem_map.mp hv
  rwa [codeOf_assignCodes _ _ _ p List.length_replicate hnodup hp]

/-- The tree and the codes of a table in which some byte value occurs (R106, R112, R113). -/
theorem exists_table (freq : FreqTable) {v : Byte} (hv : freqAt freq v.toNat ≠ 0#32) :
    ∃ root t, (buildTree freq).root = some root ∧ Holds (buildTree freq).nodes t root ∧
      t.syms.length = (presentSyms freq).length ∧
      ∀ u, freqAt freq u.toNat ≠ 0#32 → (u, codeOf (buildCodes (buildTree freq)) u) ∈ t.table := by
  have hne : presentSyms freq ≠ [] := List.ne_nil_of_mem ((mem_presentSyms freq v).mpr hv)
  obtain ⟨root, t, hroot, hholds, hsyms, hcodes⟩ := buildCodes_buildTree freq hne
  refine ⟨root, t, hroot, hholds, hsyms.length_eq, fun u hu => ?_⟩
  rw [hcodes]
  exact mem_table_of_mem_syms (hsyms.nodup_iff.mpr (presentSyms_nodup freq))
    (hsyms.mem_iff.mpr ((mem_presentSyms freq u).mpr hu))

/-- Settles O55: the laws of a tree's table, for the tree BuildTree builds. -/
theorem codesArePathsAndPrefixFree : Obligations.CodesArePathsAndPrefixFree := by
  unfold Obligations.CodesArePathsAndPrefixFree
  intro freq _ k t code
  have hk : k = (presentSyms freq).length := length_presentValues freq
  refine ⟨fun v => codeOf_of_freqAt_eq_zero, fun v hv => ?_, fun hone v hv => ?_, fun htwo v hv => ?_,
    fun u v hu hv hne hprefix => ?_⟩
  all_goals obtain ⟨root, tree, hroot, hholds, hlen, htable⟩ := exists_table freq hv
  · obtain ⟨hpos, hle⟩ := PTree.length_bounds_of_mem_table (htable v hv)
    exact ⟨hpos, by rwa [hk, ← hlen], decodeBitString_of_mem_table hroot hholds (htable v hv)⟩
  · cases tree with
    | leaf w => exact (Prod.mk.inj (List.mem_singleton.mp (htable v hv))).2
    | node l r =>
      have hl := l.length_syms_pos
      have hr := r.length_syms_pos
      rw [PTree.syms, List.length_append] at hlen
      omega
  · cases tree with
    | leaf w =>
      rw [PTree.syms, List.length_singleton] at hlen
      omega
    | node l r => exact ⟨root, hroot, hholds.path (htable v hv)⟩
  · exact hne (PTree.eq_of_prefix_table (htable u hu) (htable v hv) hprefix)

end Sys2Proof.Machine
end

section
/-! SUPPORT. What LZ.C takes and writes at a position, and what LZ.D does with one record (42_lz.md R141 to R151; 30_encoding.md
R88). -/

namespace Sys2Proof.Machine

/-! ### The match at a position -/

/-- Inside a candidate's length the bytes at pos - off and at pos agree (R143). -/
theorem byteAt_eq_of_lt_matchLength {s : List Byte} {maxlen pos off j : Nat} (hj : j < matchLength s maxlen pos off) :
    byteAt s (pos - off + j) = byteAt s (pos + j) := by
  have hagree := commonPrefix_agree maxlen (s.drop (pos - off)) (s.drop pos) j hj
  rw [List.getElem?_drop, List.getElem?_drop] at hagree
  rw [byteAt, byteAt, List.getD_eq_getElem?_getD, List.getD_eq_getElem?_getD, hagree]

/-- A candidate shorter than maxlen ends at bytes that differ (R143), where maxlen keeps it inside the input (R142). -/
theorem byteAt_ne_of_matchLength_lt {s : List Byte} {maxlen pos off : Nat} (hend : pos + maxlen < s.length)
    (hlt : matchLength s maxlen pos off < maxlen) :
    byteAt s (pos - off + matchLength s maxlen pos off) ≠ byteAt s (pos + matchLength s maxlen pos off) := by
  have hstop := commonPrefix_stop maxlen (s.drop (pos - off)) (s.drop pos) hlt
  rw [← matchLength, List.length_drop, List.length_drop, List.getElem?_drop, List.getElem?_drop,
    List.getElem?_eq_getElem (by omega), List.getElem?_eq_getElem (by omega)] at hstop
  rw [byteAt, byteAt, List.getD_eq_getElem _ _ (by omega), List.getD_eq_getElem _ _ (by omega)]
  exact fun heq => hstop (by omega) (by omega) (congrArg some heq)

/-- Settles O47: the bytes of a candidate agree, and it ends at maxlen or at a difference. -/
theorem lzCandidateLengthIsLargest : Obligations.LzCandidateLengthIsLargest := by
  unfold Obligations.LzCandidateLengthIsLargest
  exact fun s maxlen pos off _ _ hend =>
    ⟨matchLength_le s maxlen pos off, fun _ => byteAt_eq_of_lt_matchLength, byteAt_ne_of_matchLength_lt hend⟩

/-- With MIN_MATCH = 1 the encoder takes what the candidate loop finds (R5, R145). -/
theorem chooseMatch_minMatch (window : Nat) (s : List Byte) (pos : Nat) : chooseMatch window Config.minMatch s pos =
    bestMatch s (min Config.maxMatch (s.length - pos - 1)) pos (min window pos) := by
  obtain ⟨-, hzero, -⟩ := bestMatch_spec s (min Config.maxMatch (s.length - pos - 1)) pos (min window pos)
  rw [chooseMatch]
  split
  next hlt =>
    have hlen := Nat.lt_one_iff.mp hlt
    exact (Prod.ext hlen (hzero hlen)).symm
  next => rfl

/-! ### The records the encoder writes -/

/-- The two bytes of a 16-bit number, the high one first (R88). -/
theorem putBe16_ofNat (n : Nat) : putBe16 (BitVec.ofNat 16 n) = [BitVec.ofNat 8 (n / 256), BitVec.ofNat 8 n] := by
  have hhi : BitVec.extractLsb' 8 8 (BitVec.ofNat 16 n) = BitVec.ofNat 8 (n / 256) := by
    apply BitVec.eq_of_toNat_eq
    rw [BitVec.extractLsb'_toNat, BitVec.toNat_ofNat, BitVec.toNat_ofNat, Nat.shiftRight_eq_div_pow]
    omega
  have hlo : BitVec.extractLsb' 0 8 (BitVec.ofNat 16 n) = BitVec.ofNat 8 n := by
    apply BitVec.eq_of_toNat_eq
    rw [BitVec.extractLsb'_toNat, BitVec.toNat_ofNat, BitVec.toNat_ofNat, Nat.shiftRight_zero]
    omega
  rw [putBe16, hhi, hlo]

/-- Past the end of the input no token is written (R147). -/
theorem lzScan_of_length_le (window minMatch : Nat) {s : List Byte} (fuel : Nat) {pos : Nat} (hpos : s.length ≤ pos) :
    lzScan window minMatch s fuel pos = [] := by
  cases fuel with
  | zero => rfl
  | succ fuel => rw [lzScan, if_neg (by omega)]

/-- One pass of the token loop (R147), with any bounds that are large enough. -/
theorem lzScan_of_lt (window minMatch : Nat) {s : List Byte} {fuel fuel' pos : Nat} (hpos : pos < s.length)
    (hfuel : s.length ≤ fuel + pos) (hfuel' : s.length ≤ fuel' + (pos + (chooseMatch window minMatch s pos).1 + 1)) :
    lzScan window minMatch s fuel pos =
      { offset := BitVec.ofNat 16 (chooseMatch window minMatch s pos).2
        length := BitVec.ofNat 8 (chooseMatch window minMatch s pos).1
        literal := byteAt s (pos + (chooseMatch window minMatch s pos).1) } ::
        lzScan window minMatch s fuel' (pos + (chooseMatch window minMatch s pos).1 + 1) := by
  cases fuel with
  | zero => omega
  | succ fuel =>
    rw [lzScan, if_pos hpos]
    exact congrArg _ (lzScan_fuel window minMatch s fuel fuel' _ (by omega) hfuel')

/-- Settles O48: the candidate loop's best match, and one pass of the token loop. -/
theorem lzTakesNearestLongestMatch : Obligations.LzTakesNearestLongestMatch := by
  unfold Obligations.LzTakesNearestLongestMatch
  intro s pos hpos m len
  have hm : m = bestMatch s (min 255 (s.length - pos - 1)) pos (min 4096 pos) := chooseMatch_minMatch _ s pos
  obtain ⟨hgreatest, hzero, hnearest⟩ := bestMatch_spec s (min 255 (s.length - pos - 1)) pos (min 4096 pos)
  rw [← hm] at hgreatest hzero hnearest
  refine ⟨hgreatest, hzero, hnearest, fun fuel fuel' hfuel hfuel' => ?_, fun fuel p hp => ?_, rfl⟩
  · beta_reduce
    rw [lzScan_of_lt _ _ hpos hfuel hfuel', List.flatMap_cons, tokenRecord, putBe16_ofNat]
    rfl
  · beta_reduce
    rw [lzScan_of_length_le _ _ fuel hp, List.flatMap_nil]

/-! ### The copy -/

/-- Settles O50: the bytes after the old output are the ones appended. -/
theorem lzCopyIsByteByByte : Obligations.LzCopyIsByteByByte := by
  unfold Obligations.LzCopyIsByteByByte
  intro d n out hd hle
  obtain ⟨hlen, htake, hcopy⟩ := copyBack_spec d n out hd hle
  have happend : out ++ (copyBack d n out).drop out.length = copyBack d n out := by
    conv_rhs => rw [← List.take_append_drop out.length (copyBack d n out), htake]
  refine ⟨(copyBack d n out).drop out.length, happend.symm, by rw [List.length_drop]; omega, fun j hj => ?_⟩
  rw [happend, ← Nat.sub_add_comm hle]
  exact hcopy j hj

/-! ### The records the decoder reads -/

/-- Whole records first: the tokens of a payload are those of its front records and then those of the rest (R88). -/
theorem parseTokens_append {q : List Byte} (r : List Byte) (hq : q.length % 4 = 0) :
    parseTokens (q ++ r) = parseTokens q ++ parseTokens r := by
  induction q using parseTokens.induct with
  | case1 o1 o0 len lit rest ih =>
    have hrest : rest.length % 4 = 0 := by
      simp only [List.length_cons] at hq
      omega
    simp only [List.cons_append, parseTokens, ih hrest]
  | case2 q hshort =>
    match q, hq, hshort with
    | [], _, _ => rfl
    | o1 :: o0 :: len :: lit :: rest, _, hshort => exact (hshort o1 o0 len lit rest rfl).elim

/-- The decoder goes on from the output of the tokens before, and a malformed token ends it (R150). -/
theorem replayTokens_append (ts us : List Token) (out : List Byte) :
    replayTokens (ts ++ us) out = replayTokens ts out >>= replayTokens us := by
  induction ts generalizing out with
  | nil => rfl
  | cons t ts ih =>
    rw [List.cons_append, replayTokens, replayTokens]
    split
    · rfl
    · exact ih _

/-- A payload of no whole number of records is malformed (L1 of R150). -/
theorem lzDecompress_of_mod_ne {p : List Byte} (h : p.length % 4 ≠ 0) : lzDecompress p = .error .malformed := if_pos h

/-- A payload of whole records is the replay of its tokens (R150). -/
theorem lzDecompress_of_mod_eq {p : List Byte} (h : p.length % 4 = 0) : lzDecompress p = replayTokens (parseTokens p) [] :=
  if_neg (not_not.mpr h)

/-- A further record is one more token, replayed from the output so far (R150, R151). -/
theorem lzDecompress_append_record {q : List Byte} (o1 o0 len lit : Byte) (hq : q.length % 4 = 0) :
    lzDecompress (q ++ [o1, o0, len, lit]) =
      lzDecompress q >>= replayTokens [{ offset := o1 ++ o0, length := len, literal := lit }] := by
  have happend : (q ++ [o1, o0, len, lit]).length % 4 = 0 := by
    rw [List.length_append]
    show (q.length + 4) % 4 = 0
    omega
  rw [lzDecompress_of_mod_eq happend, lzDecompress_of_mod_eq hq, parseTokens_append _ hq, replayTokens_append]
  rfl

/-- What one token does to the output so far (R149, R150): length 0 appends the literal, whatever the offset. -/
theorem replayTokens_singleton (t : Token) (out : List Byte) :
    replayTokens [t] out =
      if t.length = 0#8 then .ok (out ++ [t.literal])
      else if t.offset.toNat = 0 ∨ out.length < t.offset.toNat then .error .malformed
      else .ok (copyBack t.offset.toNat t.length.toNat out ++ [t.literal]) := by
  have hoff : t.offset = 0#16 ↔ t.offset.toNat = 0 := BitVec.toNat_inj.symm
  rw [replayTokens]
  by_cases hlen : t.length = 0#8
  · rw [if_neg (fun h => h.1 hlen), if_pos hlen, hlen]
    rfl
  · rw [if_neg hlen]
    exact if_congr ((and_iff_right hlen).trans (or_congr_left hoff)) rfl rfl

/-- Settles O51: a record more is one token more, with its offset as a big-endian number. -/
theorem lzReplaysRecordByRecord : Obligations.LzReplaysRecordByRecord := by
  unfold Obligations.LzReplaysRecordByRecord
  refine ⟨rfl, fun p => lzDecompress_of_mod_ne, fun q o1 o0 len lit hq => ⟨fun hbad => ?_, fun out hout => ?_⟩⟩
  · rw [lzDecompress_append_record _ _ _ _ hq, hbad]
    rfl
  · rw [lzDecompress_append_record _ _ _ _ hq, hout]
    have hoff : (o1 ++ o0 : BitVec 16).toNat = o1.toNat * 256 + o0.toNat := toNat_append_byte o1 o0
    rw [← hoff]
    exact replayTokens_singleton _ out

end Sys2Proof.Machine
end

section
/-! SUPPORT. What RLE.D makes of one record, and how RLE.C splits a run (43_rle.md R165 to R169). -/

namespace Sys2Proof.Machine

/-! ### The records the decoder accepts -/

/-- A payload of whole records is expanded record by record (R168). -/
theorem rleDecompress_of_mod_eq {p : List Byte} (h : p.length % 2 = 0) : rleDecompress p = rleExpand p :=
  if_neg (not_not.mpr h)

/-- The decoder accepts a record exactly when its count is not 0 (case E2 of R168) and the records after it are accepted. -/
theorem rleExpand_record_eq_ok_iff (c v : Byte) (rest out : List Byte) :
    rleExpand (c :: v :: rest) = .ok out ↔
      c ≠ 0#8 ∧ ∃ tail, rleExpand rest = .ok tail ∧ List.replicate c.toNat v ++ tail = out := by
  rw [rleExpand]
  split
  case isTrue h => simp [h]
  case isFalse h => cases rleExpand rest <;> simp [h, Except.map]

/-- A payload the decoder accepts is whole records with no count 0, and each record stands for one byte at least. -/
theorem payload_of_rleExpand_eq_ok {p out : List Byte} (h : rleExpand p = .ok out) :
    p.length % 2 = 0 ∧ p.length ≤ 2 * out.length ∧ ∀ r, 2 * r + 1 < p.length → byteAt p (2 * r) ≠ 0#8 := by
  induction p using rleExpand.induct generalizing out with
  | case1 => exact ⟨rfl, Nat.zero_le _, fun r hr => absurd hr (Nat.not_lt_zero _)⟩
  | case2 b => simp [rleExpand] at h
  | case3 v rest => exact absurd rfl ((rleExpand_record_eq_ok_iff ..).mp h).1
  | case4 c v rest _ ih =>
    obtain ⟨hc, tail, htail, rfl⟩ := (rleExpand_record_eq_ok_iff ..).mp h
    obtain ⟨heven, hle, hcounts⟩ := ih htail
    have hpos : 0 < c.toNat := Nat.pos_of_ne_zero fun e => hc (BitVec.eq_of_toNat_eq e)
    simp only [List.length_cons, List.length_append, List.length_replicate]
    refine ⟨by omega, by omega, fun r hr => ?_⟩
    cases r with
    | zero => exact hc
    | succ r => exact hcounts r (by omega)

/-! ### The records the encoder writes -/

/-- The record for the run at the front expands to that run, and the scan goes on after it (R169). -/
theorem rleExpand_rleCompress (s : List Byte) : rleExpand (rleCompress s) = .ok s := by
  match s with
  | [] => rfl
  | v :: rest =>
    obtain ⟨hcount, hne⟩ := runLength_record v rest
    have ih := rleExpand_rleCompress ((v :: rest).drop (runLength v 255 (v :: rest)))
    rw [rleCompress_cons, rleExpand_record_eq_ok_iff, hcount]
    exact ⟨hne, _, ih, replicate_runLength_append_drop v 255 (v :: rest)⟩
termination_by s.length
decreasing_by
  rw [List.length_drop, runLength_cons_self, List.length_cons]
  omega

/-- Settles O43: the decoder accepts what the encoder writes and gives the input back, and so its counts and length are those of
an accepted payload. -/
theorem rleRoundTrip : Obligations.RleRoundTrip := by
  unfold Obligations.RleRoundTrip
  intro s
  obtain ⟨heven, hle, hcounts⟩ := payload_of_rleExpand_eq_ok (rleExpand_rleCompress s)
  exact ⟨(rleDecompress_of_mod_eq heven).trans (rleExpand_rleCompress s), heven, hle, hcounts⟩

/-- The first record of a maximal run takes at most 255 of its bytes, and the rest of the run follows (R167). -/
theorem rleCompress_replicate_append {c : Nat} (hpos : 0 < c) {v : Byte} {rest : List Byte} (h : rest.head? ≠ some v) :
    rleCompress (List.replicate c v ++ rest) =
      BitVec.ofNat 8 (min 255 c) :: v :: rleCompress (List.replicate (c - 255) v ++ rest) := by
  obtain ⟨k, rfl⟩ := Nat.exists_eq_succ_of_ne_zero hpos.ne'
  have hrun := runLength_replicate_append v 255 (k + 1) rest h
  have hdrop : (List.replicate (k + 1) v ++ rest).drop (min 255 (k + 1)) = List.replicate (k + 1 - 255) v ++ rest := by
    rw [List.drop_append_of_le_length (by simp), List.drop_replicate, min_comm, tsub_min]
  rw [List.replicate_succ, List.cons_append] at hrun hdrop ⊢
  rw [rleCompress_cons, hrun, hdrop]

/-- Settles O44, by taking full records of 255 off the run until less than 255 bytes of it are left. -/
theorem rleSplitsLongRuns : Obligations.RleSplitsLongRuns := by
  unfold Obligations.RleSplitsLongRuns
  intro c v rest h
  induction c using Nat.strong_induction_on with
  | h c ih =>
    rcases Nat.eq_zero_or_pos c with rfl | hpos
    · rfl
    rw [rleCompress_replicate_append hpos h]
    rcases Nat.lt_or_ge c 255 with hlt | hge
    · rw [Nat.div_eq_of_lt hlt, Nat.mod_eq_of_lt hlt, if_neg hpos.ne', Nat.min_eq_right hlt.le, Nat.sub_eq_zero_of_le hlt.le]
      rfl
    · rw [ih (c - 255) (by omega), Nat.min_eq_left hge, Nat.div_eq_sub_div (by decide) hge, Nat.mod_eq_sub_mod hge]
      rfl

end Sys2Proof.Machine
end

section
/-! SUPPORT. The LZ round trip (42_lz.md R152): the decoder's copy gives the bytes the encoder matched. -/

namespace Sys2Proof.Machine

/-- The byte at a position extends the input read so far. -/
theorem take_append_byteAt {s : List Byte} {pos : Nat} (hpos : pos < s.length) :
    s.take pos ++ [byteAt s pos] = s.take (pos + 1) := by
  rw [byteAt, List.getD_eq_getElem _ _ hpos, List.take_append_getElem hpos]

/-- Copying inside the input read so far goes on with the input, while the bytes `off` apart agree (R149). -/
theorem copyBack_take {s : List Byte} {off n pos : Nat} (hoff : 1 ≤ off) (hle : off ≤ pos) (hend : pos + n ≤ s.length)
    (hagree : ∀ j, j < n → byteAt s (pos - off + j) = byteAt s (pos + j)) :
    copyBack off n (s.take pos) = s.take (pos + n) := by
  induction n generalizing pos with
  | zero => rfl
  | succ n ih =>
    have hread : byteAt (s.take pos) (pos - off) = byteAt s pos := by
      rw [byteAt, List.getD_eq_getElem?_getD, List.getElem?_take_of_lt (by omega), ← List.getD_eq_getElem?_getD]
      exact hagree 0 (Nat.succ_pos n)
    have hnext : ∀ j, j < n → byteAt s (pos + 1 - off + j) = byteAt s (pos + 1 + j) := fun j hj => by
      rw [Nat.sub_add_comm hle, Nat.add_right_comm, Nat.add_right_comm pos 1 j]
      exact hagree (j + 1) (Nat.succ_lt_succ hj)
    rw [copyBack, List.length_take_of_le (by omega), hread, take_append_byteAt (by omega),
      ih (by omega) (by omega) hnext, Nat.add_right_comm, Nat.add_assoc]

/-- What LZ.C takes at a position is nothing, or a match that starts inside the input before it (R141 to R144). -/
theorem chooseMatch_agree (s : List Byte) (pos : Nat) :
    let m := chooseMatch Config.window Config.minMatch s pos
    0 < m.1 → 1 ≤ m.2 ∧ m.2 ≤ pos ∧ ∀ j, j < m.1 → byteAt s (pos - m.2 + j) = byteAt s (pos + j) := by
  intro m hlen
  obtain ⟨-, -, hmatch⟩ := bestMatch_spec s (min Config.maxMatch (s.length - pos - 1)) pos (min Config.window pos)
  rw [← chooseMatch_minMatch] at hmatch
  obtain ⟨hoff, hle, hlength, -⟩ := hmatch hlen
  exact ⟨hoff, hle.trans (min_le_right _ _), fun j hj => byteAt_eq_of_lt_matchLength (hlength ▸ hj)⟩

/-- The token LZ.C writes at a position, replayed on the input before it, gives the input up to the next position (R147, R150). -/
theorem replayTokens_chooseMatch {s : List Byte} {pos : Nat} (hpos : pos < s.length) (rest : List Token) :
    let m := chooseMatch Config.window Config.minMatch s pos
    replayTokens ({ offset := BitVec.ofNat 16 m.2, length := BitVec.ofNat 8 m.1, literal := byteAt s (pos + m.1) } :: rest)
      (s.take pos) = replayTokens rest (s.take (pos + m.1 + 1)) := by
  intro m
  have hend : pos + m.1 < s.length := chooseMatch_lt _ _ s pos hpos
  rw [replayTokens, ← take_append_byteAt hend]
  rcases chooseMatch_range s pos with hnone | ⟨hoff1, hoff, hlen1, hlen⟩
  · have hm : m = (0, 0) := hnone
    rw [hm]
    exact if_neg fun h => h.1 rfl
  · obtain ⟨-, hle, hagree⟩ := chooseMatch_agree s pos hlen1
    have hoffNat : (BitVec.ofNat 16 m.2).toNat = m.2 := Nat.mod_eq_of_lt (hoff.trans_lt (by decide))
    have hlenNat : (BitVec.ofNat 8 m.1).toNat = m.1 := Nat.mod_eq_of_lt (hlen.trans_lt (by decide))
    have hvalid : ¬ (BitVec.ofNat 8 m.1 ≠ 0#8 ∧
        (BitVec.ofNat 16 m.2 = 0#16 ∨ (s.take pos).length < (BitVec.ofNat 16 m.2).toNat)) := by
      rw [List.length_take_of_le hpos.le, ← BitVec.toNat_inj, hoffNat]
      exact fun h => h.2.elim (Nat.ne_of_gt hoff1) hle.not_gt
    rw [if_neg hvalid, hoffNat, hlenNat, copyBack_take hoff1 hle hend.le hagree]

/-- The tokens from a position on, replayed on the input before it, give the input (R147, R150). -/
theorem replayTokens_lzScan {s : List Byte} (fuel : Nat) {pos : Nat} (hfuel : s.length ≤ fuel + pos) :
    replayTokens (lzScan Config.window Config.minMatch s fuel pos) (s.take pos) = .ok s := by
  induction fuel generalizing pos with
  | zero => exact congrArg Except.ok (List.take_of_length_le (by omega))
  | succ fuel ih =>
    rw [lzScan]
    split
    next hpos => exact (replayTokens_chooseMatch hpos _).trans (ih (by omega))
    next hend => exact congrArg Except.ok (List.take_of_length_le (by omega))

/-- R152: LzDecompress gives back what LzCompress was given. -/
theorem lzDecompress_lzCompress (s : List Byte) : lzDecompress (lzCompress s) = .ok s := by
  rw [lzDecompress_of_mod_eq (by rw [lzCompress, length_flatMap_tokenRecord, Nat.mul_mod_right]), lzCompress,
    parseTokens_flatMap]
  exact replayTokens_lzScan s.length le_rfl

end Sys2Proof.Machine
end

section
/-! SUPPORT. The Huffman round trip (41_huffman.md R124): the tree walk reads the codes of an input one after the other. -/

namespace Sys2Proof.Machine

/-- A tree with an internal node reads the codes of a byte sequence as the sequence (R118). -/
theorem treeWalk_encodeBits {nodes : List Node} {root : Nat} {l r : PTree} (h : Holds nodes (.node l r) root) (code : CodeTable)
    {s : List Byte} (hcodes : ∀ v ∈ s, (v, codeOf code v) ∈ (PTree.node l r).codes) :
    treeWalk nodes root root (encodeBits code s) = .ok s := by
  induction s with
  | nil => exact if_pos rfl
  | cons v s ih =>
    obtain ⟨hv, hs⟩ := List.forall_mem_cons.mp hcodes
    obtain ⟨b, p, hcode⟩ := List.exists_cons_of_length_pos (PTree.length_bounds_of_mem_table (t := .node l r) hv).1
    rw [hcode] at hv
    rw [encodeBits_cons, hcode, treeWalk_path _ _ _ _ _ _ _ _ h hv, ih hs]
    rfl

/-- A tree that is one leaf has one code, of one bit 0: it reads the codes of a byte sequence as the sequence (R113, R118). -/
theorem oneLeafWalk_encodeBits {u : Byte} (code : CodeTable) {s : List Byte}
    (hcodes : ∀ v ∈ s, (v, codeOf code v) ∈ (PTree.leaf u).table) : oneLeafWalk u (encodeBits code s) = .ok s := by
  have hbits : encodeBits code s = List.replicate s.length false ∧ s = List.replicate s.length u := by
    induction s with
    | nil => exact ⟨rfl, rfl⟩
    | cons v s ih =>
      obtain ⟨hv, hs⟩ := List.forall_mem_cons.mp hcodes
      obtain ⟨rfl, hcode⟩ := Prod.mk.inj (List.mem_singleton.mp hv)
      obtain ⟨hbits, hbytes⟩ := ih hs
      exact ⟨by rw [encodeBits_cons, hcode, hbits]; rfl, congrArg (List.cons v) hbytes⟩
  obtain ⟨hbits, hbytes⟩ := hbits
  rw [hbits, hbytes]
  simp [oneLeafWalk]

/-- A tree reads the codes of its table, whatever byte sequence they encode (R118, R120). -/
theorem decodeBitString_encodeBits {ar : Arena} {root : Nat} {t : PTree} (hroot : ar.root = some root) (h : Holds ar.nodes t root)
    (code : CodeTable) {s : List Byte} (hcodes : ∀ v ∈ s, (v, codeOf code v) ∈ t.table) :
    decodeBitString ar (encodeBits code s) = .ok s := by
  cases t with
  | leaf u =>
    simp only [decodeBitString, hroot, h.2]
    exact oneLeafWalk_encodeBits code hcodes
  | node l r =>
    obtain ⟨-, _, _, hkind, -, -⟩ := id h
    simp only [decodeBitString, hroot, hkind]
    exact treeWalk_encodeBits h code hcodes

/-- The codes of an input, read with the tree of its counts, are the input (R120, R124). -/
theorem decodeBitString_buildTree_buildFreq {s : List Byte} (hs : s.length < 2 ^ 32) :
    decodeBitString (buildTree (buildFreq s)) (encodeBits (buildCodes (buildTree (buildFreq s))) s) = .ok s := by
  have hpresent : ∀ v ∈ s, freqAt (buildFreq s) v.toNat ≠ 0#32 := fun v hv =>
    (mem_presentSyms _ v).mp ((mem_presentSyms_buildFreq s hs v).mpr hv)
  cases s with
  | nil => exact decodeBitString_nil_of_root_none (buildTree_root_none _ (presentSyms_replicate_zero 256))
  | cons v s =>
    obtain ⟨root, t, hroot, hholds, -, htable⟩ := exists_table (buildFreq (v :: s)) (hpresent v List.mem_cons_self)
    exact decodeBitString_encodeBits hroot hholds _ fun u hu => htable u (hpresent u hu)

/-- Decoding a frame whose code bytes are packed bits reads those bits (R115, R116, R120). -/
theorem hufDecompress_packed {freq : FreqTable} {bits : Bits} (hf : freq.length = 256) (hlt : bits.length < 2 ^ 32) :
    hufDecompress (serFreq freq ++ (putBe32 (BitVec.ofNat 32 bits.length) ++ pack bits)) =
      (decodeBitString (buildTree freq) bits).bind (checkTotal (freqTotal freq)) := by
  have hnb : (BitVec.ofNat 32 bits.length).toNat = bits.length := Nat.mod_eq_of_lt hlt
  have hunpack : unpack (pack bits) bits.length = bits := by simpa using unpack_pack_append bits []
  rw [hufDecompress_frame _ _ _ hf (by rw [hnb, length_pack]; omega), hnb, hunpack]

/-- R124: HufDecompress gives back what HufCompress was given, when HufCompress does not fail. -/
theorem hufDecompress_of_hufCompress {s r : List Byte} (hs : s.length < 2 ^ 32) (h : hufCompress s = .ok r) :
    hufDecompress r = .ok s := by
  rcases Nat.lt_or_ge (encodeBits (buildCodes (buildTree (buildFreq s))) s).length (2 ^ 32) with hlt | hge
  · obtain rfl := Except.ok.inj ((hufCompress_of_lt hlt).symm.trans h)
    rw [hufDecompress_packed (length_buildFreq s) hlt, decodeBitString_buildTree_buildFreq hs, freqTotal_buildFreq s hs]
    exact if_neg (not_not.mpr rfl)
  · cases (hufCompress_of_le hge).symm.trans h

end Sys2Proof.Machine
end

section
/-! SUPPORT. The registry (44_registry.md): a CMD write in each phase (R184 to R186), and the round trip of two commands (R195). -/

namespace Sys2Proof.Machine

/-! ### A CMD write -/

/-- A CMD write while no command runs is a command start (R184, R186). -/
theorem writeReg_cmd_idle {s : State} (h : s.phase = .idle) (w : Word) : writeReg s .cmd w = commandStart w s := by
  simp only [writeReg, h]

/-- A CMD write while a command runs is ignored (R184, R236). -/
theorem writeReg_cmd_busy {s : State} (h : s.phase = .busy) (w : Word) : writeReg s .cmd w = s := by
  simp only [writeReg, h]

/-- After a command start REG.CMD reads the low nine bits of the word (R25, R185). -/
theorem readReg_cmd_commandStart (w : Word) (s : State) : readReg (commandStart w s) .cmd = w &&& 0x1FF#32 :=
  cmdWord_fields w

/-- Settles O7: the write is a command start or nothing, by the phase. -/
theorem cmdWriteStartsOrIsIgnored : Obligations.CmdWriteStartsOrIsIgnored := by
  unfold Obligations.CmdWriteStartsOrIsIgnored
  intro s w
  have hwrite : memWrite32 0x000#32 w s = some (writeReg s .cmd w) := memWrite32_reg _ w s (by decide) (by decide)
  refine ⟨fun hidle => ?_, fun hbusy => by rw [hwrite, writeReg_cmd_busy hbusy]⟩
  have hread : memRead32 0x000#32 (commandStart w s) = some (readReg (commandStart w s) .cmd, commandStart w s) :=
    memRead32_reg _ _ (by decide) (by decide)
  rw [readReg_cmd_commandStart] at hread
  exact ⟨commandStart w s, by rw [hwrite, writeReg_cmd_idle hidle], rfl, cmdDirOf_eq w, rfl, hread, rfl, rfl, rfl, rfl, rfl,
    fun _ => rfl, rfl, rfl, rfl, rfl, fun _ => rfl, engineTurn_commandStart w s⟩

/-! ### The input of a command -/

/-- A command's input is CUR_N bytes (R80). -/
theorem length_cmdInput (s : State) : (cmdInput s).length = s.curN.toNat := by
  rw [cmdInput, List.length_map, List.length_range]

/-- Byte k of a command's input is byte k of IN_BUF (R42, R80). -/
theorem getElem_cmdInput (s : State) {k : Nat} (hk : k < (cmdInput s).length) : (cmdInput s)[k] = inByte s k := by
  simp [cmdInput]

/-- A byte sequence that IN_BUF holds, with its length as CUR_N, is the input of the command (R80). -/
theorem cmdInput_eq_of_inByte {u : State} {r : List Byte} (hlen : u.curN.toNat = r.length)
    (hbytes : ∀ k (hk : k < r.length), inByte u k = r[k]) : cmdInput u = r :=
  List.ext_getElem ((length_cmdInput u).trans hlen) fun k hk hk' => (getElem_cmdInput u hk).trans (hbytes k hk')

/-! ### The round trip -/

/-- The compress and the decompress command of one ALGO: the second's codec function undoes the first's (R124, R152, R169). -/
theorem codecOf_roundTrip {c d : Instr} (h : c = .hufC ∧ d = .hufD ∨ c = .rleC ∧ d = .rleD ∨ c = .lzC ∧ d = .lzD) :
    ∃ f g, codecOf c = some f ∧ codecOf d = some g ∧ ∀ s r, s.length < 2 ^ 32 → f s = .ok r → g r = .ok s := by
  rcases h with ⟨rfl, rfl⟩ | ⟨rfl, rfl⟩ | ⟨rfl, rfl⟩
  · exact ⟨_, _, rfl, rfl, fun s r => hufDecompress_of_hufCompress⟩
  · refine ⟨_, _, rfl, rfl, ?_⟩
    rintro s _ - ⟨⟩
    exact (rleRoundTrip s).1
  · refine ⟨_, _, rfl, rfl, ?_⟩
    rintro s _ - ⟨⟩
    exact lzDecompress_lzCompress s

/-- Settles O35: the second command's input is the first's output, and its codec function gives the first's input back. -/
theorem commandRoundTrip : Obligations.CommandRoundTrip := by
  unfold Obligations.CommandRoundTrip
  intro c d s t u hpair hp hparams hexec herr hcurN hcopy
  obtain ⟨f, g, hf, hg, hundo⟩ := codecOf_roundTrip hpair
  obtain ⟨_, st, r, hexec', hends, hok⟩ := exec_ends c s hp
  obtain rfl := Host.Outcome.next.inj (hexec.symm.trans hexec')
  have hst : st = .ok := hends.err_eq_zero_iff.mp herr
  obtain ⟨f', hf', -, hr, -⟩ := (hok r).mp ⟨hst, rfl⟩
  obtain rfl := Option.some.inj (hf.symm.trans hf')
  have hlen : t.outLen.toNat = r.length := hends.outLen.trans (if_pos hst)
  have hinput : cmdInput u = r := cmdInput_eq_of_inByte (by rw [hcurN, hlen]) fun k hk =>
    (hcopy k (by rwa [hlen])).trans (hends.out hst k hk)
  have hback : g (cmdInput u) = .ok (cmdInput s) := by
    rw [hinput]
    exact hundo _ r (by rw [length_cmdInput]; exact s.curN.isLt) hr
  obtain ⟨v, st', q, hexecD, hendsD, hokD⟩ := exec_ends d u (hparams ▸ hp)
  refine ⟨v, hexecD, fun herrD => ?_, fun hin hout => ?_⟩
  · have hst' : st' = .ok := hendsD.err_eq_zero_iff.mp herrD
    obtain ⟨g', hg', -, hq, -⟩ := (hokD q).mp ⟨hst', rfl⟩
    obtain rfl := Option.some.inj (hg.symm.trans hg')
    obtain rfl := Except.ok.inj (hback.symm.trans hq)
    refine ⟨BitVec.eq_of_toNat_eq ?_, fun k hk => ?_⟩
    · rw [hendsD.outLen, if_pos hst', length_cmdInput]
    · rw [← length_cmdInput] at hk
      exact (hendsD.out hst' k hk).trans (getElem_cmdInput s hk)
  · refine hendsD.err_eq_zero_iff.mpr ((hokD (cmdInput s)).mpr ⟨g, hg, ?_, hback, ?_⟩).1
    · rwa [hcurN, hparams]
    · rwa [length_cmdInput, hparams]

end Sys2Proof.Machine
end

section
/-! SUPPORT. The order of the status checks (60_exceptions.md R211 to R216), and which codec functions fail in which way (R213,
R214). -/

namespace Sys2Proof.Machine

/-! ### The decoders fail only as malformed -/

/-- A further pass over the output adds no failure. -/
theorem map_ne_error {r : CodecResult} {e : Failure} (h : r ≠ .error e) (g : List Byte → List Byte) : r.map g ≠ .error e := by
  cases r with
  | error e' => simpa [Except.map] using h
  | ok out => nofun

/-- A further check of the output adds no failure but its own. -/
theorem bind_ne_error {r : CodecResult} {e : Failure} {g : List Byte → CodecResult} (h : r ≠ .error e)
    (hg : ∀ out, g out ≠ .error e) : r.bind g ≠ .error e := by
  cases r with
  | error e' => simpa [Except.bind] using h
  | ok out => exact hg out

/-- RLE records fail only as malformed (R168, E1 and E2). -/
theorem rleExpand_ne_bitCountOverflow (p : List Byte) : rleExpand p ≠ .error .bitCountOverflow := by
  induction p using rleExpand.induct with
  | case1 => nofun
  | case2 b => nofun
  | case3 v rest => nofun
  | case4 c v rest hc ih =>
    rw [rleExpand, if_neg hc]
    exact map_ne_error ih _

/-- RLE decompression fails only as malformed (R168). -/
theorem rleDecompress_ne_bitCountOverflow (p : List Byte) : rleDecompress p ≠ .error .bitCountOverflow := by
  unfold rleDecompress
  split
  · nofun
  · exact rleExpand_ne_bitCountOverflow p

/-- LZ tokens fail only as malformed (R150, L2). -/
theorem replayTokens_ne_bitCountOverflow (ts : List Token) (out : List Byte) : replayTokens ts out ≠ .error .bitCountOverflow := by
  induction ts generalizing out with
  | nil => nofun
  | cons t ts ih =>
    rw [replayTokens]
    split
    · nofun
    · exact ih _

/-- LZ decompression fails only as malformed (R150). -/
theorem lzDecompress_ne_bitCountOverflow (p : List Byte) : lzDecompress p ≠ .error .bitCountOverflow := by
  unfold lzDecompress
  split
  · nofun
  · exact replayTokens_ne_bitCountOverflow _ _

/-- The tree walk fails only as malformed (R120, M5). -/
theorem treeWalk_ne_bitCountOverflow (nodes : List Node) (root cur : Nat) (bits : Bits) :
    treeWalk nodes root cur bits ≠ .error .bitCountOverflow := by
  induction bits generalizing cur with
  | nil =>
    rw [treeWalk]
    split
    · nofun
    · nofun
  | cons b rest ih =>
    simp only [treeWalk]
    split
    · exact map_ne_error (ih root) _
    · exact ih _

/-- Decoding with one leaf fails only as malformed (R120, M4). -/
theorem oneLeafWalk_ne_bitCountOverflow (v : Byte) (bits : Bits) : oneLeafWalk v bits ≠ .error .bitCountOverflow := by
  unfold oneLeafWalk
  split
  · nofun
  · nofun

/-- Decoding the code bits fails only as malformed, whatever the tree (R120, M3 to M5). -/
theorem decodeBitString_ne_bitCountOverflow (t : Arena) (bits : Bits) : decodeBitString t bits ≠ .error .bitCountOverflow := by
  unfold decodeBitString
  split
  · split
    · nofun
    · nofun
  · split
    · exact oneLeafWalk_ne_bitCountOverflow _ _
    · exact treeWalk_ne_bitCountOverflow _ _ _ _

/-- The check of the decoded length fails only as malformed (R120, M6). -/
theorem checkTotal_ne_bitCountOverflow (total : Nat) (out : List Byte) : checkTotal total out ≠ .error .bitCountOverflow := by
  unfold checkTotal
  split
  · nofun
  · nofun

/-- Huffman decompression fails only as malformed (R120, M1 to M6). -/
theorem hufDecompress_ne_bitCountOverflow (p : List Byte) : hufDecompress p ≠ .error .bitCountOverflow := by
  simp only [hufDecompress]
  split
  · nofun
  · split
    · nofun
    · exact bind_ne_error (decodeBitString_ne_bitCountOverflow _ _) (checkTotal_ne_bitCountOverflow _)

/-! ### Which command fails in which way -/

/-- Huffman compression never finds its input malformed: its one failure is the bit count (R119). -/
theorem hufCompress_ne_malformed (s : List Byte) : hufCompress s ≠ .error .malformed := by
  rcases Nat.lt_or_ge (encodeBits (buildCodes (buildTree (buildFreq s))) s).length (2 ^ 32) with hlt | hge
  · rw [hufCompress_of_lt hlt]
    nofun
  · rw [hufCompress_of_le hge]
    nofun

/-- Only a decompress command finds its input malformed (R213). -/
theorem dirOf_of_malformed {i : Instr} {f : List Byte → CodecResult} {p : List Byte} (hc : codecOf i = some f)
    (h : f p = .error .malformed) : dirOf i = .decompress := by
  cases i with
  | hufD | rleD | lzD => rfl
  | hufC =>
    cases hc
    exact absurd h (hufCompress_ne_malformed p)
  | rleC | lzC =>
    cases hc
    cases h
  | unsup _ _ => cases hc

/-- Only HUF.C runs into a bit count overflow (R214). -/
theorem eq_hufC_of_bitCountOverflow {i : Instr} {f : List Byte → CodecResult} {p : List Byte} (hc : codecOf i = some f)
    (h : f p = .error .bitCountOverflow) : i = .hufC := by
  cases i with
  | hufC => rfl
  | rleC | lzC =>
    cases hc
    cases h
  | hufD =>
    cases hc
    exact absurd h (hufDecompress_ne_bitCountOverflow p)
  | rleD =>
    cases hc
    exact absurd h (rleDecompress_ne_bitCountOverflow p)
  | lzD =>
    cases hc
    exact absurd h (lzDecompress_ne_bitCountOverflow p)
  | unsup _ _ => cases hc

/-! ### The checks after IN_CAP's -/

section
variable {f : List Byte → CodecResult} {s : State}

/-- Execute within IN_CAP, for an input the codec function finds malformed (R190). -/
theorem execute_of_malformed (hin : s.curN.toNat ≤ s.params.inCap) (hf : f (cmdInput s) = .error .malformed) :
    execute f s = (.malformedPayload, []) := by
  rw [execute, if_neg (Nat.not_lt.mpr hin), hf]

/-- Execute within IN_CAP, for a bit count overflow (R190, R214). -/
theorem execute_of_bitCountOverflow (hin : s.curN.toNat ≤ s.params.inCap) (hf : f (cmdInput s) = .error .bitCountOverflow) :
    execute f s = (.outputOverflow, []) := by
  rw [execute, if_neg (Nat.not_lt.mpr hin), hf]

/-- Execute within IN_CAP, for an output above OUT_CAP (R190, R214). -/
theorem execute_of_outCap_lt {r : List Byte} (hin : s.curN.toNat ≤ s.params.inCap) (hf : f (cmdInput s) = .ok r)
    (hout : s.params.outCap < r.length) : execute f s = (.outputOverflow, []) := by
  rw [execute, if_neg (Nat.not_lt.mpr hin), hf]
  exact if_pos hout

/-- ERR after a codec command is the code of the status Execute gives (R188, R193). -/
theorem runCodec_err_of_execute {st : Status} {r : List Byte} (h : execute f s = (st, r)) :
    (runCodec f s).err = statusCode st := by
  rw [runCodec, h]
  rfl

end

/-- Settles O31: a command without a codec, and for a codec each outcome of Execute's checks. -/
theorem statusPriority : Obligations.StatusPriority := by
  unfold Obligations.StatusPriority
  intro i s
  cases hc : codecOf i with
  | none => exact ⟨_, exec_of_codecOf_none hc s, rfl, rfl, fun _ => rfl, nofun⟩
  | some f =>
    refine ⟨_, exec_of_codecOf_some hc s, rfl, rfl, nofun, ?_⟩
    rintro _ ⟨⟩
    exact ⟨fun hbig => runCodec_err_of_execute (execute_of_inCap_lt f hbig),
      fun hin hf => ⟨runCodec_err_of_execute (execute_of_malformed hin hf), dirOf_of_malformed hc hf⟩,
      fun hin hf => ⟨runCodec_err_of_execute (execute_of_bitCountOverflow hin hf), eq_hufC_of_bitCountOverflow hc hf⟩,
      fun hin r hf hout => runCodec_err_of_execute (execute_of_outCap_lt hin hf hout),
      fun hin r hf hout => runCodec_err_of_execute ((execute_eq_ok_iff f s r).mpr ⟨hin, hf, hout⟩)⟩

end Sys2Proof.Machine
end

section
/-! SUPPORT. Assembling a command word and decoding it, in both orders (30_encoding.md R77 to R82; 44_registry.md R180, R181). -/

namespace Sys2Proof

/-- The fields of an assembled word select the command (R181). -/
theorem decodeWord_cmdWord (a : Byte) (d : Dir) : decodeWord (cmdWord a d) = resolve a d := by
  rw [decodeWord, cmdAlgoOf_cmdWord, cmdDirOf_cmdWord]

/-- The word of a well-formed command decodes to it (R78 to R81). -/
theorem decodeWord_encode {i : Instr} (h : i.wf = true) : decodeWord (encode i) = i :=
  (decodeWord_cmdWord _ _).trans (resolve_fields i h)

/-- The table's decoder reads every 32-bit word as `decodeWord` does (R77). -/
theorem decodeTableWord_toNat (w : Word) : decodeTableWord 32 w.toNat = some (decodeWord w) := by
  have hfits : ¬ 2 ^ 32 ≤ w.toNat := Nat.not_le.mpr w.isLt
  rw [decodeTableWord, decodeBits, if_neg (by decide), if_neg hfits, BitVec.ofNat_toNat, BitVec.setWidth_eq]

/-- Settles O2: both decoders, by the fields of the assembled word. -/
theorem decodeOfEncodeIsIdentity : Obligations.DecodeOfEncodeIsIdentity := by
  unfold Obligations.DecodeOfEncodeIsIdentity
  exact fun i h => ⟨decodeWord_encode h, by rw [decodeTableWord_toNat, decodeWord_encode h]⟩

/-- Settles O3: the decoded command has the word's ALGO and DIR, and its word holds nothing else. -/
theorem encodeOfDecodeClearsReservedBits : Obligations.EncodeOfDecodeClearsReservedBits := by
  unfold Obligations.EncodeOfDecodeClearsReservedBits
  intro w
  obtain ⟨halgo, hdir, hwf⟩ := fields_resolve (cmdAlgoOf w) (cmdDirOf w)
  refine ⟨?_, hwf⟩
  rw [encode, decodeWord, halgo, hdir, cmdWord_fields]

/-- Settles O4: nine closed words, which evaluate to their commands. -/
theorem vectorWordsDecode : Obligations.VectorWordsDecode := by
  unfold Obligations.VectorWordsDecode
  decide

end Sys2Proof
end

section
/-! SUPPORT. What one step of the machine can do, said once (10_state.md R20, R21; 44_registry.md R188, R191; 70_reset_and_hazards.md
R230). -/

namespace Sys2Proof.Machine

/-! ### A step by whose turn it is -/

section
variable {s : State}

/-- The host's turn is a step when the host moves next (R20). -/
theorem step_of_host (h : nextTurn s = .host) : step s = hostTurn (afterSched s) := by rw [step, h, takeTurn]

/-- The engine's turn is a step when the engine moves next (R21). -/
theorem step_of_engine (h : nextTurn s = .engine) : step s = engineTurn (afterSched s) := by rw [step, h, takeTurn]

/-- A reset turn is a step when reset comes next (R230). -/
theorem step_of_reset (h : nextTurn s = .reset) : step s = .next (resetBlock (afterSched s)) := by rw [step, h, takeTurn]

/-- The engine does nothing while no command runs (R21). -/
theorem engineTurn_idle (h : s.phase = .idle) : engineTurn s = .next s := by simp only [engineTurn, h]

/-- The engine runs the command its latched ALGO and DIR select (R188). -/
theorem engineTurn_busy (h : s.phase = .busy) : engineTurn s = exec (resolve s.curAlgo s.curDir) s := by
  simp only [engineTurn, h]

/-- With no operation left, nothing arrives from the host (R72). -/
theorem hostTurn_nil (h : s.prog = []) : hostTurn s = .next s := by simp only [hostTurn, h]

/-- The host issues the operation at the head of its program (R72). -/
theorem hostTurn_cons {op : HostOp} {rest : List HostOp} (h : s.prog = op :: rest) : hostTurn s = hostStep op rest s := by
  simp only [hostTurn, h]

end

/-! ### What a step leaves -/

/-- What the host's turn leaves: one effect on the block, and of the host's own state a program of which operations may have been
taken off the front, and variables in canonical form. -/
theorem hostTurn_cases {s t : State} (h : hostTurn s = .next t) :
    ∃ u prog vars, HostEffect s u ∧ prog <:+ s.prog ∧ (HostVars.wf s.vars → HostVars.wf vars) ∧
      t = { u with prog := prog, vars := vars } := by
  cases hprog : s.prog with
  | nil =>
    obtain rfl := Host.Outcome.next.inj ((hostTurn_nil hprog).symm.trans h)
    exact ⟨s, s.prog, s.vars, .none, by rw [hprog], id, rfl⟩
  | cons op rest =>
    obtain ⟨u, heffect, ht⟩ := hostStep_cases ((hostTurn_cons hprog).symm.trans h)
    obtain ⟨-, huprog, huvars, -⟩ := heffect.host_frame
    rw [← huvars]
    obtain rfl | rfl | ⟨x, v, rfl⟩ := ht
    · exact ⟨t, t.prog, t.vars, heffect, by rw [huprog, hprog], id, rfl⟩
    · exact ⟨u, rest, u.vars, heffect, List.suffix_cons op rest, id, rfl⟩
    · exact ⟨u, rest, _, heffect, List.suffix_cons op rest, cellPut_pairwise u.vars x v, rfl⟩

/-- The four things a step can do. -/
inductive StepEffect (s : State) : State → Prop where
  | reset (hturn : nextTurn s = .reset) : StepEffect s (resetBlock (afterSched s))
  | engineIdle (hturn : nextTurn s = .engine) (hphase : s.phase = .idle) : StepEffect s (afterSched s)
  | commandEnd (hturn : nextTurn s = .engine) (hphase : s.phase = .busy) (st : Status) (r : List Byte)
      (hout : st = .ok → r.length ≤ s.params.outCap) : StepEffect s (complete st r (afterSched s))
  | host (hturn : nextTurn s = .host) (u : State) (prog : List HostOp) (vars : HostVars) (heffect : HostEffect (afterSched s) u)
      (hprog : prog <:+ s.prog) (hvars : HostVars.wf s.vars → HostVars.wf vars) :
      StepEffect s { u with prog := prog, vars := vars }

/-- Every step that gives a next state does one of them. -/
theorem step_effect {s t : State} (h : step s = .next t) : StepEffect s t := by
  cases hturn : nextTurn s with
  | reset =>
    obtain rfl := Host.Outcome.next.inj ((step_of_reset hturn).symm.trans h)
    exact .reset hturn
  | engine =>
    rw [step_of_engine hturn] at h
    cases hphase : s.phase with
    | idle =>
      obtain rfl := Host.Outcome.next.inj ((engineTurn_idle (s := afterSched s) hphase).symm.trans h)
      exact .engineIdle hturn hphase
    | busy =>
      rw [engineTurn_busy (s := afterSched s) hphase] at h
      obtain ⟨st, r, hexec, hout, -⟩ := exec_eq_complete (resolve s.curAlgo s.curDir) (afterSched s)
      obtain rfl := Host.Outcome.next.inj (hexec.symm.trans h)
      exact .commandEnd hturn hphase st r hout
  | host =>
    rw [step_of_host hturn] at h
    obtain ⟨u, prog, vars, heffect, hprog, hvars, rfl⟩ := hostTurn_cases h
    exact .host hturn u prog vars heffect hprog hvars

end Sys2Proof.Machine
end

section
/-! SUPPORT. The invariant of the machine: every operation of the block keeps it, and so does every step. -/

namespace Sys2Proof.Machine

/-! ### Host writes by phase -/

section
variable {s : State}

/-- A byte written while no command runs is stored (R63). -/
theorem putInByte_idle (h : s.phase = .idle) (i : Nat) (b : Byte) :
    putInByte s i b = { s with inBuf := cellPut s.inBuf i b } := by simp only [putInByte, h]

/-- A byte written while a command runs is ignored (R63, R236). -/
theorem putInByte_busy (h : s.phase = .busy) (i : Nat) (b : Byte) : putInByte s i b = s := by simp only [putInByte, h]

/-- A word written while a command runs is ignored (R63, R236). -/
theorem putInWord_busy (h : s.phase = .busy) (i : Nat) (v : Word) : putInWord s i v = s := by
  simp only [putInWord, putInByte_busy h]

/-- A read of OUT_BUF while no command runs leaves everything as it is (R70). -/
theorem afterOutRead_idle (h : s.phase = .idle) : afterOutRead s = s := by simp only [afterOutRead, h]

/-- A read of OUT_BUF while a command runs is one draw more (U4). -/
theorem afterOutRead_busy (h : s.phase = .busy) : afterOutRead s = { s with draws := s.draws + 1 } := by
  simp only [afterOutRead, h]

end

/-! ### What keeps the invariant -/

/-- The invariant holds right after reset, for parameters in their bounds (R43). -/
theorem inv_resetWith {p : Params} (hp : p.wf) : (State.resetWith p).Inv where
  params := hp
  busyClear := nofun
  busyLatch := nofun
  errCode := Nat.zero_le _
  errNoOut := fun _ => rfl
  inWf := List.Pairwise.nil
  inBound := nofun
  outKeys := rfl
  outBound := Nat.zero_le _
  varsWf := List.Pairwise.nil

section
variable {s : State}

/-- Every status has a code of at most 4 (R210). -/
theorem toNat_statusCode_le (st : Status) : (statusCode st).toNat ≤ 4 := by cases st <;> decide

/-- Reset gives the block the state right after reset, and the host keeps its variables (R230). -/
theorem State.Inv.resetBlock (h : s.Inv) : (resetBlock s).Inv := { inv_resetWith h.params with varsWf := h.varsWf }

/-- A command start clears what it must and latches what REG.CMD and IN_LEN read (R186). -/
theorem State.Inv.commandStart (h : s.Inv) (w : Word) : (commandStart w s).Inv :=
  { h with
    busyClear := fun _ => ⟨rfl, rfl, rfl, rfl⟩
    busyLatch := fun _ => ⟨rfl, rfl, rfl⟩
    errCode := Nat.zero_le _
    errNoOut := fun _ => rfl
    outKeys := rfl
    outBound := Nat.zero_le _ }

/-- Command end defines exactly the bytes of its output, which fits OUT_BUF (R190, R193). -/
theorem State.Inv.complete (h : s.Inv) {st : Status} {r : List Byte} (hout : st = .ok → r.length ≤ s.params.outCap) :
    (complete st r s).Inv := by
  obtain ⟨-, -, -, hcap⟩ := h.params
  have hlen : (Machine.complete st r s).outLen.toNat = if st = .ok then r.length else 0 :=
    (complete_ends st r s fun hok => by have := hout hok; omega).outLen
  refine { h with busyClear := nofun, busyLatch := nofun, errCode := toNat_statusCode_le st, errNoOut := fun herr => ?_,
                  outKeys := ?_, outBound := ?_ }
  · rw [complete_outLen, if_neg (mt (statusCode_eq_zero_iff st).mpr herr)]
  · rw [hlen, complete_outBuf]
    split
    · exact cellsFrom_zero_keys r
    · rfl
  · rw [hlen, complete_params]
    split
    next hok => exact hout hok
    next => exact Nat.zero_le _

/-- A byte written inside IN_BUF keeps its canonical form and bound (R35). -/
theorem State.Inv.putInByte (h : s.Inv) {i : Nat} (hi : i < s.params.inCap) (b : Byte) : (putInByte s i b).Inv := by
  cases hphase : s.phase with
  | busy => rwa [putInByte_busy hphase]
  | idle =>
    rw [putInByte_idle hphase]
    refine { h with inWf := Memory.wf_cellPut _ i b h.inWf, inBound := fun c hc => ?_ }
    obtain rfl | hc := cellPut_keys_mem s.inBuf i b c hc
    · exact hi
    · exact h.inBound c hc

/-- A word written inside IN_BUF is four such bytes (R66). -/
theorem State.Inv.putInWord (h : s.Inv) {i : Nat} (hi : i + 4 ≤ s.params.inCap) (v : Word) : (putInWord s i v).Inv := by
  have h0 := h.putInByte (i := i) (by omega) (v.extractLsb' 0 8)
  have h1 := h0.putInByte (i := i + 1) (by rw [putInByte_params]; omega) (v.extractLsb' 8 8)
  have h2 := h1.putInByte (i := i + 2) (by rw [putInByte_params, putInByte_params]; omega) (v.extractLsb' 16 8)
  exact h2.putInByte (by rw [putInByte_params, putInByte_params, putInByte_params]; omega) _

/-- A register write keeps the invariant: IN_LEN is written while no command runs only (R27, R236). -/
theorem State.Inv.writeReg (h : s.Inv) (r : Reg) (v : Word) : (writeReg s r v).Inv := by
  cases r with
  | cmd =>
    cases hphase : s.phase with
    | idle => rw [writeReg_cmd_idle hphase]; exact h.commandStart v
    | busy => rwa [writeReg_cmd_busy hphase]
  | status =>
    rw [Machine.writeReg]
    split
    · exact { h with busyClear := fun hbusy => ⟨rfl, (h.busyClear hbusy).2⟩ }
    · exact h
  | inLen =>
    cases hphase : s.phase with
    | idle =>
      rw [writeReg_inLen_idle hphase]
      exact { h with busyLatch := fun hbusy => nomatch hphase.symm.trans hbusy }
    | busy => rwa [writeReg_inLen_busy hphase]
  | irqEn => exact { h with }
  | outLen | reserved => exact h

/-- Every effect of a host operation on the block keeps the invariant. -/
theorem State.Inv.hostEffect (h : s.Inv) {u : State} (heffect : HostEffect s u) : u.Inv := by
  cases heffect with
  | none => exact h
  | outRead =>
    cases hphase : s.phase with
    | idle => rwa [afterOutRead_idle hphase]
    | busy => rw [afterOutRead_busy hphase]; exact { h with }
  | inByte i b hi => exact h.putInByte hi b
  | inWord i v hi => exact h.putInWord hi v
  | reg r v => exact h.writeReg r v

/-- The invariant says nothing of the schedule. -/
theorem State.Inv.afterSched (h : s.Inv) : (afterSched s).Inv := { h with }

end

/-- Settles O37: each thing a step can do keeps the invariant. -/
theorem stepKeepsInvariant : Obligations.StepKeepsInvariant := by
  unfold Obligations.StepKeepsInvariant
  intro s t h hstep
  cases step_effect hstep with
  | reset => exact h.afterSched.resetBlock
  | engineIdle => exact h.afterSched
  | commandEnd _ _ st r hout => exact h.afterSched.complete hout
  | host _ u prog vars heffect _ hvars => exact { h.afterSched.hostEffect heffect with varsWf := hvars h.varsWf }

/-- Settles O36: the parameters of the state after reset are in R5's bounds. -/
theorem resetMeetsInvariant : Obligations.ResetMeetsInvariant := inv_resetWith (by decide)

end Sys2Proof.Machine
end

section
/-! SUPPORT. A host program whose accesses are admitted runs without a fault, and a running command ends (20_memory.md R60;
44_registry.md R191; 60_exceptions.md R221). -/

namespace Sys2Proof.Machine

/-- No effect of a step changes the parameters, and the host's program only gets shorter (R42, R72). -/
theorem StepEffect.params_prog {s t : State} (h : StepEffect s t) : t.params = s.params ∧ t.prog <:+ s.prog := by
  cases h with
  | reset | engineIdle | commandEnd => exact ⟨rfl, List.suffix_rfl⟩
  | host _ u prog vars heffect hprog _ => exact ⟨heffect.host_frame.1, hprog⟩

/-- A program whose accesses are admitted stays one. -/
theorem StepEffect.progAdmitted {s t : State} (h : StepEffect s t) (hs : s.progAdmitted) : t.progAdmitted := by
  obtain ⟨hparams, hprog⟩ := h.params_prog
  intro op hop
  rw [hparams]
  exact hs op (hprog.subset hop)

/-- With a program whose accesses are admitted there is a next state, whoever moves. -/
theorem exists_step {s : State} (hs : s.progAdmitted) : ∃ t, step s = .next t := by
  cases hturn : nextTurn s with
  | reset => exact ⟨_, step_of_reset hturn⟩
  | engine =>
    rw [step_of_engine hturn]
    cases hphase : s.phase with
    | idle => exact ⟨_, engineTurn_idle (s := afterSched s) hphase⟩
    | busy =>
      obtain ⟨st, r, hexec, -⟩ := exec_eq_complete (resolve s.curAlgo s.curDir) (afterSched s)
      exact ⟨_, (engineTurn_busy (s := afterSched s) hphase).trans hexec⟩
  | host =>
    rw [step_of_host hturn]
    cases hprog : s.prog with
    | nil => exact ⟨_, hostTurn_nil (s := afterSched s) hprog⟩
    | cons op rest =>
      rw [hostTurn_cons (s := afterSched s) hprog]
      exact hostStep_admitted op rest (afterSched s) (hs op (hprog ▸ List.mem_cons_self))

/-- A run of one step more begins with that step. -/
theorem run_succ {M : Host.Core} {s t : M.State} (h : M.step s = .next t) (n : Nat) : M.run (n + 1) s = M.run n t := by
  rw [Host.Core.run, h]

/-- Every run of a program whose accesses are admitted is safe (R221). -/
theorem safeRun_of_progAdmitted {s : State} (n : Nat) (hs : s.progAdmitted) : SafeRun n s := by
  induction n generalizing s with
  | zero => exact ⟨s, rfl⟩
  | succ n ih =>
    obtain ⟨t, ht⟩ := exists_step hs
    obtain ⟨u, hu⟩ := ih ((step_effect ht).progAdmitted hs)
    exact ⟨u, (run_succ (M := core) ht n).trans hu⟩

/-- Settles O38: there is a next state, it keeps what the claim needs, and so there is a run of any length. -/
theorem admittedProgramsNeverFault : Obligations.AdmittedProgramsNeverFault := by
  unfold Obligations.AdmittedProgramsNeverFault
  refine ⟨fun s hs => ?_, fun s n hs => safeRun_of_progAdmitted n hs⟩
  obtain ⟨t, ht⟩ := exists_step hs
  exact ⟨t, ht, (step_effect ht).params_prog.1, (step_effect ht).progAdmitted hs⟩

/-- An access no window admits is a bus error of the host agent (R221). -/
theorem hostStep_of_not_admitted {op : HostOp} {s : State} (h : opAdmitted s.params op = false) (rest : List HostOp) :
    ∃ off, hostStep op rest s = .fault (.busError off) := by
  cases op with
  | wr32 off v => exact ⟨off, by simp [hostStep, (wordAccess_busError h).2]⟩
  | wr8 off b => exact ⟨off, by simp [hostStep, (byteAccess_busError h).2]⟩
  | rd32 off x => exact ⟨off, by simp [hostStep, (wordAccess_busError h).1]⟩
  | rd8 off x => exact ⟨off, by simp [hostStep, (byteAccess_busError h).1]⟩
  | poll off m v => exact ⟨off, by simp [hostStep, (wordAccess_busError h).1]⟩
  | waitIrq => cases h

/-- Settles O23: an admitted access has a next state, any other a fault, and no outcome is both. -/
theorem busErrorExactlyWhenNotAdmitted : Obligations.BusErrorExactlyWhenNotAdmitted := by
  unfold Obligations.BusErrorExactlyWhenNotAdmitted
  intro s op rest
  cases h : opAdmitted s.params op with
  | true =>
    obtain ⟨t, ht⟩ := hostStep_admitted op rest s h
    simp [ht]
  | false =>
    obtain ⟨off, hoff⟩ := hostStep_of_not_admitted h rest
    simp [hoff]

end Sys2Proof.Machine
end

section
/-! SUPPORT. What the turns of the three agents do (10_state.md R20, R21, R43; 20_memory.md R72; 30_encoding.md R93;
70_reset_and_hazards.md R230). -/

namespace Sys2Proof.Machine

/-! ### The engine's turn -/

/-- A placed command word is accepted and the engine moves next: the step is its command, from its command start (R186, R188). -/
theorem step_withFetchWord (s : State) {w : Nat} (hw : w < 2 ^ 32) :
    step (s.withFetchWord 32 w) = exec (decodeWord (BitVec.ofNat 32 w)) (commandStart (BitVec.ofNat 32 w) s) := by
  rw [State.withFetchWord, loadCommand, Nat.mod_eq_of_lt hw]
  exact engineTurn_commandStart (BitVec.ofNat 32 w) s

/-- Settles O5: the engine's turn, and the word that the latched fields assemble. -/
theorem stepRunsTheLatchedCommand : Obligations.StepRunsTheLatchedCommand := by
  unfold Obligations.StepRunsTheLatchedCommand
  refine ⟨fun s hbusy hturn => ?_, fun s w hw => step_withFetchWord s hw⟩
  obtain ⟨-, -, hwf⟩ := fields_resolve s.curAlgo s.curDir
  rw [decodeWord_cmdWord, step_of_engine hturn, engineTurn_busy (s := afterSched s) hbusy]
  exact ⟨rfl, hwf⟩

/-! ### The host's turn -/

/-- A variable after a store: the value stored in the one named, the others as before (R93). -/
theorem hostVar_store {s : State} (h : HostVars.wf s.vars) (x : Nat) (v : Word) (rest : List HostOp) (y : Nat) :
    hostVar { s with vars := cellPut s.vars x v, prog := rest } y = if y = x then v else hostVar s y := by
  rw [hostVar, cellGet_cellPut s.vars x y v h]
  split
  · rfl
  · rfl

/-- What storing a value read does to the host, the read having left its variables alone (R93). -/
theorem hostStore_spec {s t : State} (hvars : t.vars = s.vars) (rest : List HostOp) (x : Nat) (v : Word) :
    ∃ u, hostStore rest x v t = .next u ∧ u = { t with vars := u.vars, prog := rest } ∧
      (HostVars.wf s.vars → ∀ y, hostVar u y = if y = x then v else hostVar s y) := by
  refine ⟨_, rfl, rfl, fun hwf y => ?_⟩
  rw [hostVar_store (hvars ▸ hwf), hostVar, hostVar, hvars]

/-- What a read leaves of the host's variables. -/
theorem vars_of_read {s t : State} (h : t = s ∨ t = afterOutRead s) : t.vars = s.vars := by
  obtain rfl | rfl := h
  · rfl
  · exact afterOutRead_vars s

/-- Settles O6: the turns by whose they are, and the operations of R93 one by one. -/
theorem hostAndIdleTurns : Obligations.HostAndIdleTurns := by
  unfold Obligations.HostAndIdleTurns
  refine fun s => ⟨fun hturn op rest hprog => ?_, fun hturn hprog => ?_, fun hturn hidle => ?_, fun rest off m w v x t =>
    ⟨fun hwrite => ?_, fun hwrite => ?_, fun r hread => ⟨?_, ?_⟩, fun r hread => ?_, ?_⟩⟩
  · exact (step_of_host hturn).trans (hostTurn_cons (s := afterSched s) hprog)
  · exact (step_of_host hturn).trans (hostTurn_nil (s := afterSched s) hprog)
  · exact (step_of_engine hturn).trans (engineTurn_idle (s := afterSched s) hidle)
  · simp only [hostStep, offsetOf_busAddr, hwrite, hostNext]
  · simp only [hostStep, offsetOf_busAddr, hwrite, hostNext]
  · simp only [hostStep, offsetOf_busAddr, hread]
    exact hostStore_spec (vars_of_read (memRead32_cases hread)) rest x r
  · simp only [hostStep, offsetOf_busAddr, hread, hostNext]
    split
    · rfl
    · rfl
  · simp only [hostStep, offsetOf_busAddr, hread]
    exact hostStore_spec (vars_of_read (memRead8_cases hread)) rest x (r.setWidth 32)
  · simp only [hostStep, hostNext]
    split
    · rfl
    · rfl

/-! ### Reset -/

/-- Every register reads 0 after a reset (R43, R230). -/
theorem readReg_resetBlock (s : State) (r : Reg) : readReg (resetBlock s) r = 0#32 := by
  cases r with
  | cmd => exact (by decide : cmdWord 0x00#8 .compress = 0#32)
  | status => exact (by decide : (0#24 ++ 0#4 ++ 0#2 ++ BitVec.ofBool false ++ busyBit .idle : Word) = 0#32)
  | irqEn => exact (by decide : (0#31 ++ BitVec.ofBool false : Word) = 0#32)
  | inLen | outLen | reserved => rfl

/-- Settles O8: reset gives every field its value of R43, whatever it held. -/
theorem resetTurnClearsTheBlock : Obligations.ResetTurnClearsTheBlock := by
  unfold Obligations.ResetTurnClearsTheBlock
  exact fun s hturn => ⟨_, step_of_reset hturn, readReg_resetBlock _, rfl, rfl, rfl, rfl, rfl, fun _ => rfl, fun _ => rfl, rfl⟩

/-- Settles O9: the registers one by one, and two buffers that list nothing. -/
theorem resetStateValues : Obligations.ResetStateValues := by
  unfold Obligations.ResetStateValues
  refine ⟨fun r => ?_, rfl, rfl, fun _ => rfl, fun _ => rfl⟩
  cases r with
  | cmd | status | inLen | outLen | irqEn | reserved => rfl

end Sys2Proof.Machine
end

section
/-! SUPPORT. What a host operation can change, by the phase of the engine (10_state.md R33; 20_memory.md R73; 44_registry.md R191,
R194; 70_reset_and_hazards.md R236). -/

namespace Sys2Proof.Machine

/-! ### While a command runs -/

/-- While a command runs, a host operation can change DONE and IRQ_EN, and make a draw; the block ignores the rest (R73, R236). -/
theorem HostEffect.eq_of_busy {s u : State} (h : HostEffect s u) (hbusy : s.phase = .busy) :
    u = { s with done := u.done, irqEn := u.irqEn, draws := u.draws } := by
  cases h with
  | none => rfl
  | outRead => rw [afterOutRead_busy hbusy]
  | inByte i b _ => rw [putInByte_busy hbusy]
  | inWord i v _ => rw [putInWord_busy hbusy]
  | reg r v =>
    cases r with
    | cmd => rw [writeReg_cmd_busy hbusy]
    | inLen => rw [writeReg_inLen_busy hbusy]
    | status =>
      rw [writeReg]
      split
      · rfl
      · rfl
    | outLen | irqEn | reserved => rfl

/-- Settles O40: the turns other than reset, with what each of them leaves. -/
theorem inputFixedWhileBusy : Obligations.InputFixedWhileBusy := by
  unfold Obligations.InputFixedWhileBusy
  intro s t hbusy hturn hstep
  cases step_effect hstep with
  | reset hreset => exact absurd hreset hturn
  | engineIdle _ hidle => cases hidle.symm.trans hbusy
  | commandEnd => exact ⟨fun _ => rfl, rfl, rfl, rfl, rfl, rfl, rfl⟩
  | host _ u prog vars heffect _ _ =>
    rw [heffect.eq_of_busy hbusy]
    exact ⟨fun _ => rfl, rfl, rfl, rfl, rfl, rfl, rfl⟩

/-- A step from a busy state without a reset ends the command, or it is the host's and one turn of the schedule (R191). -/
theorem StepEffect.of_busy {s t : State} (h : StepEffect s t) (hbusy : s.phase = .busy) (hturn : nextTurn s ≠ .reset) :
    (t.phase = .idle ∧ t.done = true) ∨ (nextTurn s = .host ∧ t.phase = .busy ∧ t.sched = s.sched.tail) := by
  cases h with
  | reset hreset => exact absurd hreset hturn
  | engineIdle _ hidle => cases hidle.symm.trans hbusy
  | commandEnd => exact .inl ⟨rfl, rfl⟩
  | host hhost u prog vars heffect _ _ =>
    rw [heffect.eq_of_busy hbusy]
    exact .inr ⟨hhost, hbusy, rfl⟩

/-- The head of the schedule moves next. -/
theorem nextTurn_of_cons {s : State} {turn : Turn} {rest : List Turn} (h : s.sched = turn :: rest) : nextTurn s = turn := by
  simp only [nextTurn, h]

/-- With the schedule run out, a running command ends next (R191). -/
theorem nextTurn_of_nil_busy {s : State} (h : s.sched = []) (hbusy : s.phase = .busy) : nextTurn s = .engine := by
  simp only [nextTurn, h, hbusy]

/-- Settles O42, by induction on the schedule: each step takes a turn off it, or ends the command. -/
theorem runningCommandEnds : Obligations.RunningCommandEnds := by
  unfold Obligations.RunningCommandEnds
  intro s hbusy hreset hs
  induction hsched : s.sched generalizing s with
  | nil =>
    have hturn : nextTurn s = .engine := nextTurn_of_nil_busy hsched hbusy
    obtain ⟨t, ht⟩ := exists_step hs
    obtain hend | ⟨hhost, -⟩ := (step_effect ht).of_busy hbusy (by rw [hturn]; nofun)
    · exact ⟨1, t, le_rfl, run_succ (M := core) ht 0, hend⟩
    · cases hturn.symm.trans hhost
  | cons turn rest ih =>
    have hturn : nextTurn s ≠ .reset := by
      rw [nextTurn_of_cons hsched]
      exact hreset turn (hsched ▸ List.mem_cons_self)
    obtain ⟨t, ht⟩ := exists_step hs
    obtain hend | ⟨-, hbusy', htail⟩ := (step_effect ht).of_busy hbusy hturn
    · exact ⟨1, t, Nat.le_add_left 1 _, run_succ (M := core) ht 0, hend⟩
    · rw [hsched, List.tail_cons] at htail
      have hreset' : ∀ turn ∈ t.sched, turn ≠ .reset := fun turn hmem =>
        hreset turn (hsched ▸ List.mem_cons_of_mem _ (htail ▸ hmem))
      obtain ⟨k, u, hk, hrun, hend⟩ := ih t hbusy' hreset' ((step_effect ht).progAdmitted hs) htail
      exact ⟨k + 1, u, Nat.succ_le_succ hk, (run_succ (M := core) ht k).trans hrun, hend⟩

/-! ### While no command runs -/

/-- While no command runs, a host operation starts one, or it leaves all but DONE, IRQ_EN, IN_LEN and IN_BUF as it is (R194). -/
theorem HostEffect.eq_of_idle {s u : State} (h : HostEffect s u) (hidle : s.phase = .idle) :
    u.phase = .busy ∨ u = { s with done := u.done, irqEn := u.irqEn, inLen := u.inLen, inBuf := u.inBuf } := by
  cases h with
  | none => exact .inr rfl
  | outRead => rw [afterOutRead_idle hidle]; exact .inr rfl
  | inByte i b _ => exact .inr (by rw [putInByte_idle hidle])
  | inWord i v _ =>
    refine .inr ?_
    rw [putInWord, putInByte_frame, putInByte_frame, putInByte_frame, putInByte_frame]
  | reg r v =>
    cases r with
    | cmd => rw [writeReg_cmd_idle hidle]; exact .inl rfl
    | inLen => rw [writeReg_inLen_idle hidle]; exact .inr rfl
    | status =>
      rw [writeReg]
      split
      · exact .inr rfl
      · exact .inr rfl
    | outLen | irqEn | reserved => exact .inr rfl

/-- Settles O41: the turns from an idle state, with what each of them leaves. -/
theorem outputStaysUntilNextCommand : Obligations.OutputStaysUntilNextCommand := by
  unfold Obligations.OutputStaysUntilNextCommand
  intro s t hidle hstep
  cases step_effect hstep with
  | reset hreset => exact .inl hreset
  | engineIdle => exact .inr (.inr ⟨rfl, rfl, fun _ => rfl⟩)
  | commandEnd _ hbusy => cases hidle.symm.trans hbusy
  | host _ u prog vars heffect _ _ =>
    obtain hbusy | heq := heffect.eq_of_idle hidle
    · exact .inr (.inl hbusy)
    · rw [heq]
      exact .inr (.inr ⟨rfl, rfl, fun _ => rfl⟩)

/-! ### DONE -/

/-- Offset 0x000 alone is REG.CMD's (R24). -/
theorem regAt_eq_cmd {off : Nat} (h : regAt off = .cmd) : off = 0x000 := by
  by_contra hne
  rw [regAt, if_neg hne] at h
  repeat' split at h
  all_goals cases h

/-- Offset 0x004 alone is REG.STATUS's (R24). -/
theorem regAt_eq_status {off : Nat} (h : regAt off = .status) : off = 0x004 := by
  by_contra hne
  simp only [regAt, if_neg hne] at h
  repeat' split at h
  all_goals cases h

/-- Only a command start and a 1 written to STATUS bit 1 change DONE (R33). -/
theorem writeReg_done_ne {s : State} {r : Reg} {v : Word} (h : (writeReg s r v).done ≠ s.done) :
    (r = .cmd ∧ s.phase = .idle) ∨ (r = .status ∧ v.getLsbD 1 = true) := by
  cases r with
  | cmd =>
    cases hphase : s.phase with
    | idle => exact .inl ⟨rfl, rfl⟩
    | busy => rw [writeReg_cmd_busy hphase] at h; exact absurd rfl h
  | status =>
    cases hbit : v.getLsbD 1 with
    | true => exact .inr ⟨rfl, rfl⟩
    | false => rw [writeReg, hbit] at h; exact absurd rfl h
  | inLen =>
    cases hphase : s.phase with
    | idle => rw [writeReg_inLen_idle hphase] at h; exact absurd rfl h
    | busy => rw [writeReg_inLen_busy hphase] at h; exact absurd rfl h
  | outLen | irqEn | reserved => exact absurd rfl h

/-- The one window that holds registers is the REG window, at their own offsets (R62). -/
theorem toNat_of_windowOf_reg {p : Params} {off : Word} {o : Nat} (h : windowOf p off = .reg o) : off.toNat = o := by
  rw [windowOf] at h
  split at h
  · exact Window.reg.inj h
  · split at h
    · cases h
    · split at h
      · cases h
      · cases h

/-- A word write changes DONE only at CMD while no command runs, or at STATUS with bit 1 set (R33). -/
theorem memWrite32_done_ne {s t : State} {off v : Word} (h : memWrite32 off v s = some t) (hdone : t.done ≠ s.done) :
    (off = 0x000#32 ∧ s.phase = .idle) ∨ (off = 0x004#32 ∧ v.getLsbD 1 = true) := by
  rw [memWrite32] at h
  split at h
  · split at h
    next o hwin =>
      obtain rfl := toNat_of_windowOf_reg hwin
      obtain rfl := Option.some.inj h
      obtain ⟨hreg, hphase⟩ | ⟨hreg, hbit⟩ := writeReg_done_ne hdone
      · exact .inl ⟨BitVec.eq_of_toNat_eq (regAt_eq_cmd hreg), hphase⟩
      · exact .inr ⟨BitVec.eq_of_toNat_eq (regAt_eq_status hreg), hbit⟩
    next i _ =>
      obtain rfl := Option.some.inj h
      exact absurd (putInWord_done s i v) hdone
    next i _ =>
      obtain rfl := Option.some.inj h
      exact absurd rfl hdone
    next => cases h
  · cases h

/-- A read leaves DONE alone (R70). -/
theorem done_of_read {s t : State} (h : t = s ∨ t = afterOutRead s) : t.done = s.done := by
  obtain rfl | rfl := h
  · rfl
  · exact afterOutRead_done s

/-- A host operation changes DONE only as one of the two word writes (R33). -/
theorem hostStep_done_ne {op : HostOp} {rest : List HostOp} {s t : State} (h : hostStep op rest s = .next t)
    (hdone : t.done ≠ s.done) :
    ∃ off v, op = .wr32 off v ∧
      ((off = 0x000#32 ∧ s.phase = .idle) ∨ (off = 0x004#32 ∧ (hostVal s v).getLsbD 1 = true)) := by
  cases op with
  | wr32 off v =>
    simp only [hostStep, offsetOf_busAddr] at h
    split at h
    · cases h
    next u hu =>
      obtain rfl := Host.Outcome.next.inj h
      exact ⟨off, v, rfl, memWrite32_done_ne hu hdone⟩
  | wr8 off b =>
    simp only [hostStep, offsetOf_busAddr] at h
    split at h
    · cases h
    next u hu =>
      obtain rfl := Host.Outcome.next.inj h
      obtain rfl | ⟨i, -, rfl⟩ := memWrite8_cases hu
      · exact absurd rfl hdone
      · exact absurd (putInByte_done s i _) hdone
  | rd32 off x =>
    simp only [hostStep, offsetOf_busAddr] at h
    split at h
    · cases h
    next v u hu =>
      obtain rfl := Host.Outcome.next.inj h
      exact absurd (done_of_read (memRead32_cases hu)) hdone
  | rd8 off x =>
    simp only [hostStep, offsetOf_busAddr] at h
    split at h
    · cases h
    next v u hu =>
      obtain rfl := Host.Outcome.next.inj h
      exact absurd (done_of_read (memRead8_cases hu)) hdone
  | poll off m v =>
    simp only [hostStep, offsetOf_busAddr] at h
    split at h
    · cases h
    next w u hu =>
      have hsame := done_of_read (memRead32_cases hu)
      split at h
      all_goals
        obtain rfl := Host.Outcome.next.inj h
        exact absurd hsame hdone
  | waitIrq =>
    rw [hostStep] at h
    split at h
    all_goals
      obtain rfl := Host.Outcome.next.inj h
      exact absurd rfl hdone

/-- Settles O39: the turns, and for the host's the operation at the head of its program. -/
theorem onlyFourEventsChangeDone : Obligations.OnlyFourEventsChangeDone := by
  unfold Obligations.OnlyFourEventsChangeDone
  intro s t hstep hdone
  cases hturn : nextTurn s with
  | reset => exact .inl rfl
  | engine =>
    rw [step_of_engine hturn] at hstep
    cases hphase : s.phase with
    | busy => exact .inr (.inl ⟨rfl, rfl⟩)
    | idle =>
      obtain rfl := Host.Outcome.next.inj ((engineTurn_idle (s := afterSched s) hphase).symm.trans hstep)
      exact absurd rfl hdone
  | host =>
    rw [step_of_host hturn] at hstep
    cases hprog : s.prog with
    | nil =>
      obtain rfl := Host.Outcome.next.inj ((hostTurn_nil (s := afterSched s) hprog).symm.trans hstep)
      exact absurd rfl hdone
    | cons op rest =>
      obtain ⟨off, v, rfl, hwrite⟩ := hostStep_done_ne ((hostTurn_cons (s := afterSched s) hprog).symm.trans hstep) hdone
      exact .inr (.inr ⟨rfl, off, v, rest, rfl, hwrite⟩)

end Sys2Proof.Machine
end

section
/-! SUPPORT. The register words the host reads (10_state.md R24 to R29). -/

namespace Sys2Proof.Machine

/-- The DIR bit of REG.CMD's read-back (R25, R79). -/
theorem dirBit_eq_ite (d : Dir) : dirBit d = if d = .decompress then 1#1 else 0#1 := by cases d <;> rfl

/-- EN above 31 zeros is the word 1 or 0 (R29). -/
theorem zeros_append_ofBool (b : Bool) : (0#31 ++ BitVec.ofBool b : Word) = if b then 1#32 else 0#32 := by cases b <;> rfl

/-- Settles O10: five registers of the REG window. -/
theorem registerOffsetsRead : Obligations.RegisterOffsetsRead := by
  unfold Obligations.RegisterOffsetsRead
  intro s
  have hread : ∀ off : Word, off.toNat < 0x1000 → off.toNat % 4 = 0 →
      memRead32 off s = some (readReg s (regAt off.toNat), s) := fun off => memRead32_reg off s
  rw [← dirBit_eq_ite, ← zeros_append_ofBool]
  exact ⟨hread 0x000#32 (by decide) (by decide), hread 0x004#32 (by decide) (by decide), hread 0x008#32 (by decide) (by decide),
    hread 0x00C#32 (by decide) (by decide), hread 0x010#32 (by decide) (by decide)⟩

/-- STATUS bit by bit: BUSY, DONE, two zeros, the four bits of ERR, and zeros (R26). -/
theorem statusWord_getLsbD (s : State) (i : Nat) : (statusWord s).getLsbD i =
    if i = 0 then decide (s.phase = .busy) else if i = 1 then s.done else if i < 4 then false else s.err.getLsbD (i - 4) := by
  have hbusy : (busyBit s.phase).getLsbD 0 = decide (s.phase = .busy) := by cases s.phase <;> rfl
  show (0#24 ++ s.err ++ 0#2 ++ BitVec.ofBool s.done ++ busyBit s.phase : BitVec (24 + 4 + 2 + 1 + 1)).getLsbD i = _
  rw [BitVec.getLsbD_append, BitVec.getLsbD_append, BitVec.getLsbD_append, BitVec.getLsbD_append]
  match i with
  | 0 => exact hbusy
  | 1 => simp
  | 2 | 3 => simp
  | i + 4 =>
    by_cases herr : i < 4
    · simp [herr]
    · simpa [herr] using BitVec.getLsbD_of_ge s.err i (by omega)

/-- ERR is bits 7:4 of STATUS (R26). -/
theorem statusWord_extractLsb'_err (s : State) : (statusWord s).extractLsb' 4 4 = s.err := by
  apply BitVec.eq_of_getLsbD_eq
  intro i hi
  rw [BitVec.getLsbD_extractLsb', statusWord_getLsbD, if_neg (by omega), if_neg (by omega), if_neg (by omega),
    Nat.add_sub_cancel_left]
  simp [hi]

/-- The reserved bits of STATUS read 0 (R26). -/
theorem statusWord_reserved (s : State) : statusWord s &&& 0xFFFFFF0C#32 = 0#32 := by
  have hmask : ∀ i, i < 32 → (0xFFFFFF0C#32).getLsbD i = decide (i = 2 ∨ i = 3 ∨ 8 ≤ i) := by decide
  apply BitVec.eq_of_getLsbD_eq
  intro i hi
  rw [BitVec.getLsbD_and, hmask i hi, BitVec.getLsbD_zero, statusWord_getLsbD]
  by_cases hlow : i = 2 ∨ i = 3
  · obtain rfl | rfl := hlow <;> rfl
  · by_cases hhigh : 8 ≤ i
    · have herr : s.err.getLsbD (i - 4) = false := BitVec.getLsbD_of_ge _ _ (by omega)
      rw [if_neg (by omega), if_neg (by omega), if_neg (by omega), herr, Bool.false_and]
    · have hunmasked : ¬ (i = 2 ∨ i = 3 ∨ 8 ≤ i) := by omega
      rw [decide_eq_false hunmasked, Bool.and_false]

/-- A STATUS write clears DONE when bit 1 is written as 1, and changes nothing else (R26). -/
theorem writeReg_status (s : State) (v : Word) : writeReg s .status v = { s with done := s.done && !v.getLsbD 1 } := by
  rw [writeReg]
  cases v.getLsbD 1 with
  | true => rw [Bool.not_true, Bool.and_false]; rfl
  | false => rw [Bool.not_false, Bool.and_true]; rfl

/-- Settles O11: STATUS bit by bit, and its write. -/
theorem statusFieldsAndWriteOneToClear : Obligations.StatusFieldsAndWriteOneToClear := by
  unfold Obligations.StatusFieldsAndWriteOneToClear
  refine fun s => ⟨⟨statusWord_getLsbD s 0, statusWord_getLsbD s 1, statusWord_extractLsb'_err s, statusWord_reserved s⟩,
    fun v => ?_⟩
  rw [← writeReg_status]
  exact memWrite32_reg _ v s (by decide) (by decide)

end Sys2Proof.Machine
end

section
/-! SUPPORT. Accesses to the two buffers (20_memory.md R63, R64, R66, R68, R70): what is admitted, what a read gives, what a write
leaves. -/

namespace Sys2Proof.Machine

/-! ### An access to a byte of a window -/

/-- A byte access is admitted everywhere in IN_BUF (R63). -/
@[simp] theorem admits_one_inBuf (p : Params) (i : Nat) : admits p 1 (.inBuf i) = true := rfl

/-- A byte access is admitted everywhere in OUT_BUF (R64). -/
@[simp] theorem admits_one_outBuf (p : Params) (i : Nat) : admits p 1 (.outBuf i) = true := rfl

/-- A word access to IN_BUF is admitted at multiples of 4 with all four bytes inside (R63, R68). -/
theorem admits_four_inBuf (p : Params) (i : Nat) : admits p 4 (.inBuf i) = true ↔ i % 4 = 0 ∧ i + 3 < p.inCap := by
  show _ ↔ i % 4 = 0 ∧ i + 4 ≤ p.inCap
  simp [admits]

/-- A word access to OUT_BUF is admitted at multiples of 4 with all four bytes inside (R64, R68). -/
theorem admits_four_outBuf (p : Params) (i : Nat) : admits p 4 (.outBuf i) = true ↔ i % 4 = 0 ∧ i + 3 < p.outCap := by
  show _ ↔ i % 4 = 0 ∧ i + 4 ≤ p.outCap
  simp [admits]

/-- IN_BUF byte i is at offset 0x40000000 + i (R62). -/
theorem windowOf_inBase_add {s : State} (hp : s.params.wf) {i : Nat} (hi : i < s.params.inCap) :
    windowOf s.params (BitVec.ofNat 32 (0x40000000 + i)) = .inBuf i :=
  (windowMapAndHoles s hp).1 i hi

/-- OUT_BUF byte i is at offset 0x80000000 + i (R62). -/
theorem windowOf_outBase_add {s : State} (hp : s.params.wf) {i : Nat} (hi : i < s.params.outCap) :
    windowOf s.params (BitVec.ofNat 32 (0x80000000 + i)) = .outBuf i :=
  (windowMapAndHoles s hp).2.1 i hi

section
variable {s : State} {off : Word} {i : Nat}

/-- A byte read of IN_BUF (R63). -/
theorem memRead8_inBuf (hwin : windowOf s.params off = .inBuf i) : memRead8 off s = some (inByte s i, s) := by
  simp only [memRead8, hwin, admits_one_inBuf, if_true]

/-- A byte write of IN_BUF (R63). -/
theorem memWrite8_inBuf (hwin : windowOf s.params off = .inBuf i) (b : Byte) : memWrite8 off b s = some (putInByte s i b) := by
  simp only [memWrite8, hwin, admits_one_inBuf, if_true]

/-- A word read of IN_BUF, where it is admitted (R66). -/
theorem memRead32_inBuf (hwin : windowOf s.params off = .inBuf i) (h : i % 4 = 0 ∧ i + 3 < s.params.inCap) :
    memRead32 off s = some (lanes (inByte s) i, s) := by
  simp only [memRead32, hwin, (admits_four_inBuf _ _).mpr h, if_true]

/-- A word write of IN_BUF, where it is admitted (R66). -/
theorem memWrite32_inBuf (hwin : windowOf s.params off = .inBuf i) (h : i % 4 = 0 ∧ i + 3 < s.params.inCap) (v : Word) :
    memWrite32 off v s = some (putInWord s i v) := by
  simp only [memWrite32, hwin, (admits_four_inBuf _ _).mpr h, if_true]

/-- A byte read of OUT_BUF (R64). -/
theorem memRead8_outBuf (hwin : windowOf s.params off = .outBuf i) : memRead8 off s = some (outByte s i, afterOutRead s) := by
  simp only [memRead8, hwin, admits_one_outBuf, if_true]

/-- A byte write of OUT_BUF is ignored (R64). -/
theorem memWrite8_outBuf (hwin : windowOf s.params off = .outBuf i) (b : Byte) : memWrite8 off b s = some s := by
  simp only [memWrite8, hwin, admits_one_outBuf, if_true]

/-- A word read of OUT_BUF, where it is admitted (R66). -/
theorem memRead32_outBuf (hwin : windowOf s.params off = .outBuf i) (h : i % 4 = 0 ∧ i + 3 < s.params.outCap) :
    memRead32 off s = some (lanes (outByte s) i, afterOutRead s) := by
  simp only [memRead32, hwin, (admits_four_outBuf _ _).mpr h, if_true]

/-- A word write of OUT_BUF is ignored where it is admitted (R64). -/
theorem memWrite32_outBuf (hwin : windowOf s.params off = .outBuf i) (h : i % 4 = 0 ∧ i + 3 < s.params.outCap) (v : Word) :
    memWrite32 off v s = some s := by
  simp only [memWrite32, hwin, (admits_four_outBuf _ _).mpr h, if_true]

end

/-! ### The accesses' obligations -/

/-- Settles O18: the accesses to IN_BUF by size, direction and phase. -/
theorem inWindowAccesses : Obligations.InWindowAccesses := by
  unfold Obligations.InWindowAccesses
  intro s i hp hwf hi
  have hwin := windowOf_inBase_add hp hi
  refine ⟨memRead8_inBuf hwin, ?_, fun v => ?_, fun hbusy => ⟨fun b => ?_, fun v halign hfit => ?_⟩, fun hidle b => ?_⟩
  · rw [memRead32_isSome, hwin, admits_four_inBuf]
  · rw [memWrite32_isSome, hwin, admits_four_inBuf]
  · rw [memWrite8_inBuf hwin, putInByte_busy hbusy]
  · rw [memWrite32_inBuf hwin ⟨halign, hfit⟩, putInWord_busy hbusy]
  · exact ⟨_, memWrite8_inBuf hwin b, putInByte_frame s i b, putInByte_wf s i b hwf, inByte_putInByte s i b hwf hidle⟩

/-- Settles O19: the accesses to OUT_BUF by size and direction, and what its bytes read as in each phase. -/
theorem outWindowAccesses : Obligations.OutWindowAccesses := by
  unfold Obligations.OutWindowAccesses
  intro s i hp hi
  have hwin := windowOf_outBase_add hp hi
  refine ⟨⟨_, memRead8_outBuf hwin⟩, fun hidle => ?_, fun hbusy => ?_, ?_, memWrite8_outBuf hwin, fun v => ?_⟩
  · simp only [outByte, hidle]
  · simp only [outByte, hbusy]
  · rw [memRead32_isSome, hwin, admits_four_outBuf]
  · split
    next h => exact memWrite32_outBuf hwin h v
    next h =>
      refine (wordAccess_busError ?_).2 v
      rw [hwin, ← Bool.not_eq_true, admits_four_outBuf]
      exact h

/-- A word written while no command runs stores its four lanes and no other byte (R66). -/
theorem inByte_putInWord {s : State} (hwf : Memory.wf s.inBuf) (hidle : s.phase = .idle) (i : Nat) (v : Word) (j : Nat) :
    inByte (putInWord s i v) j =
      if j = i then v.extractLsb' 0 8 else if j = i + 1 then v.extractLsb' 8 8
      else if j = i + 2 then v.extractLsb' 16 8 else if j = i + 3 then v.extractLsb' 24 8 else inByte s j := by
  rw [putInWord, inByte_putInByte _ _ _ (putInByte_wf _ _ _ (putInByte_wf _ _ _ (putInByte_wf _ _ _ hwf))) (by simpa),
    inByte_putInByte _ _ _ (putInByte_wf _ _ _ (putInByte_wf _ _ _ hwf)) (by simpa),
    inByte_putInByte _ _ _ (putInByte_wf _ _ _ hwf) (by simpa), inByte_putInByte _ _ _ hwf hidle]
  obtain rfl | rfl | rfl | rfl | ⟨h0, h1, h2, h3⟩ :
      j = i ∨ j = i + 1 ∨ j = i + 2 ∨ j = i + 3 ∨ (j ≠ i ∧ j ≠ i + 1 ∧ j ≠ i + 2 ∧ j ≠ i + 3) := by omega
  · simp
  · simp
  · simp
  · simp
  · simp only [if_neg h0, if_neg h1, if_neg h2, if_neg h3]

/-- A host write of a word of IN_BUF changes nothing but IN_BUF. -/
theorem putInWord_frame (s : State) (i : Nat) (v : Word) : putInWord s i v = { s with inBuf := (putInWord s i v).inBuf } := by
  rw [putInWord, putInByte_frame, putInByte_frame, putInByte_frame, putInByte_frame]

/-- Settles O21: the value of four lanes, and the four bytes of a word written. -/
theorem littleEndianLanes : Obligations.LittleEndianLanes := by
  unfold Obligations.LittleEndianLanes
  intro s a hp hwf halign
  refine ⟨fun hfit => ?_, fun hfit => ?_, fun hfit hidle v => ?_⟩
  · exact ⟨_, memRead32_inBuf (windowOf_inBase_add hp (by omega)) ⟨halign, hfit⟩, lanes_toNat _ _⟩
  · exact ⟨_, _, memRead32_outBuf (windowOf_outBase_add hp (by omega)) ⟨halign, hfit⟩, lanes_toNat _ _⟩
  · exact ⟨_, memWrite32_inBuf (windowOf_inBase_add hp (by omega)) ⟨halign, hfit⟩ v, putInWord_frame s a v,
      inByte_putInWord hwf hidle a v⟩

/-! ### Reads have no side effect -/

/-- A word read leaves the state, or it is of OUT_BUF and leaves what such a read leaves (R70). -/
theorem memRead32_effect {off : Word} {s t : State} {v : Word} (h : memRead32 off s = some (v, t)) :
    t = s ∨ (∃ i, windowOf s.params off = .outBuf i) ∧ t = afterOutRead s := by
  rw [memRead32] at h
  split at h
  · split at h
    next => cases h; exact .inl rfl
    next => cases h; exact .inl rfl
    next i hwin => cases h; exact .inr ⟨⟨i, hwin⟩, rfl⟩
    next => cases h
  · cases h

/-- A byte read leaves the state, or it is of OUT_BUF and leaves what such a read leaves (R70). -/
theorem memRead8_effect {off : Word} {s t : State} {v : Byte} (h : memRead8 off s = some (v, t)) :
    t = s ∨ (∃ i, windowOf s.params off = .outBuf i) ∧ t = afterOutRead s := by
  rw [memRead8] at h
  split at h
  · split at h
    next => cases h; exact .inl rfl
    next i hwin => cases h; exact .inr ⟨⟨i, hwin⟩, rfl⟩
    next => cases h
    next => cases h
  · cases h

/-- All a read of OUT_BUF changes is the count of draws (U4). -/
theorem afterOutRead_frame (s : State) : afterOutRead s = { s with draws := (afterOutRead s).draws } := by
  unfold afterOutRead
  split
  · rfl
  · rfl

/-- What a read with such an effect leaves, by window and phase (R70). -/
theorem eq_of_readEffect {off : Word} {s t : State}
    (h : t = s ∨ (∃ i, windowOf s.params off = .outBuf i) ∧ t = afterOutRead s) :
    t = { s with draws := t.draws } ∧ ((∀ i, windowOf s.params off ≠ .outBuf i) → t = s) ∧ (s.phase = .idle → t = s) := by
  obtain rfl | ⟨⟨i, hwin⟩, rfl⟩ := h
  · exact ⟨rfl, fun _ => rfl, fun _ => rfl⟩
  · exact ⟨afterOutRead_frame s, fun hno => absurd hwin (hno i), afterOutRead_idle⟩

/-- Settles O22: the effect of a read, and that a read which leaves the state can be repeated. -/
theorem readsHaveNoSideEffect : Obligations.ReadsHaveNoSideEffect := by
  unfold Obligations.ReadsHaveNoSideEffect
  refine fun s t off => ⟨fun v hread => ?_, fun v hread => ?_⟩
  · obtain ⟨hdraws, hwin, hidle⟩ := eq_of_readEffect (memRead32_effect hread)
    exact ⟨hdraws, hwin, fun hphase => ⟨hidle hphase, by rwa [hidle hphase] at hread ⊢⟩⟩
  · obtain ⟨hdraws, hwin, hidle⟩ := eq_of_readEffect (memRead8_effect hread)
    exact ⟨hdraws, hwin, fun hphase => ⟨hidle hphase, by rwa [hidle hphase] at hread ⊢⟩⟩

end Sys2Proof.Machine
end

section
/-! SUPPORT. How the seven commands complete (44_registry.md R188 to R193; 60_exceptions.md R210 to R217). -/

namespace Sys2Proof.Machine

/-! ### Completion -/

/-- Settles O24: the decoder's last row, and command end with UnsupportedAlgorithm. -/
theorem unsupportedAlgorithmCompletes : Obligations.UnsupportedAlgorithmCompletes := by
  unfold Obligations.UnsupportedAlgorithmCompletes
  refine ⟨fun w halgo => ⟨_, _, resolve_of_three_le halgo _⟩, fun a d s => ⟨_, rfl, ?_, ?_, complete_sameInput _ _ s⟩⟩
  · exact complete_ends _ _ s nofun
  · exact (by decide : (0#24 ++ statusCode .unsupportedAlgorithm ++ 0#2 ++ BitVec.ofBool true ++ busyBit .idle : Word) = 0x12#32)

/-- How a command with a codec completes, by what its codec function gives for its input (R188, R190, R217). -/
theorem runCodec_completes (f : List Byte → CodecResult) (s : State) (hp : s.params.wf) :
    SameInput s (runCodec f s) ∧
    (s.params.inCap < s.curN.toNat → CommandEnds (runCodec f s) .inputTooLarge []) ∧
    (s.curN.toNat ≤ s.params.inCap → f (cmdInput s) = .error .malformed →
      CommandEnds (runCodec f s) .malformedPayload []) ∧
    (s.curN.toNat ≤ s.params.inCap → ∀ r, f (cmdInput s) = .ok r →
      (s.params.outCap < r.length → CommandEnds (runCodec f s) .outputOverflow []) ∧
      (r.length ≤ s.params.outCap → CommandEnds (runCodec f s) .ok r)) := by
  obtain ⟨hlarge, hmalformed, -, hok⟩ := runCodec_spec f s hp
  exact ⟨complete_sameInput _ _ s, hlarge, hmalformed, hok⟩

/-- How a command completes whose codec function always gives an output (R166, R147, R188). -/
theorem runCodec_total_completes (g : List Byte → List Byte) (s : State) (hp : s.params.wf) :
    SameInput s (runCodec (fun p => .ok (g p)) s) ∧
    (s.params.inCap < s.curN.toNat → CommandEnds (runCodec (fun p => .ok (g p)) s) .inputTooLarge []) ∧
    (s.curN.toNat ≤ s.params.inCap → s.params.outCap < (g (cmdInput s)).length →
      CommandEnds (runCodec (fun p => .ok (g p)) s) .outputOverflow []) ∧
    (s.curN.toNat ≤ s.params.inCap → (g (cmdInput s)).length ≤ s.params.outCap →
      CommandEnds (runCodec (fun p => .ok (g p)) s) .ok (g (cmdInput s))) := by
  obtain ⟨hsame, hlarge, -, hok⟩ := runCodec_completes (fun p => .ok (g p)) s hp
  exact ⟨hsame, hlarge, fun hin => (hok hin _ rfl).1, fun hin => (hok hin _ rfl).2⟩

/-- Settles O25: the bit count decides whether there is a frame, and the frame's length whether it fits. -/
theorem hufCompressCompletes : Obligations.HufCompressCompletes := by
  unfold Obligations.HufCompressCompletes
  intro s hp input bits frame
  obtain ⟨hlarge, -, hoverflow, hok⟩ := runCodec_spec hufCompress s hp
  refine ⟨_, rfl, complete_sameInput _ _ s, ?_⟩
  split
  next hbig => exact hlarge hbig
  next hin =>
    have hin' : s.curN.toNat ≤ s.params.inCap := Nat.not_lt.mp hin
    rcases Nat.lt_or_ge bits.length (2 ^ 32) with hlt | hge
    · have hframe : hufCompress input = .ok frame := by
        rw [show frame = _ from List.append_assoc _ _ _]
        exact hufCompress_of_lt hlt
      have hlen : frame.length = 1028 + (bits.length + 7) / 8 := by
        rw [show frame = _ from List.append_assoc _ _ _]
        exact (frame_fields (buildFreq input) _ (pack bits) (length_buildFreq input)).1.trans (by rw [length_pack])
      obtain ⟨hout, hfit⟩ := hok hin' frame hframe
      rw [hlen] at hout hfit
      split
      next h => exact hout (h.resolve_left (Nat.not_le.mpr hlt))
      next h => exact hfit (Nat.not_lt.mp (mt .inr h))
    · rw [if_pos (.inl hge)]
      exact hoverflow hin' (hufCompress_of_le hge)

/-- Settles O26: the frame of HUF.D's codec function. -/
theorem hufDecompressCompletes : Obligations.HufDecompressCompletes := by
  unfold Obligations.HufDecompressCompletes
  exact fun s hp => ⟨_, rfl, runCodec_completes hufDecompress s hp⟩

/-- Settles O27: the frame of RLE.C's codec function. -/
theorem rleCompressCompletes : Obligations.RleCompressCompletes := by
  unfold Obligations.RleCompressCompletes
  exact fun s hp => ⟨_, rfl, runCodec_total_completes rleCompress s hp⟩

/-- Settles O28: the frame of RLE.D's codec function. -/
theorem rleDecompressCompletes : Obligations.RleDecompressCompletes := by
  unfold Obligations.RleDecompressCompletes
  exact fun s hp => ⟨_, rfl, runCodec_completes rleDecompress s hp⟩

/-- Settles O29: the frame of LZ.C's codec function. -/
theorem lzCompressCompletes : Obligations.LzCompressCompletes := by
  unfold Obligations.LzCompressCompletes
  exact fun s hp => ⟨_, rfl, runCodec_total_completes lzCompress s hp⟩

/-- Settles O30: the frame of LZ.D's codec function. -/
theorem lzDecompressCompletes : Obligations.LzDecompressCompletes := by
  unfold Obligations.LzDecompressCompletes
  exact fun s hp => ⟨_, rfl, runCodec_completes lzDecompress s hp⟩

/-! ### Frame and result -/

/-- Settles O32: every command ends in command end, which after an error defines no byte of OUT_BUF. -/
theorem commandsChangeOnlyCommandEndState : Obligations.CommandsChangeOnlyCommandEndState := by
  unfold Obligations.CommandsChangeOnlyCommandEndState
  intro i s t hexec
  obtain ⟨st, r, hcomplete, -⟩ := exec_eq_complete i s
  obtain rfl := Host.Outcome.next.inj (hcomplete.symm.trans hexec)
  refine ⟨complete_sameInput st r s, rfl, fun herr => ?_⟩
  have hst : st ≠ .ok := mt (statusCode_eq_zero_iff st).mpr herr
  have hends : CommandEnds (complete st r s) st r := complete_ends st r s fun hok => absurd hok hst
  have hlen := hends.outLen_eq_zero hst
  refine ⟨hlen, fun k => hends.outFree k ?_⟩
  rw [hlen]
  exact Nat.zero_le k

/-- The status and the output of a command are those of its operands and the capacities alone (R42). -/
theorem exec_congr (i : Instr) {s s' : State} (hin : s.params.inCap = s'.params.inCap)
    (hout : s.params.outCap = s'.params.outCap) (hcurN : s.curN = s'.curN) (hinput : cmdInput s = cmdInput s') :
    ∃ st r, exec i s = .next (complete st r s) ∧ exec i s' = .next (complete st r s') := by
  cases hc : codecOf i with
  | none => exact ⟨_, _, exec_of_codecOf_none hc s, exec_of_codecOf_none hc s'⟩
  | some f =>
    refine ⟨_, _, exec_of_codecOf_some hc s, (exec_of_codecOf_some hc s').trans ?_⟩
    rw [runCodec, ← execute_congr f s s' hin hout hcurN hinput]

/-- Below OUT_LEN the host reads the output of the command, whatever the state was (R193). -/
theorem outByte_complete_of_lt {st : Status} {r : List Byte} {s : State} {k : Nat} (hk : k < (complete st r s).outLen.toNat) :
    outByte (complete st r s) k = byteAt r k := by
  rw [complete_outLen] at hk
  split at hk
  next hok =>
    rw [BitVec.toNat_ofNat] at hk
    have hlt : k < r.length := hk.trans_le (Nat.mod_le _ _)
    show (cellGet (complete st r s).outBuf k).getD _ = _
    rw [complete_outBuf, if_pos hok, cellGet_cellsFrom_zero, List.getElem?_eq_getElem hlt, Option.getD_some, byteAt,
      List.getD_eq_getElem _ _ hlt]
  next => exact absurd hk (Nat.not_lt_zero k)

/-- Settles O33: both commands end with one status and one output. -/
theorem commandResultDependsOnInputAlone : Obligations.CommandResultDependsOnInputAlone := by
  unfold Obligations.CommandResultDependsOnInputAlone
  intro i s s' t t' hin hout hcurN hbytes hexec hexec'
  have hinput : cmdInput s = cmdInput s' := by
    rw [cmdInput, cmdInput, ← hcurN]
    exact List.map_congr_left fun k hk => hbytes k (List.mem_range.mp hk)
  obtain ⟨st, r, hcomplete, hcomplete'⟩ := exec_congr i hin hout hcurN hinput
  obtain rfl := Host.Outcome.next.inj (hcomplete.symm.trans hexec)
  obtain rfl := Host.Outcome.next.inj (hcomplete'.symm.trans hexec')
  exact ⟨rfl, rfl, rfl, fun k hk => (outByte_complete_of_lt hk).trans (outByte_complete_of_lt (s := s') hk).symm⟩

end Sys2Proof.Machine
end

section
/-! SUPPORT. The round trips of LZ and Huffman (42_lz.md R152; 41_huffman.md R124), the counts (R100), and the payloads RLE.D accepts
(43_rle.md R168). -/

namespace Sys2Proof.Machine

/-- Settles O46: the decoder undoes the encoder. -/
theorem lzRoundTrip : Obligations.LzRoundTrip := lzDecompress_lzCompress

/-- Settles O58: the decoder undoes the encoder where it gives a frame. -/
theorem hufRoundTrip : Obligations.HufRoundTrip := fun _ _ => hufDecompress_of_hufCompress

/-- Settles O52: the three laws of BuildFreq. -/
theorem freqCountsOccurrences : Obligations.FreqCountsOccurrences := by
  unfold Obligations.FreqCountsOccurrences
  exact fun s hs => ⟨toNat_freqAt_buildFreq s hs, freqTotal_buildFreq s hs, length_buildFreq s⟩

/-! ### The payloads RLE.D accepts -/

/-- A payload of no whole number of records is malformed (E1 of R168). -/
theorem rleDecompress_of_mod_ne {p : List Byte} (h : p.length % 2 ≠ 0) : rleDecompress p = .error .malformed := if_pos h

/-- A record in front adds its copies to what the rest gives, and nothing to how the rest fails (R168). -/
theorem rleDecompress_record {c : Byte} (hc : c ≠ 0#8) (v : Byte) (p : List Byte) :
    rleDecompress (c :: v :: p) = (rleDecompress p).map fun out => List.replicate c.toNat v ++ out := by
  have hlen : (c :: v :: p).length % 2 = p.length % 2 := Nat.add_mod_right p.length 2
  by_cases heven : p.length % 2 = 0
  · rw [rleDecompress_of_mod_eq (hlen.trans heven), rleDecompress_of_mod_eq heven, rleExpand, if_neg hc]
  · rw [rleDecompress_of_mod_ne (hlen ▸ heven), rleDecompress_of_mod_ne heven]
    rfl

/-- Whole records with no count 0 are accepted (R168). -/
theorem exists_rleExpand_eq_ok {p : List Byte} (heven : p.length % 2 = 0)
    (hcounts : ∀ r, 2 * r + 1 < p.length → byteAt p (2 * r) ≠ 0#8) : ∃ out, rleExpand p = .ok out := by
  induction p using rleExpand.induct with
  | case1 => exact ⟨[], rfl⟩
  | case2 b => simp at heven
  | case3 v rest => exact absurd rfl (hcounts 0 (by simp))
  | case4 c v rest hc ih =>
    simp only [List.length_cons] at heven hcounts
    obtain ⟨out, hout⟩ := ih (by omega) fun r hr => hcounts (r + 1) (by omega)
    exact ⟨_, (rleExpand_record_eq_ok_iff ..).mpr ⟨hc, out, hout, rfl⟩⟩

/-- RLE decompression gives an output exactly for whole records with no count 0 (R168). -/
theorem exists_rleDecompress_eq_ok_iff (p : List Byte) :
    (∃ out, rleDecompress p = .ok out) ↔ p.length % 2 = 0 ∧ ∀ r, 2 * r + 1 < p.length → byteAt p (2 * r) ≠ 0#8 := by
  constructor
  · rintro ⟨out, hout⟩
    have heven : p.length % 2 = 0 := by
      by_contra hodd
      cases (rleDecompress_of_mod_ne hodd).symm.trans hout
    rw [rleDecompress_of_mod_eq heven] at hout
    obtain ⟨-, -, hcounts⟩ := payload_of_rleExpand_eq_ok hout
    exact ⟨heven, hcounts⟩
  · rintro ⟨heven, hcounts⟩
    rw [rleDecompress_of_mod_eq heven]
    exact exists_rleExpand_eq_ok heven hcounts

/-- A decoder that never overflows a bit count is malformed exactly where it gives no output (R9). -/
theorem eq_malformed_iff {r : CodecResult} (h : r ≠ .error .bitCountOverflow) : r = .error .malformed ↔ ¬ ∃ out, r = .ok out := by
  match r, h with
  | .ok out, _ => simp
  | .error .malformed, _ => simp
  | .error .bitCountOverflow, h => exact absurd rfl h

/-- Settles O45: the payloads that give an output, and one record in front. -/
theorem rleMalformedExactly : Obligations.RleMalformedExactly := by
  unfold Obligations.RleMalformedExactly
  refine fun p => ⟨?_, rleDecompress_ne_bitCountOverflow p, rfl, fun c v hc => ⟨fun out hout => ?_, fun hbad => ?_⟩⟩
  · rw [eq_malformed_iff (rleDecompress_ne_bitCountOverflow p), exists_rleDecompress_eq_ok_iff, not_and_or,
      Nat.mod_two_not_eq_zero]
    simp only [not_forall, not_not, exists_prop]
  · rw [rleDecompress_record hc, hout]
    rfl
  · rw [rleDecompress_record hc, hbad]
    rfl

end Sys2Proof.Machine
end

section
/-! SUPPORT. HUF.D's checks and the bit strings it accepts (41_huffman.md R118, R120, R123). -/

namespace Sys2Proof.Machine

/-! ### The checks of the frame -/

/-- M1: a payload shorter than the frequency block and NBITS is malformed (R120). -/
theorem hufDecompress_of_length_lt {p : List Byte} (h : p.length < 1028) : hufDecompress p = .error .malformed := if_pos h

/-- M2: a payload with fewer code bits than NBITS is malformed (R120). -/
theorem hufDecompress_of_bits_lt {p : List Byte} (h : 8 * (p.length - 1028) < (be32 p 1024).toNat) :
    hufDecompress p = .error .malformed := by
  rcases Nat.lt_or_ge p.length 1028 with hshort | hlen
  · exact hufDecompress_of_length_lt hshort
  · rw [← List.length_drop] at h
    rw [hufDecompress, if_neg (Nat.not_lt.mpr hlen)]
    exact if_pos h

/-- Past M1 and M2 the first NBITS code bits are decoded with the tree of the counts, and the total is checked (R120). -/
theorem hufDecompress_of_bits_le {p : List Byte} (hlen : 1028 ≤ p.length) (hbits : (be32 p 1024).toNat ≤ 8 * (p.length - 1028)) :
    hufDecompress p = (decodeBitString (buildTree (deserFreq p)) (unpack (p.drop 1028) (be32 p 1024).toNat)).bind
      (checkTotal (freqTotal (deserFreq p))) := by
  rw [← List.length_drop] at hbits
  rw [hufDecompress, if_neg (Nat.not_lt.mpr hlen)]
  exact if_neg (Nat.not_lt.mpr hbits)

/-- The last check lets an output pass exactly when it has the right length (M6 of R120). -/
theorem bind_checkTotal_eq_ok_iff (r : CodecResult) (total : Nat) (out : List Byte) :
    r.bind (checkTotal total) = .ok out ↔ r = .ok out ∧ out.length = total := by
  cases r with
  | error e => simp [Except.bind]
  | ok out' =>
    rw [Except.bind, checkTotal, Except.ok.injEq]
    split
    next hne =>
      refine iff_of_false nofun ?_
      rintro ⟨rfl, hlen⟩
      exact hne hlen
    next heq =>
      rw [Except.ok.injEq]
      exact (and_iff_left_of_imp fun h => h ▸ not_not.mp heq).symm

/-- What a decoded payload is: its bits decode with the tree of its counts, to as many bytes as the counts say (R120). -/
theorem hufDecompress_eq_ok_iff {p : List Byte} (hlen : 1028 ≤ p.length) (hbits : (be32 p 1024).toNat ≤ 8 * (p.length - 1028))
    (out : List Byte) : hufDecompress p = .ok out ↔
      decodeBitString (buildTree (deserFreq p)) (unpack (p.drop 1028) (be32 p 1024).toNat) = .ok out ∧
        out.length = freqTotal (deserFreq p) := by
  rw [hufDecompress_of_bits_le hlen hbits, bind_checkTotal_eq_ok_iff]

/-- A payload that decodes has passed M1 and M2. -/
theorem bits_le_of_hufDecompress_eq_ok {p out : List Byte} (h : hufDecompress p = .ok out) :
    1028 ≤ p.length ∧ (be32 p 1024).toNat ≤ 8 * (p.length - 1028) := by
  constructor
  · by_contra hshort
    cases (hufDecompress_of_length_lt (Nat.not_le.mp hshort)).symm.trans h
  · by_contra hfew
    cases (hufDecompress_of_bits_lt (Nat.not_le.mp hfew)).symm.trans h

/-- A payload whose bits its tree finds malformed is malformed (M3 to M5 of R120). -/
theorem hufDecompress_of_decodeBitString_malformed {p : List Byte}
    (h : decodeBitString (buildTree (deserFreq p)) (unpack (p.drop 1028) (be32 p 1024).toNat) = .error .malformed) :
    hufDecompress p = .error .malformed := by
  rw [eq_malformed_iff (hufDecompress_ne_bitCountOverflow p)]
  rintro ⟨out, hout⟩
  obtain ⟨hlen, hbits⟩ := bits_le_of_hufDecompress_eq_ok hout
  cases h.symm.trans ((hufDecompress_eq_ok_iff hlen hbits out).mp hout).1

/-! ### The counts of a payload -/

/-- Count v of a payload is its big-endian entry v (R84, R104). -/
theorem freqAt_deserFreq (p : List Byte) {v : Nat} (hv : v < 256) : freqAt (deserFreq p) v = be32 p (4 * v) := by
  rw [freqAt, deserFreq, List.getD_eq_getElem _ _ (by simpa using hv), List.getElem_map, List.getElem_range]

/-- The counts of a payload, summed (R104). -/
theorem freqTotal_deserFreq (p : List Byte) :
    freqTotal (deserFreq p) = ((List.range 256).map fun v => (be32 p (4 * v)).toNat).sum := by
  rw [freqTotal, deserFreq, List.map_map]
  rfl

/-- A byte value occurs in a payload's table exactly when its count is not 0 (R107). -/
theorem mem_presentSyms_deserFreq (p : List Byte) (v : Byte) : v ∈ presentSyms (deserFreq p) ↔ be32 p (4 * v.toNat) ≠ 0#32 := by
  rw [mem_presentSyms, freqAt_deserFreq p v.isLt]

/-! ### Bytes after the code bytes -/

section
variable {p : List Byte} (extra : List Byte)

/-- A byte of a payload, whatever follows it. -/
theorem byteAt_append_left {i : Nat} (hi : i < p.length) : byteAt (p ++ extra) i = byteAt p i :=
  List.getD_append p extra 0#8 i hi

/-- A word of a payload, whatever follows it. -/
theorem be32_append_left {i : Nat} (hi : i + 3 < p.length) : be32 (p ++ extra) i = be32 p i := by
  rw [be32, be32, byteAt_append_left extra (by omega), byteAt_append_left extra (by omega), byteAt_append_left extra (by omega),
    byteAt_append_left extra hi]

/-- The counts of a payload, whatever follows them (R84). -/
theorem deserFreq_append (hlen : 1028 ≤ p.length) : deserFreq (p ++ extra) = deserFreq p :=
  List.map_congr_left fun v hv => be32_append_left extra (by rw [List.mem_range] at hv; omega)

/-- The code bits of a payload, whatever bytes follow them (R116). -/
theorem unpack_append {nb : Nat} (hnb : nb ≤ 8 * p.length) : unpack (p ++ extra) nb = unpack p nb := by
  refine List.map_congr_left fun j hj => ?_
  rw [List.mem_range] at hj
  rw [byteAt_append_left extra (by omega)]

/-- R123: bytes after the code bytes change nothing. -/
theorem hufDecompress_append (hlen : 1028 ≤ p.length) (hbits : (be32 p 1024).toNat ≤ 8 * (p.length - 1028)) :
    hufDecompress (p ++ extra) = hufDecompress p := by
  have hle : p.length ≤ (p ++ extra).length := (List.prefix_append p extra).length_le
  have hnb : be32 (p ++ extra) 1024 = be32 p 1024 := be32_append_left extra (by omega)
  rw [hufDecompress_of_bits_le hlen hbits, hufDecompress_of_bits_le, hnb, deserFreq_append extra hlen,
    List.drop_append_of_le_length hlen, unpack_append extra (by rwa [List.length_drop])]
  · exact hlen.trans hle
  · rw [hnb]
    exact hbits.trans (Nat.mul_le_mul_left 8 (Nat.sub_le_sub_right hle 1028))

end

/-! ### The bit strings a tree accepts -/

/-- The table of the tree BuildTree builds holds a byte value with its code, for each that occurs, and nothing else (R112, R113). -/
theorem exists_table_iff {freq : FreqTable} (h : presentSyms freq ≠ []) :
    ∃ root t, (buildTree freq).root = some root ∧ Holds (buildTree freq).nodes t root ∧ t.syms.Perm (presentSyms freq) ∧
      ∀ v p, (v, p) ∈ t.table ↔ v ∈ presentSyms freq ∧ codeOf (buildCodes (buildTree freq)) v = p := by
  obtain ⟨root, t, hroot, hholds, hsyms, hcodes⟩ := buildCodes_buildTree freq h
  have hnodup : t.syms.Nodup := hsyms.nodup_iff.mpr (presentSyms_nodup freq)
  refine ⟨root, t, hroot, hholds, hsyms, fun v p => ?_⟩
  rw [hcodes, ← hsyms.mem_iff]
  constructor
  · intro hp
    have hnodup' : (t.table.map (·.1)).Nodup := by rwa [t.table_syms]
    refine ⟨?_, codeOf_assignCodes _ _ _ p List.length_replicate hnodup' hp⟩
    rw [← t.table_syms]
    exact List.mem_map_of_mem hp
  · rintro ⟨hv, rfl⟩
    exact mem_table_of_mem_syms hnodup hv

/-- A tree with an internal node accepts only sequences of paths of its leaves (R118, M5 of R120). -/
theorem encodeBits_of_treeWalk_eq_ok {nodes : List Node} {root : Nat} {l r : PTree} (h : Holds nodes (.node l r) root)
    {code : CodeTable} (hcodes : ∀ v p, (v, p) ∈ (PTree.node l r).codes → codeOf code v = p) {bits : Bits} {out : List Byte}
    (hout : treeWalk nodes root root bits = .ok out) :
    (∀ v ∈ out, v ∈ (PTree.node l r).syms) ∧ encodeBits code out = bits := by
  induction out generalizing bits with
  | nil =>
    obtain ⟨-, rfl, -⟩ | ⟨v, p, rest, out', -, -, -, hcons⟩ := treeWalk_ok h l r root h le_rfl bits [] hout
    · exact ⟨nofun, rfl⟩
    · cases hcons
  | cons u out ih =>
    obtain ⟨-, -, hnil⟩ | ⟨v, p, rest, out', hp, rfl, hrest, hcons⟩ := treeWalk_ok h l r root h le_rfl bits (u :: out) hout
    · cases hnil
    · obtain ⟨rfl, rfl⟩ := List.cons.inj hcons
      obtain ⟨hsyms, hbits⟩ := ih hrest
      have hu : u ∈ (PTree.node l r).syms := by
        rw [← PTree.codes_syms]
        exact List.mem_map_of_mem hp
      exact ⟨List.forall_mem_cons.mpr ⟨hu, hsyms⟩, by rw [encodeBits_cons, hcodes u p hp, hbits]⟩

/-- A tree that is one leaf accepts only zeros, one for each byte (R113, M4 of R120). -/
theorem oneLeafWalk_eq_ok_iff (v : Byte) (bits : Bits) (out : List Byte) :
    oneLeafWalk v bits = .ok out ↔ bits = List.replicate bits.length false ∧ out = List.replicate bits.length v := by
  have hzeros : bits.any id = false ↔ bits = List.replicate bits.length false := by
    simp [List.any_eq_false, List.eq_replicate_iff]
  rw [oneLeafWalk, ← hzeros]
  cases bits.any id with
  | true => simp
  | false => simp [eq_comm]

/-- The codes of copies of one byte value. -/
theorem encodeBits_replicate (code : CodeTable) (v : Byte) (n : Nat) (h : codeOf code v = [false]) :
    encodeBits code (List.replicate n v) = List.replicate n false := by
  induction n with
  | zero => rfl
  | succ n ih => rw [List.replicate_succ, encodeBits_cons, h, ih]; rfl

/-- R118, R120 (M3 to M5): the tree of a table decodes exactly the sequences of codes, to the byte values they are the codes of. -/
theorem decodeBitString_buildTree_eq_ok_iff (freq : FreqTable) (bits : Bits) (out : List Byte) :
    decodeBitString (buildTree freq) bits = .ok out ↔
      (∀ v ∈ out, v ∈ presentSyms freq) ∧ encodeBits (buildCodes (buildTree freq)) out = bits := by
  by_cases hempty : presentSyms freq = []
  · have hroot := buildTree_root_none freq hempty
    have hnone : decodeBitString (buildTree freq) bits = .ok out ↔ bits = [] ∧ out = [] := by
      cases bits <;> simp [decodeBitString, hroot, eq_comm]
    rw [hnone, hempty]
    constructor
    · rintro ⟨rfl, rfl⟩
      exact ⟨nofun, rfl⟩
    · rintro ⟨hmem, rfl⟩
      obtain rfl := List.eq_nil_iff_forall_not_mem.mpr fun v hv => List.not_mem_nil (hmem v hv)
      exact ⟨rfl, rfl⟩
  · obtain ⟨root, t, hroot, hholds, hsyms, htable⟩ := exists_table_iff hempty
    constructor
    · intro hout
      cases t with
      | leaf u =>
        simp only [decodeBitString, hroot, hholds.2] at hout
        obtain ⟨hbits, rfl⟩ := (oneLeafWalk_eq_ok_iff u bits out).mp hout
        obtain ⟨hu, hcode⟩ := (htable u [false]).mp (List.mem_singleton_self _)
        refine ⟨fun v hv => List.eq_of_mem_replicate hv ▸ hu, ?_⟩
        rw [encodeBits_replicate _ u _ hcode, ← hbits]
      | node l r =>
        obtain ⟨-, _, _, hkind, -, -⟩ := id hholds
        simp only [decodeBitString, hroot, hkind] at hout
        obtain ⟨hmem, hbits⟩ := encodeBits_of_treeWalk_eq_ok hholds (fun v p hp => ((htable v p).mp hp).2) hout
        exact ⟨fun v hv => hsyms.mem_iff.mp (hmem v hv), hbits⟩
    · rintro ⟨hmem, rfl⟩
      exact decodeBitString_encodeBits hroot hholds _ fun v hv => (htable v _).mpr ⟨hmem v hv, rfl⟩

/-- Settles O60: the bits of a payload that decodes, and that a decoder fails only as malformed. -/
theorem hufDecodesExactlyCodeSequences : Obligations.HufDecodesExactlyCodeSequences := by
  unfold Obligations.HufDecodesExactlyCodeSequences
  refine fun p hlen hbits => ⟨fun v => freqAt_deserFreq p, fun out => ?_,
    (eq_malformed_iff (hufDecompress_ne_bitCountOverflow p)).mpr⟩
  rw [hufDecompress_eq_ok_iff hlen hbits, decodeBitString_buildTree_eq_ok_iff, freqTotal_deserFreq, and_assoc]
  simp only [mem_presentSyms_deserFreq]

/-! ### M3 and M4 -/

/-- M3: a payload whose counts are all 0 has no bits, or is malformed (R120). -/
theorem hufDecompress_of_counts_zero {p : List Byte} (hzero : ∀ v, v < 256 → be32 p (4 * v) = 0#32)
    (hnb : be32 p 1024 ≠ 0#32) : hufDecompress p = .error .malformed := by
  have hempty : presentSyms (deserFreq p) = [] :=
    List.eq_nil_iff_forall_not_mem.mpr fun v hv => (mem_presentSyms_deserFreq p v).mp hv (hzero v.toNat v.isLt)
  have hbits : (be32 p 1024).toNat ≠ 0 := fun h => hnb (BitVec.eq_of_toNat_eq h)
  apply hufDecompress_of_decodeBitString_malformed
  simp only [decodeBitString, buildTree_root_none _ hempty, length_unpack]
  exact if_pos hbits

/-- A tree with one leaf is that leaf. -/
theorem PTree.eq_leaf_of_syms {t : PTree} {u : Byte} (h : t.syms = [u]) : t = .leaf u := by
  cases t with
  | leaf v => rw [List.singleton_inj.mp h]
  | node l r =>
    have hlen : l.syms.length + r.syms.length = 1 := by rw [← List.length_append]; exact congrArg List.length h
    have hl := l.length_syms_pos
    have hr := r.length_syms_pos
    omega

/-- With one byte value that occurs, a bit 1 is malformed (R113, M4 of R120). -/
theorem decodeBitString_of_one_symbol {freq : FreqTable} {u : Byte} (h : presentSyms freq = [u]) {bits : Bits} (hone : true ∈ bits) :
    decodeBitString (buildTree freq) bits = .error .malformed := by
  obtain ⟨root, t, hroot, hholds, hsyms, -⟩ := exists_table_iff (freq := freq) (by rw [h]; nofun)
  rw [h, List.perm_singleton] at hsyms
  obtain rfl := PTree.eq_leaf_of_syms hsyms
  simp only [decodeBitString, hroot, hholds.2]
  exact if_pos (List.any_eq_true.mpr ⟨true, hone, rfl⟩)

/-- A byte of the code bytes is a byte of the payload. -/
theorem byteAt_drop (p : List Byte) (n i : Nat) : byteAt (p.drop n) i = byteAt p (n + i) := by
  rw [byteAt, byteAt, List.getD_eq_getElem?_getD, List.getD_eq_getElem?_getD, List.getElem?_drop]

/-- M4: a payload with one count that is not 0 has only bits 0, or is malformed (R120). -/
theorem hufDecompress_of_one_count {p : List Byte} {v j : Nat} (hv : v < 256) (hcount : be32 p (4 * v) ≠ 0#32)
    (hzero : ∀ u, u < 256 → u ≠ v → be32 p (4 * u) = 0#32) (hj : j < (be32 p 1024).toNat)
    (hone : (byteAt p (1028 + j / 8)).getLsbD (7 - j % 8) = true) : hufDecompress p = .error .malformed := by
  have hsyms : presentSyms (deserFreq p) = [BitVec.ofNat 8 v] := by
    rw [← List.perm_singleton, List.perm_ext_iff_of_nodup (presentSyms_nodup _) (List.nodup_singleton _)]
    intro u
    rw [mem_presentSyms_deserFreq, List.mem_singleton]
    constructor
    · intro hu
      by_contra hne
      refine hu (hzero u.toNat u.isLt fun h => hne ?_)
      rw [← h, BitVec.ofNat_toNat, BitVec.setWidth_eq]
    · rintro rfl
      rwa [BitVec.toNat_ofNat, Nat.mod_eq_of_lt hv]
  refine hufDecompress_of_decodeBitString_malformed (decodeBitString_of_one_symbol hsyms ?_)
  rw [← hone, ← byteAt_drop]
  exact List.mem_map_of_mem (List.mem_range.mpr hj)

/-- Settles O59: the checks one by one, and bytes to spare. -/
theorem hufDecoderChecks : Obligations.HufDecoderChecks := by
  unfold Obligations.HufDecoderChecks
  refine fun p => ⟨hufDecompress_of_length_lt, hufDecompress_of_bits_lt, hufDecompress_of_counts_zero, ?_, fun out hout => ?_,
    fun extra => hufDecompress_append extra⟩
  · rintro ⟨v, hv, hcount, hzero⟩ ⟨j, hj, hone⟩
    exact hufDecompress_of_one_count hv hcount hzero hj hone
  · obtain ⟨hlen, hbits⟩ := bits_le_of_hufDecompress_eq_ok hout
    rw [← freqTotal_deserFreq]
    exact ((hufDecompress_eq_ok_iff hlen hbits out).mp hout).2

end Sys2Proof.Machine
end
